-- ==== Sys2Proof/Word.lean ====
section
/-! DEFINITION. The byte, the one machine word of the block (00_scope.md rule R11). Lengths, offsets, counts and the
numbers that name contexts, views, accumulators, buffers and writers are natural numbers (rule R11), so they are `Nat`. -/

namespace Sys2Proof

/-- A byte: 8 bits, bit 0 the least significant (R11). -/
abbrev Byte := BitVec 8

end Sys2Proof
end

