-- ==== Sys2Proof/Config.lean ====
section
/-! DEFINITION. What an implementation fixes: the constants of 00_scope.md rule R10, the open parameters of rule R9
(`opaque`, so that no proof can see their values) and the free draws of a writer (30_encoding.md rule R86). -/

namespace Sys2Proof.Config

/-- `CHAIN_BIT`: bit 4 of CLA (R10, R78; 90_conflicts.md C8). -/
@[simp] abbrev chainBit : Byte := 0x10#8
/-- `INVALID_CLA`: the one reserved class pattern 0b1110_1111 (R10, R79). -/
@[simp] abbrev invalidCla : Byte := 0xEF#8
/-- `SHORT_LC_MAX` (R10). -/
@[simp] abbrev shortLcMax : Nat := 255
/-- `SHORT_LE_MAX` (R10). -/
@[simp] abbrev shortLeMax : Nat := 256
/-- `EXT_LC_MAX` (R10). -/
@[simp] abbrev extLcMax : Nat := 65535
/-- `EXT_LE_MAX` (R10). -/
@[simp] abbrev extLeMax : Nat := 65536
/-- `CHUNK_MAX` (R10; every non-final chunk has exactly this size, R101). -/
@[simp] abbrev chunkMax : Nat := 255
/-- `CMD_LEN_MAX` (R10). -/
@[simp] abbrev cmdLenMax : Nat := 65535
/-- `CMD_LE_MAX` (R10). -/
@[simp] abbrev cmdLeMax : Nat := 65536

/-- The two values of the open parameter `P_PARSE_CLA_CHECK` (R9, R146). -/
inductive ClaCheck where
  | acceptAll  -- `ACCEPT_ALL`
  | rejectEf   -- `REJECT_EF`
deriving DecidableEq, Repr, Inhabited

/-- `P_PARSE_CLA_CHECK`: whether PARSE rejects a received class byte 0xEF. OPEN in the spec (92_eei_decisions.md D14), so
no value is given here: whatever is proved holds for both (log entry 9). -/
opaque parseClaCheck : ClaCheck

/-- The instance capacity `N` of accumulator `a`, the one it has after reset, before any ACC_NEW (R9, R45). OPEN in the
spec (92_eei_decisions.md D22); log entry 8. -/
opaque resetCapacity : Nat → Nat

/-- A writer's answer to `W.remaining()` where the operation's record states none: writer `j`, after `q` queries. A free
draw (R86; 93_implementation_defined.md I18; log entry 10). -/
opaque drawRemaining : Nat → Nat → Nat

/-- Whether a writer errs on `W.write` where the operation's record states no answer, and with which error. A free draw
(R86, I5, I18; log entry 10). -/
opaque drawError : Nat → Nat → Option Nat

/-- How many bytes a writer takes on `W.write` where the operation's record states no answer, before it is brought below
the length of what was offered. A free draw (R86, I5, I18; log entry 10). -/
opaque drawCount : Nat → Nat → Nat

end Sys2Proof.Config
end

