-- ==== Sys2Proof/Syntax.lean ====
section
/-! DEFINITION. The syntax of the block: the seven operations of 30_encoding.md rule R85 and the seven unit forms of rule
R76, one constructor of `Instr` for each row of opcode_table.json, with their operands. -/

namespace Sys2Proof

/-- The four mandatory header bytes of a command unit (R15, R71). -/
structure Header where
  cla : Byte
  ins : Byte
  p1  : Byte
  p2  : Byte
deriving DecidableEq, Repr

/-- A LogicalCommand (10_state.md rule R20): header, payload, expected-response length (`le = 0`: no Le field). -/
structure LogicalCommand where
  hdr  : Header
  data : List Byte
  le   : Nat
deriving DecidableEq, Repr

/-- `WErr`, the type of a writer's own error value (R9): the block only passes it on. Log entry 12. -/
abbrev WErr := Nat

/-- One answer of a writer at its port (R86): to `remaining`, or to `write`. -/
inductive Answer where
  | remaining (cap : Nat)          -- `W.remaining() -> cap`
  | ok  (k : Nat)                  -- `W.write(s) -> Ok(k)`: s[0 .. k) is appended
  | err (e : WErr) (j : Nat)       -- `W.write(s) -> Err(e)`: s[0 .. j) may have been appended, j a draw
deriving DecidableEq, Repr

/-- How the writer that an operation is given answers its queries (R9: `W`, "the answers to `remaining` and `write`").
`buf` and `fail` are the reference writers of R89. -/
inductive Answers where
  | buf   (cap : Nat)              -- `buf(cap)`
  | fail  (j : Nat)                -- `fail(j)`
  | given (as : List Answer)       -- the answers in the order of the queries; past their end, free draws
deriving DecidableEq, Repr

/-- The writer operand `W<j>` of SER_START and SER_RESUME (R85, R88): its number and its answers. -/
structure Writer where
  id      : Nat
  answers : Answers
deriving DecidableEq, Repr

/-- The reasons PARSE_ERROR carries (60_exceptions.md rule R180). -/
inductive ParseReason where
  | tooShort         -- TOO_SHORT (R143)
  | badLengthMarker  -- BAD_LENGTH_MARKER (R144)
  | lengthMismatch   -- LENGTH_MISMATCH (R144)
  | mixedForms       -- MIXED_FORMS (R145)
  | invalidClass     -- INVALID_CLASS (R146)
deriving DecidableEq, Repr

/-- The seven operations (R85) and the seven unit forms (R76). An operation names a context `c`, a view `v`, an
accumulator `a` or a receive buffer `b` by number. A unit form carries the fields its row of the table names; the length
field Lc is the length of `d` (R72, R73). -/
inductive Instr where
  | serStart  (c : Nat) (cmd : LogicalCommand) (ext : Bool) (w : Writer)  -- SER_START (R107)
  | serResume (c : Nat) (ext : Bool) (w : Writer)                         -- SER_RESUME (R116)
  | serCancel (c : Nat)                                                   -- SER_CANCEL (R120)
  | parse     (v b : Nat)                                                 -- PARSE (R140)
  | accNew    (a n : Nat)                                                 -- ACC_NEW (R160)
  | accExtend (a v : Nat)                                                 -- ACC_EXTEND (R161)
  | accRead   (a : Nat)                                                   -- ACC_READ (R170)
  | uHdr   (h : Header)                                                   -- U_HDR
  | uSLe   (h : Header) (e : Byte)                                        -- U_S_LE
  | uSLc   (h : Header) (d : List Byte)                                   -- U_S_LC
  | uSLcLe (h : Header) (d : List Byte) (e : Byte)                        -- U_S_LC_LE
  | uELe   (h : Header) (e : BitVec 16)                                   -- U_E_LE
  | uELc   (h : Header) (d : List Byte)                                   -- U_E_LC
  | uELcLe (h : Header) (d : List Byte) (e : BitVec 16)                   -- U_E_LC_LE
deriving DecidableEq, Repr

/-- Where an instruction's bytes come from: the caller's operation records (R85) or the units received from the
transport (R70). -/
inductive Port where
  | op
  | unit
deriving DecidableEq, Repr

/-- The port an instruction comes in by. -/
def Instr.port : Instr → Port
  | .serStart _ _ _ _ => .op
  | .serResume _ _ _ => .op
  | .serCancel _ => .op
  | .parse _ _ => .op
  | .accNew _ _ => .op
  | .accExtend _ _ => .op
  | .accRead _ => .op
  | .uHdr _ => .unit
  | .uSLe _ _ => .unit
  | .uSLc _ _ => .unit
  | .uSLcLe _ _ _ => .unit
  | .uELe _ _ => .unit
  | .uELc _ _ => .unit
  | .uELcLe _ _ _ => .unit

end Sys2Proof
end

