-- ==== Sys2Proof/WellFormed.lean ====
section
/-! DEFINITION. Which terms of `Instr` are well formed: the operand ranges of 10_state.md rule R20 and the payload lengths
of the unit forms in 30_encoding.md rule R76. Every other operand is a byte or a natural number of any size (R9, R11). -/

namespace Sys2Proof

/-- The ranges of a LogicalCommand (R20): at most 65535 payload bytes, expected length at most 65536. -/
def LogicalCommand.inRange (cmd : LogicalCommand) : Bool :=
  decide (cmd.data.length ≤ Config.cmdLenMax) && decide (cmd.le ≤ Config.cmdLeMax)

/-- `WF_CMD` (R21): in range, and the chaining bit of `cla` is clear. -/
def LogicalCommand.wfCmd (cmd : LogicalCommand) : Bool :=
  cmd.inRange && decide (cmd.hdr.cla &&& Config.chainBit = 0#8)

/-- A payload that a short Lc can declare (R72). -/
def shortPayload (d : List Byte) : Bool :=
  decide (1 ≤ d.length) && decide (d.length ≤ Config.shortLcMax)

/-- A payload that an extended Lc can declare (R73). -/
def extPayload (d : List Byte) : Bool :=
  decide (1 ≤ d.length) && decide (d.length ≤ Config.extLcMax)

/-- Well-formed instructions. -/
def Instr.wf : Instr → Bool
  | .serStart _ cmd _ _ => cmd.inRange
  | .serResume _ _ _ => true
  | .serCancel _ => true
  | .parse _ _ => true
  | .accNew _ _ => true
  | .accExtend _ _ => true
  | .accRead _ => true
  | .uHdr _ => true
  | .uSLe _ _ => true
  | .uSLc _ d => shortPayload d
  | .uSLcLe _ d _ => shortPayload d
  | .uELe _ _ => true
  | .uELc _ d => extPayload d
  | .uELcLe _ d _ => extPayload d

end Sys2Proof
end

