-- ==== Sys2Proof/Decode.lean ====
section
/-! DEFINITION. Decoding and encoding. The unit forms follow 30_encoding.md rules R70 to R83 byte for byte. Of an operation
record the spec gives the OP byte alone (R85): how the operands after it are laid out is the model's own choice (log entry
1). Both decoders are total and reject by name. -/

namespace Sys2Proof

/-! ### Numbers in bytes -/

/-- `BE16(v)` (00_scope.md rule R11). -/
def be16 (v : Nat) : List Byte := [BitVec.ofNat 8 (v / 256), BitVec.ofNat 8 v]

/-- `UNBE16(h, l)` (R11). -/
def unbe16 (h l : Byte) : Nat := h.toNat * 256 + l.toNat

/-- A short Le byte as an expected length: 0x00 is 256 (R74). -/
def shortLe (e : Byte) : Nat := if e = 0#8 then Config.shortLeMax else e.toNat

/-- A 16-bit extended Le field as an expected length: 0x0000 is 65536 (R75). -/
def extLe (w : Nat) : Nat := if w = 0 then Config.extLeMax else w

/-- The four header bytes in wire order (R71). -/
def Header.bytes (h : Header) : List Byte := [h.cla, h.ins, h.p1, h.p2]

/-! ### The unit forms -/

/-- The bytes of a unit of each form (R76). -/
def encodeUnit : Instr → List Byte
  | .uHdr h => h.bytes
  | .uSLe h e => h.bytes ++ [e]
  | .uSLc h d => h.bytes ++ [BitVec.ofNat 8 d.length] ++ d
  | .uSLcLe h d e => h.bytes ++ [BitVec.ofNat 8 d.length] ++ d ++ [e]
  | .uELe h e => h.bytes ++ [0#8] ++ be16 e.toNat
  | .uELc h d => h.bytes ++ [0#8] ++ be16 d.length ++ d
  | .uELcLe h d e => h.bytes ++ [0#8] ++ be16 d.length ++ d ++ be16 e.toNat
  | .serStart _ _ _ _ => []
  | .serResume _ _ _ => []
  | .serCancel _ => []
  | .parse _ _ => []
  | .accNew _ _ => []
  | .accExtend _ _ => []
  | .accRead _ => []

/-- The rest of a unit after a short Lc of value `lc` ≠ 0 (R82 step 3, R83). -/
def decodeShort (h : Header) (lc : Nat) (body : List Byte) : Except ParseReason Instr :=
  if body.length < lc then .error .lengthMismatch
  else match body.drop lc with
    | [] => .ok (.uSLc h (body.take lc))
    | [e] => .ok (.uSLcLe h (body.take lc) e)
    | [_, _] => .error .mixedForms
    | _ => .error .lengthMismatch

/-- The rest of a unit after an extended Lc of value `lc` ≠ 0 (R82 step 5, R83). -/
def decodeExt (h : Header) (lc : Nat) (body : List Byte) : Except ParseReason Instr :=
  if body.length < lc then .error .lengthMismatch
  else match body.drop lc with
    | [] => .ok (.uELc h (body.take lc))
    | [_] => .error .mixedForms
    | [eh, el] => .ok (.uELcLe h (body.take lc) (BitVec.ofNat 16 (unbe16 eh el)))
    | _ => .error .lengthMismatch

/-- The form of a unit, from its length and byte 4 (R82); every other byte sequence is no unit (R83). -/
def decodeUnit : List Byte → Except ParseReason Instr
  | cla :: ins :: p1 :: p2 :: rest =>
    let h : Header := ⟨cla, ins, p1, p2⟩
    match rest with
    | [] => .ok (.uHdr h)
    | [e] => .ok (.uSLe h e)
    | b4 :: body =>
      if b4 ≠ 0#8 then decodeShort h b4.toNat body
      else match body with
        | hi :: lo :: tail =>
          if tail = [] then .ok (.uELe h (BitVec.ofNat 16 (unbe16 hi lo)))
          else if unbe16 hi lo = 0 then .error .badLengthMarker
          else decodeExt h (unbe16 hi lo) tail
        | _ => .error .badLengthMarker
  | _ => .error .tooShort

/-! ### Operation records

A natural number stands in groups of 7 bits, the least significant group first, each group but the last with bit 7 set,
and no number has a group more than it needs. A flag is one byte, 0 or 1. -/

/-- The groups of `n`; `fuel` is at least the number of groups after the first. -/
def putNatFuel : Nat → Nat → List Byte
  | 0, n => [BitVec.ofNat 8 n]
  | fuel + 1, n =>
    if n < 128 then [BitVec.ofNat 8 n] else BitVec.ofNat 8 (128 + n % 128) :: putNatFuel fuel (n / 128)

/-- A natural number as an operand. -/
def putNat (n : Nat) : List Byte := putNatFuel n n

/-- Reads a natural number. -/
def takeNat : List Byte → Option (Nat × List Byte)
  | [] => none
  | b :: bs =>
    if b.toNat < 128 then some (b.toNat, bs)
    else match takeNat bs with
      | some (n, rest) => if n = 0 then none else some (b.toNat - 128 + 128 * n, rest)
      | none => none

/-- Reads one byte. -/
def takeByte : List Byte → Option (Byte × List Byte)
  | [] => none
  | b :: bs => some (b, bs)

/-- Reads `n` bytes. -/
def takeBytes (n : Nat) (bs : List Byte) : Option (List Byte × List Byte) :=
  if n ≤ bs.length then some (bs.take n, bs.drop n) else none

/-- A flag as an operand. -/
def putFlag (f : Bool) : List Byte := [if f then 1#8 else 0#8]

/-- Reads a flag: a byte other than 0 and 1 is none. -/
def takeFlag : List Byte → Option (Bool × List Byte)
  | [] => none
  | b :: bs => if b = 0#8 then some (false, bs) else if b = 1#8 then some (true, bs) else none

/-- A writer's answer as an operand: its kind, then its numbers. -/
def putAnswer : Answer → List Byte
  | .remaining cap => 0#8 :: putNat cap
  | .ok k => 1#8 :: putNat k
  | .err e j => 2#8 :: (putNat e ++ putNat j)

/-- Reads a writer's answer. -/
def takeAnswer (bs : List Byte) : Option (Answer × List Byte) := do
  let (kind, bs) ← takeByte bs
  if kind = 0#8 then
    let (cap, bs) ← takeNat bs
    some (.remaining cap, bs)
  else if kind = 1#8 then
    let (k, bs) ← takeNat bs
    some (.ok k, bs)
  else if kind = 2#8 then
    let (e, bs) ← takeNat bs
    let (j, bs) ← takeNat bs
    some (.err e j, bs)
  else none

/-- Answers one after the other. -/
def putAnswerList : List Answer → List Byte
  | [] => []
  | a :: as => putAnswer a ++ putAnswerList as

/-- Reads `n` answers. -/
def takeAnswerList : Nat → List Byte → Option (List Answer × List Byte)
  | 0, bs => some ([], bs)
  | n + 1, bs => do
    let (a, bs) ← takeAnswer bs
    let (as, bs) ← takeAnswerList n bs
    some (a :: as, bs)

/-- A writer operand: its number, the kind of its answers, then what the kind needs. -/
def putWriter (w : Writer) : List Byte :=
  putNat w.id ++
    match w.answers with
    | .buf cap => 0#8 :: putNat cap
    | .fail j => 1#8 :: putNat j
    | .given as => 2#8 :: (putNat as.length ++ putAnswerList as)

/-- Reads a writer operand. -/
def takeWriter (bs : List Byte) : Option (Writer × List Byte) := do
  let (j, bs) ← takeNat bs
  let (kind, bs) ← takeByte bs
  if kind = 0#8 then
    let (cap, bs) ← takeNat bs
    some (⟨j, .buf cap⟩, bs)
  else if kind = 1#8 then
    let (n, bs) ← takeNat bs
    some (⟨j, .fail n⟩, bs)
  else if kind = 2#8 then
    let (n, bs) ← takeNat bs
    let (as, bs) ← takeAnswerList n bs
    some (⟨j, .given as⟩, bs)
  else none

/-- A LogicalCommand operand: header, payload length, payload, expected length. -/
def putCommand (cmd : LogicalCommand) : List Byte :=
  cmd.hdr.bytes ++ putNat cmd.data.length ++ cmd.data ++ putNat cmd.le

/-- Reads a LogicalCommand operand. -/
def takeCommand (bs : List Byte) : Option (LogicalCommand × List Byte) := do
  let (cla, bs) ← takeByte bs
  let (ins, bs) ← takeByte bs
  let (p1, bs) ← takeByte bs
  let (p2, bs) ← takeByte bs
  let (n, bs) ← takeNat bs
  let (data, bs) ← takeBytes n bs
  let (le, bs) ← takeNat bs
  some (⟨⟨cla, ins, p1, p2⟩, data, le⟩, bs)

/-- The record of each operation: the OP byte of R85, then the operands in the order of R85. -/
def encodeOp : Instr → List Byte
  | .serStart c cmd ext w => 0x01#8 :: (putNat c ++ putCommand cmd ++ putFlag ext ++ putWriter w)
  | .serResume c ext w => 0x02#8 :: (putNat c ++ putFlag ext ++ putWriter w)
  | .serCancel c => 0x03#8 :: putNat c
  | .parse v b => 0x10#8 :: (putNat v ++ putNat b)
  | .accNew a n => 0x20#8 :: (putNat a ++ putNat n)
  | .accExtend a v => 0x21#8 :: (putNat a ++ putNat v)
  | .accRead a => 0x22#8 :: putNat a
  | .uHdr _ => []
  | .uSLe _ _ => []
  | .uSLc _ _ => []
  | .uSLcLe _ _ _ => []
  | .uELe _ _ => []
  | .uELc _ _ => []
  | .uELcLe _ _ _ => []

/-- Why bytes are no instruction. -/
inductive DecodeError where
  | badOp (op : Byte)            -- an operation code that R85 does not list (R87)
  | badRecord                    -- operands missing, left over or of no kind the layout has (log entry 1)
  | notUnit (r : ParseReason)    -- not one of the seven unit forms (R83)
deriving DecidableEq, Repr

/-- The operands that follow OP code `op`, if `op` is one of the seven codes of R85. -/
def takeOperands (op : Byte) : Option (List Byte → Option (Instr × List Byte)) :=
  if op = 0x01#8 then some fun bs => do
    let (c, bs) ← takeNat bs
    let (cmd, bs) ← takeCommand bs
    let (ext, bs) ← takeFlag bs
    let (w, bs) ← takeWriter bs
    some (.serStart c cmd ext w, bs)
  else if op = 0x02#8 then some fun bs => do
    let (c, bs) ← takeNat bs
    let (ext, bs) ← takeFlag bs
    let (w, bs) ← takeWriter bs
    some (.serResume c ext w, bs)
  else if op = 0x03#8 then some fun bs => do
    let (c, bs) ← takeNat bs
    some (.serCancel c, bs)
  else if op = 0x10#8 then some fun bs => do
    let (v, bs) ← takeNat bs
    let (b, bs) ← takeNat bs
    some (.parse v b, bs)
  else if op = 0x20#8 then some fun bs => do
    let (a, bs) ← takeNat bs
    let (n, bs) ← takeNat bs
    some (.accNew a n, bs)
  else if op = 0x21#8 then some fun bs => do
    let (a, bs) ← takeNat bs
    let (v, bs) ← takeNat bs
    some (.accExtend a v, bs)
  else if op = 0x22#8 then some fun bs => do
    let (a, bs) ← takeNat bs
    some (.accRead a, bs)
  else none

/-- The operation a record names. A record holds one operation and nothing after it. -/
def decodeOp : List Byte → Except DecodeError Instr
  | [] => .error .badRecord
  | op :: bs =>
    match takeOperands op with
    | none => .error (.badOp op)
    | some operands =>
      match operands bs with
      | some (i, []) => .ok i
      | _ => .error .badRecord

/-! ### Both ports -/

/-- The bytes of an instruction at its port. -/
def encode (i : Instr) : List Byte :=
  match i.port with
  | .op => encodeOp i
  | .unit => encodeUnit i

/-- The instruction that bytes at a port are. -/
def decode (p : Port) (bs : List Byte) : Except DecodeError Instr :=
  match p with
  | .op => decodeOp bs
  | .unit => match decodeUnit bs with
    | .ok i => .ok i
    | .error r => .error (.notUnit r)

/-! ### The words of the opcode table -/

/-- The low `n` bytes of `w`, the first at bits 7..0. -/
def lowBytes : Nat → Nat → List Byte
  | 0, _ => []
  | n + 1, w => BitVec.ofNat 8 w :: lowBytes n (w / 256)

/-- How many bytes a record takes whose operands are all zero, its OP byte included. -/
def zeroRecordLength (op : Byte) : Nat :=
  if op = 0x01#8 then 12
  else if op = 0x02#8 then 6
  else if op = 0x03#8 then 2
  else if op = 0x10#8 then 3
  else if op = 0x20#8 then 3
  else if op = 0x21#8 then 3
  else if op = 0x22#8 then 2
  else 1

/-- How many bytes the unit has whose payload the table's bits leave out: up to the end of its declared payload. Five
bytes are a whole U_S_LE, and seven with byte 4 zero a whole U_E_LE (R82). -/
def unitLength (bs : List Byte) : Nat :=
  match bs with
  | _ :: _ :: _ :: _ :: b4 :: x :: rest =>
    if b4 ≠ 0#8 then 5 + b4.toNat
    else match rest with
      | y :: _ :: _ => 7 + unbe16 x y
      | _ => 7
  | _ => 0

/-- The port a row of the table comes in by: the operations have one byte there, a unit at least four. -/
def tablePort (nbits : Nat) : Port := if nbits < 32 then .op else .unit

/-- `bs` with zero bytes up to length `n`. -/
def padTo (n : Nat) (bs : List Byte) : List Byte := bs ++ List.replicate (n - bs.length) 0#8

/-- The bytes of an instruction whose table bits are `w`, every bit above `nbits` zero. -/
def tableBytes (nbits w : Nat) : List Byte :=
  let bs := lowBytes ((nbits + 7) / 8) (w % 2 ^ nbits)
  match tablePort nbits with
  | .op => padTo (zeroRecordLength (BitVec.ofNat 8 w)) bs
  | .unit => padTo (unitLength bs) bs

/-- The instruction the decoder reads from the table word `w` of `nbits` bits. -/
def decodeTableWord (nbits w : Nat) : Option Instr :=
  match decode (tablePort nbits) (tableBytes nbits w) with
  | .ok i => some i
  | .error _ => none

end Sys2Proof
end

