-- ==== Sys2Proof/Machine/State.lean ====
section
/-! DEFINITION. The machine's state (10_state.md), the outcomes it returns (60_exceptions.md rule R180), the reasons it
stops (rule R184) and the state after reset (rule R45). Plain data throughout: a store of numbered things is a list of
(number, thing) pairs, numbers strictly rising; `Sys2Proof/Machine/Ops.lean` holds every access to them. -/

namespace Sys2Proof.Machine

/-- A store of things under numbers: pairs with strictly rising numbers (`Slots.sorted`). -/
abbrev Slots (α : Type) := List (Nat × α)

/-- The accumulator buffer `A_BUF` (20_memory.md rule R53): addresses with their bytes, addresses strictly rising. An
address that is not listed holds no value (10_state.md rule R46), so no entry can equal what an unlisted address reads as. -/
abbrev Memory := List Host.Cell

/-! ### The serializer context -/

/-- `MODE` (R24). -/
inductive Mode where
  | short     -- 0 SHORT
  | extended  -- 1 EXTENDED
  | chained   -- 2 CHAINED
deriving DecidableEq, Repr

/-- `RESUME_KIND` (R27). -/
inductive ResumeKind where
  | midUnit        -- 0 MID_UNIT
  | chainBoundary  -- 1 CHAIN_BOUNDARY
deriving DecidableEq, Repr

/-- A live serializer context (R22). `hdr` holds `CMD_CLA`, `CMD_INS`, `CMD_P1` and `CMD_P2`, `data` holds `CMD_DATA`, the
payload memory (R51); `CMD_LEN` is its length (log entry 14). A context that is not live (`S_VALID = 0`) is not listed in
the state, since its other fields hold no value (R46; log entry 6). -/
structure Context where
  hdr        : Header
  data       : List Byte
  le         : Nat          -- CMD_LE
  mode       : Mode         -- MODE
  chunkBase  : Nat          -- CHUNK_BASE
  unitOff    : Nat          -- UNIT_OFF
  resumeKind : ResumeKind   -- RESUME_KIND
deriving DecidableEq, Repr

/-! ### The view -/

/-- A view (R33). `hdr` holds `V_CLA`, `V_INS`, `V_P1` and `V_P2` as received. `buf` is `V_BUF`, the number of the receive
buffer the payload slice borrows (log entry 2). `stale` is the model's own: the buffer changed since PARSE (R65; log entry
15). -/
structure View where
  hdr     : Header
  doff    : Nat     -- V_DOFF
  dlen    : Nat     -- V_DLEN
  le      : Nat     -- V_LE
  ext     : Bool    -- V_EXT
  chained : Bool    -- V_CHAINED
  buf     : Nat     -- V_BUF
  stale   : Bool
deriving DecidableEq, Repr

/-! ### The accumulator -/

/-- `A_STATE` (R38). -/
inductive AState where
  | empty       -- 0 EMPTY
  | continuing  -- 1 CONTINUING
  | complete    -- 2 COMPLETE
  | failed      -- 3 FAILED
deriving DecidableEq, Repr

/-- An accumulator (R37). `hdr` holds `A_CLA`, `A_INS`, `A_P1` and `A_P2`; `hdr` and `le` are `none` while those fields hold
no value, which the spec makes a state of theirs (R45, R46; log entry 7). -/
structure Acc where
  cap   : Nat             -- N
  state : AState          -- A_STATE
  hdr   : Option Header
  len   : Nat             -- A_LEN
  le    : Option Nat      -- A_LE
  buf   : Memory          -- A_BUF
deriving DecidableEq, Repr

/-! ### The writer -/

/-- What a writer holds (R8, R47): its append-only stream (R54), and how often each query was made of it (R121; the counts
are the model's own, log entry 11). A writer that is not listed in the state has this at its default. -/
structure WriterState where
  stream : List Byte := []
  asks   : Nat := 0         -- calls of `remaining`
  writes : Nat := 0         -- calls of `write`
deriving DecidableEq, Repr

/-! ### Outcomes -/

/-- What ACC_READ returns (R170, R171). -/
inductive AccFields where
  | empty                                                             -- state = EMPTY, len = 0
  | fields (state : AState) (hdr : Header) (data : List Byte) (le : Nat)
deriving DecidableEq, Repr

/-- The outcome an operation returns to its caller (R180), with the information it carries. -/
inductive OpOutcome where
  | ok                              -- 0x00 OK of SER_CANCEL and ACC_NEW
  | okView (v : View)               -- 0x00 OK of PARSE
  | okRead (f : AccFields)          -- 0x00 OK of ACC_READ
  | done                            -- 0x01 DONE
  | pending (ctx : Context)         -- 0x02 PENDING
  | continuing                      -- 0x03 CONTINUING
  | complete                        -- 0x04 COMPLETE
  | invalidClass                    -- 0x81 INVALID_CLASS
  | writerError (e : WErr)          -- 0x82 WRITER_ERROR
  | parseError (r : ParseReason)    -- 0x90 PARSE_ERROR
  | headerMismatch                  -- 0xA1 HEADER_MISMATCH
  | capacityExceeded                -- 0xA2 CAPACITY_EXCEEDED
  | alreadyComplete                 -- 0xA3 ALREADY_COMPLETE
deriving DecidableEq, Repr

/-! ### What reaches the block from outside -/

/-- One move of the caller or of the transport (R8, R50, R193, R210), in the order they make them (R61; log entry 3). -/
inductive Input where
  | op (bs : List Byte)                 -- the caller issues the operation of this record (R85)
  | unit (v b : Nat) (bs : List Byte)   -- the transport puts one unit's bytes in receive buffer b, for view v (log entry 4)
  | fillBuf (b : Nat) (bs : List Byte)  -- the caller or the transport writes receive buffer b (R50, R65)
  | setCommand (c : Nat) (cmd : LogicalCommand)  -- the caller writes the payload memory or the fields CMD_CLA to CMD_LE of
                                                 -- context c (R50, R64)
  | reset                               -- the block is reset (R210, R211)
deriving DecidableEq, Repr

/-- Where the PARSER puts the view of a unit that the transport delivers, and the receive buffer that holds the unit. The
model's own (log entry 5). -/
structure Receiver where
  view : Nat
  buf  : Nat
deriving DecidableEq, Repr

/-! ### The state -/

/-- Everything the spec gives the machine. -/
structure State where
  ctxs    : Slots Context            -- the live contexts (R22); one that is not listed has S_VALID = 0
  views   : Slots View               -- the views (R33)
  accs    : Slots Acc                -- the accumulators (R37); one that is not listed is as reset leaves it (R45)
  bufs    : Slots (List Byte)        -- the receive buffers (R52); one that is not listed has no bytes
  writers : Slots WriterState        -- the writers (R8, R54)
  inputs  : List Input               -- what the caller and the transport do next (log entry 3)
  rx      : Receiver                 -- log entry 5
  outcome : Option OpOutcome         -- what the last operation returned (R36); none before the first (log entry 13)
deriving DecidableEq, Repr

/-! ### Why the machine stops -/

/-- Why the machine stops with a fault. The block has none of its own: every error is a returned outcome (R187). -/
inductive Fault where
  /-- Raised where the loop of SER_STEP would take more passes than R121 bounds it by. No state reaches it. Safe. -/
  | engineBound
deriving DecidableEq, Repr

/-- Why an operation has no meaning (R184): the whole state is then refused. Every refusal is safe. -/
inductive Refusal where
  /-- Raised by an arm of `exec` that gives its instruction no meaning; no arm does. Safe. -/
  | notModelled (mnemonic : String)
  /-- `OPERAND_RANGE`: raised by SER_START for a command outside the ranges of R20, and by a unit form whose payload its Lc
  cannot declare (R48; log entry 24). Safe. -/
  | operandRange
  /-- `RESUME_NOT_LIVE`: raised by SER_RESUME of a context that is not live (R118). Safe. -/
  | resumeNotLive
  /-- `ACC_FAILED`: raised by ACC_EXTEND and ACC_READ of an accumulator in state FAILED (R169). Safe. -/
  | accFailed
  /-- `NO_VALUE`: raised by a read of a field, a view or a byte that holds no value (R46). Safe. -/
  | noValue
  /-- `BAD_OP`: raised by `step` for an operation code that R85 does not list (R87). Safe. -/
  | badOp (op : Byte)
  /-- `WRITER_CONTRACT`: raised by SER_START and SER_RESUME for a writer's answer outside R86. Safe. -/
  | writerContract
  /-- `STALE_INPUT`: raised by a change of a live context's command, and by ACC_EXTEND with a view whose receive buffer
  changed since PARSE (R64, R65, R217). Safe. -/
  | staleInput
  /-- Raised by `step` for a record whose bytes after its operation code are no operands (log entry 22). Safe. -/
  | badRecord
deriving DecidableEq, Repr

/-- The machine right after reset (R45, R210): no context live, no view, every accumulator as not yet used, nothing
delivered and nothing issued. -/
def State.reset : State where
  ctxs := []
  views := []
  accs := []
  bufs := []
  writers := []
  inputs := []
  rx := ⟨0, 0⟩
  outcome := none

end Sys2Proof.Machine
end

