-- ==== Sys2Proof/Machine/Ops.lean ====
section
/-! DEFINITION. The named operations over the state: the numbered stores, the accumulator buffer (20_memory.md rule R53),
the receive buffers (R52), the writer port (30_encoding.md rule R86), and returning an outcome, which is all that an error
does in this block (60_exceptions.md rules R180 and R187: no trap, nothing saved, nothing to return from). -/

namespace Sys2Proof.Machine

/-! ### Numbered stores -/

/-- What stands under number `k`. -/
def Slots.get {α : Type} : Slots α → Nat → Option α
  | [], _ => none
  | (k', v) :: m, k => if k = k' then some v else Slots.get m k

/-- Puts `v` under number `k`. -/
def Slots.set {α : Type} : Slots α → Nat → α → Slots α
  | [], k, v => [(k, v)]
  | (k', v') :: m, k, v =>
    if k < k' then (k, v) :: (k', v') :: m
    else if k = k' then (k, v) :: m
    else (k', v') :: Slots.set m k v

/-- Takes away what stands under number `k`. -/
def Slots.erase {α : Type} (m : Slots α) (k : Nat) : Slots α := m.filter fun e => decide (e.1 ≠ k)

/-- The canonical form: numbers strictly rising. -/
def Slots.sorted {α : Type} : Slots α → Bool
  | [] => true
  | [_] => true
  | e :: f :: m => decide (e.1 < f.1) && Slots.sorted (f :: m)

/-- A number above every number of the store. -/
def Slots.fresh {α : Type} : Slots α → Nat
  | [] => 0
  | (k, _) :: m => max (k + 1) (Slots.fresh m)

/-- The store with `f` applied to everything in it. -/
def Slots.map {α : Type} (f : α → α) : Slots α → Slots α
  | [] => []
  | (k, v) :: m => (k, f v) :: Slots.map f m

/-! ### The accumulator buffer -/

/-- The byte of `A_BUF` at address `i`, if it holds one (R46). -/
def Memory.read (m : Memory) (i : Nat) : Option Byte := Slots.get m i

/-- `AccWrite(acc, i, v)` (R53). -/
def Memory.write (m : Memory) (i : Nat) (v : Byte) : Memory := Slots.set m i v

/-- The canonical form of a buffer: addresses strictly rising. -/
def Memory.wf (m : Memory) : Bool := Slots.sorted m

/-- Writes `bs` at `i`, `i + 1`, … in index order (R56, R165). -/
def Memory.writeRun (m : Memory) (i : Nat) : List Byte → Memory
  | [] => m
  | b :: bs => Memory.writeRun (Memory.write m i b) (i + 1) bs

/-- The `n` bytes from `i` on, if every one holds a value. -/
def Memory.readRun (m : Memory) (i : Nat) : Nat → Option (List Byte)
  | 0 => some []
  | n + 1 =>
    match Memory.read m i, Memory.readRun m (i + 1) n with
    | some b, some bs => some (b :: bs)
    | _, _ => none

/-! ### Contexts, views, accumulators -/

/-- Context `c` where it is live (R22, R23). -/
def State.ctx (s : State) (c : Nat) : Option Context := Slots.get s.ctxs c

/-- Context `c` live with these fields (`S_VALID <- 1`). -/
def State.setCtx (s : State) (c : Nat) (x : Context) : State := { s with ctxs := Slots.set s.ctxs c x }

/-- Context `c` no longer live (`S_VALID <- 0`). -/
def State.dropCtx (s : State) (c : Nat) : State := { s with ctxs := Slots.erase s.ctxs c }

/-- View `v`, if there is one (R33). -/
def State.view (s : State) (v : Nat) : Option View := Slots.get s.views v

/-- View `v` is now `x`. -/
def State.setView (s : State) (v : Nat) (x : View) : State := { s with views := Slots.set s.views v x }

/-- An accumulator as created: EMPTY, length 0, no other field holding a value (R45, R160). -/
def Acc.fresh (n : Nat) : Acc where
  cap := n
  state := .empty
  hdr := none
  len := 0
  le := none
  buf := []

/-- Accumulator `a`; one not used since reset is EMPTY with its instance capacity (R45). -/
def State.acc (s : State) (a : Nat) : Acc := (Slots.get s.accs a).getD (Acc.fresh (Config.resetCapacity a))

/-- Accumulator `a` is now `x`. -/
def State.setAcc (s : State) (a : Nat) (x : Acc) : State := { s with accs := Slots.set s.accs a x }

/-! ### Receive buffers -/

/-- The bytes of receive buffer `b` (R52). -/
def State.buf (s : State) (b : Nat) : List Byte := (Slots.get s.bufs b).getD []

/-- `RecvRead(buf, i)` for i < n (R52). No caller reads at i ≥ n. -/
def recvRead (bs : List Byte) (i : Nat) : Byte := bs.getD i 0#8

/-- The run of a receive buffer a view's payload slice stands for, `buf[off .. off+len)` (R12), if all of it is there. -/
def recvSlice (bs : List Byte) (off len : Nat) : Option (List Byte) :=
  if off + len ≤ bs.length then some ((bs.drop off).take len) else none

/-- Receive buffer `b` holds `bs`; one without bytes is not listed. -/
def State.putBuf (s : State) (b : Nat) (bs : List Byte) : State :=
  { s with bufs := if bs = [] then Slots.erase s.bufs b else Slots.set s.bufs b bs }

/-- A view whose buffer `b` has changed under it (R65). -/
def View.spoil (b : Nat) (v : View) : View := if v.buf = b then { v with stale := true } else v

/-- The caller or the transport writes receive buffer `b` (R50). Where that changes its bytes, every view of it is stale
(R65, R217; log entry 15). -/
def State.fillBuf (s : State) (b : Nat) (bs : List Byte) : State :=
  if s.buf b = bs then s else { s.putBuf b bs with views := Slots.map (View.spoil b) s.views }

/-! ### Returning an outcome -/

/-- `return OUTCOME` and `raise E` (R13): the outcome goes to the caller, and that is all (R187). -/
def State.returns (s : State) (o : OpOutcome) : State := { s with outcome := some o }

/-! ### The writer port -/

/-- What writer `j` holds. -/
def State.writer (s : State) (j : Nat) : WriterState := (Slots.get s.writers j).getD {}

/-- Writer `j` now holds `w`; one at its default is not listed. -/
def State.setWriter (s : State) (j : Nat) (w : WriterState) : State :=
  { s with writers := if w = {} then Slots.erase s.writers j else Slots.set s.writers j w }

/-- A fresh writer with the declaration of `w` (R89): its number is none that has been used, so it holds nothing. -/
def State.freshWriter (s : State) (w : Writer) : Writer := ⟨Slots.fresh s.writers, w.answers⟩

/-- A writer during one operation: its number, the answers still to come, and what it holds. -/
structure Sink where
  id      : Nat
  answers : Answers
  st      : WriterState
deriving DecidableEq, Repr

/-- What `W.write` answers (R86). -/
inductive Reply where
  | ok  (k : Nat)
  | err (e : WErr)
deriving DecidableEq, Repr

/-- How many queries a writer has answered: numbers its free draws. -/
def WriterState.queries (w : WriterState) : Nat := w.asks + w.writes

/-- The sink after a `remaining` query, with `rest` the answers still to come. -/
def Sink.asked (w : Sink) (rest : Answers) : Sink :=
  { w with answers := rest, st := { w.st with asks := w.st.asks + 1 } }

/-- The sink after a `write` query that appended `bs` (R54). -/
def Sink.wrote (w : Sink) (rest : Answers) (bs : List Byte) : Sink :=
  { w with answers := rest, st := { w.st with stream := w.st.stream ++ bs, writes := w.st.writes + 1 } }

/-- `W.remaining()` (R86): the capacity and the sink after the query, or nothing where the answer is outside the contract. -/
def Sink.remaining (w : Sink) : Option (Nat × Sink) :=
  match w.answers with
  | .buf cap => some (cap - w.st.stream.length, w.asked w.answers)           -- R89
  | .fail _ => some (1000, w.asked w.answers)                                -- R89
  | .given (.remaining cap :: rest) => some (cap, w.asked (.given rest))
  | .given (_ :: _) => none
  | .given [] => some (Config.drawRemaining w.id w.st.queries, w.asked w.answers)

/-- `W.write(bs)` (R86): the reply and the sink after the query, or nothing where the answer is outside the contract. -/
def Sink.write (w : Sink) (bs : List Byte) : Option (Reply × Sink) :=
  match w.answers with
  | .buf cap =>                                                              -- R89
    let k := min bs.length (cap - w.st.stream.length)
    some (.ok k, w.wrote w.answers (bs.take k))
  | .fail j => some (.err 0, w.wrote w.answers (bs.take (min j bs.length)))  -- R89: E0
  | .given (.ok k :: rest) => if k ≤ bs.length then some (.ok k, w.wrote (.given rest) (bs.take k)) else none
  | .given (.err e j :: rest) => if j ≤ bs.length then some (.err e, w.wrote (.given rest) (bs.take j)) else none
  | .given (.remaining _ :: _) => none
  | .given [] =>
    let k := Config.drawCount w.id w.st.queries % (bs.length + 1)
    match Config.drawError w.id w.st.queries with
    | some e => some (.err e, w.wrote w.answers (bs.take k))
    | none => some (.ok k, w.wrote w.answers (bs.take k))

end Sys2Proof.Machine
end

