-- ==== Sys2Proof/Machine/Flags.lean ====
section
/-! DEFINITION. The flags and the codes: the chaining bit of a class byte (30_encoding.md rule R78), the flags of a view
(10_state.md rule R35), the reassembly state after a fold (42_accumulator.md rule R166), the class check on receive
(41_parser.md rule R146) and the numbers the spec gives the values of its fields and outcomes. -/

namespace Sys2Proof.Machine

/-- The chaining bit of a class byte (R78): `V_CHAINED` of a view (R33). -/
def chainBitOf (cla : Byte) : Bool := decide (cla &&& Config.chainBit ≠ 0#8)

/-- A class byte with the chaining bit set: `cla OR 0x10` (R30). -/
def withChainBit (cla : Byte) : Byte := cla ||| Config.chainBit

/-- A class byte with the chaining bit clear: `cla AND 0xEF` (R30, R161). -/
def withoutChainBit (cla : Byte) : Byte := cla &&& 0xEF#8

/-- A header with the chaining bit of its class clear: what ACC compares and seeds (R163, R168). -/
def unchained (h : Header) : Header := { h with cla := withoutChainBit h.cla }

/-- Whether PARSE rejects this class byte: 0xEF, under `REJECT_EF` (R146). -/
def rejectsClass (cla : Byte) : Bool :=
  decide (cla = Config.invalidCla) && decide (Config.parseClaCheck = .rejectEf)

/-- `A_STATE` after a view is folded in (R166). -/
def stateAfterFold (chained : Bool) : AState := if chained then .continuing else .complete

/-- The outcome of folding a view in (R166). -/
def outcomeAfterFold (chained : Bool) : OpOutcome := if chained then .continuing else .complete

/-- The number of a `MODE` (R22). -/
def Mode.code : Mode → Nat
  | .short => 0
  | .extended => 1
  | .chained => 2

/-- The number of a `RESUME_KIND` (R22). -/
def ResumeKind.code : ResumeKind → Nat
  | .midUnit => 0
  | .chainBoundary => 1

/-- The number of an `A_STATE` (R37). -/
def AState.code : AState → Nat
  | .empty => 0
  | .continuing => 1
  | .complete => 2
  | .failed => 3

/-- The code of a PARSE_ERROR reason (R180). -/
def reasonCode : ParseReason → Byte
  | .tooShort => 0x01#8
  | .badLengthMarker => 0x02#8
  | .lengthMismatch => 0x03#8
  | .mixedForms => 0x04#8
  | .invalidClass => 0x05#8

/-- The code of an outcome (R180). -/
def OpOutcome.code : OpOutcome → Byte
  | .ok => 0x00#8
  | .okView _ => 0x00#8
  | .okRead _ => 0x00#8
  | .done => 0x01#8
  | .pending _ => 0x02#8
  | .continuing => 0x03#8
  | .complete => 0x04#8
  | .invalidClass => 0x81#8
  | .writerError _ => 0x82#8
  | .parseError _ => 0x90#8
  | .headerMismatch => 0xA1#8
  | .capacityExceeded => 0xA2#8
  | .alreadyComplete => 0xA3#8

/-- The codes that are errors: 0x81 and above (R180). -/
def OpOutcome.isError (o : OpOutcome) : Bool := decide (0x81 ≤ o.code.toNat)

end Sys2Proof.Machine
end

