-- ==== Sys2Proof/Machine/Operands.lean ====
section
/-! DEFINITION. What the serializer computes of a context: the encoding mode (40_serializer.md rule R100), the derived
quantities of 10_state.md rules R28 to R31, and the unit's byte string (R103 to R105) and length (30_encoding.md rule R81). -/

namespace Sys2Proof.Machine

/-- `CHOOSE_MODE(L, le, ext)` (R100). -/
def chooseMode (len le : Nat) (ext : Bool) : Mode :=
  if ext = true ∧ (Config.shortLcMax < len ∨ Config.shortLeMax < le) then .extended
  else if Config.shortLcMax < len then .chained
  else .short

/-- `CMD_LEN` (R22). -/
def Context.cmdLen (c : Context) : Nat := c.data.length

/-- `CHUNK_LEN(ctx)` (R28). -/
def Context.chunkLen (c : Context) : Nat :=
  match c.mode with
  | .chained => min Config.chunkMax (c.cmdLen - c.chunkBase)
  | .short => c.cmdLen
  | .extended => c.cmdLen

/-- `FINAL(ctx)` (R28). -/
def Context.isFinal (c : Context) : Bool :=
  decide (c.mode ≠ .chained) || decide (c.cmdLen ≤ c.chunkBase + Config.chunkMax)

/-- `LE_EFF(ctx)` (R29). -/
def Context.leEff (c : Context) : Nat :=
  match c.mode with
  | .extended => c.le
  | .short => min c.le Config.shortLeMax
  | .chained => min c.le Config.shortLeMax

/-- `UNIT_CLA(ctx)` (R30). -/
def Context.unitCla (c : Context) : Byte :=
  if c.isFinal then withoutChainBit c.hdr.cla else withChainBit c.hdr.cla

/-- The header of the current unit (R102). -/
def Context.unitHeader (c : Context) : Header := { c.hdr with cla := c.unitCla }

/-- `PayloadRead(c, i)` for i from `off` to `off + len − 1` (R51). -/
def Context.payload (c : Context) (off len : Nat) : List Byte := (c.data.drop off).take len

/-- `UNIT_BYTES(c)`, mode SHORT (R103). -/
def Context.shortUnit (c : Context) : List Byte :=
  c.unitHeader.bytes
    ++ (if 0 < c.cmdLen then BitVec.ofNat 8 c.cmdLen :: c.payload 0 c.cmdLen else [])
    ++ (if 0 < c.leEff then [BitVec.ofNat 8 c.leEff] else [])

/-- `UNIT_BYTES(c)`, mode EXTENDED (R104). -/
def Context.extendedUnit (c : Context) : List Byte :=
  c.unitHeader.bytes
    ++ (if 0 < c.cmdLen then 0#8 :: (be16 c.cmdLen ++ c.payload 0 c.cmdLen) else [])
    ++ (if 0 < c.leEff then (if 0 < c.cmdLen then [] else [0#8]) ++ be16 (c.leEff % 65536) else [])

/-- `UNIT_BYTES(c)`, mode CHAINED (R105). -/
def Context.chainedUnit (c : Context) : List Byte :=
  c.unitHeader.bytes
    ++ BitVec.ofNat 8 c.chunkLen :: c.payload c.chunkBase c.chunkLen
    ++ (if c.isFinal = true ∧ 0 < c.leEff then [BitVec.ofNat 8 c.leEff] else [])

/-- `UNIT_BYTES(c)` (R103 to R105). -/
def Context.unitBytes (c : Context) : List Byte :=
  match c.mode with
  | .short => c.shortUnit
  | .extended => c.extendedUnit
  | .chained => c.chainedUnit

/-- `UNIT_LEN(ctx)` (R81). -/
def Context.unitLen (c : Context) : Nat :=
  match c.mode with
  | .short => 4 + (if 0 < c.chunkLen then 1 + c.chunkLen else 0) + (if 0 < c.leEff then 1 else 0)
  | .extended =>
    4 + (if 0 < c.chunkLen then 3 + c.chunkLen else 0)
      + (if 0 < c.leEff then (if 0 < c.chunkLen then 2 else 3) else 0)
  | .chained => 4 + 1 + c.chunkLen + (if c.isFinal = true ∧ 0 < c.leEff then 1 else 0)

/-- `HDRLC_LEN(ctx)` (R31). -/
def Context.hdrLcLen (c : Context) : Nat :=
  4 + (if c.chunkLen = 0 then 0 else if c.mode = .extended then 3 else 1)

/-- `EMITTED(ctx)` (R31): payload bytes emitted so far across all units. -/
def Context.emitted (c : Context) : Nat :=
  c.chunkBase + min c.chunkLen (c.unitOff - min c.unitOff c.hdrLcLen)

/-- A view of a unit of header `h` in receive buffer `b`: `VIEW(doff, dlen, le, ext)` (R140). -/
def mkView (h : Header) (b doff dlen le : Nat) (ext : Bool) : View where
  hdr := h
  doff := doff
  dlen := dlen
  le := le
  ext := ext
  chained := chainBitOf h.cla
  buf := b
  stale := false

end Sys2Proof.Machine
end

