-- ==== Sys2Proof/Machine/Accumulator.lean ====
section
/-! DEFINITION. The reassembly accumulator (42_accumulator.md). -/

namespace Sys2Proof.Machine

/-- ACC_NEW (R160). -/
def execAccNew (a n : Nat) (s : State) : Host.Outcome State Fault Refusal :=
  .next ((s.setAcc a (Acc.fresh n)).returns .ok)

/-- The accumulator discarded: FAILED, every other field as it was (R169, R186). -/
def Acc.discard (x : Acc) : Acc := { x with state := .failed }

/-- The accumulator with a view of header `h` (chaining bit clear) and payload `bs` folded in (R165 to R168). -/
def Acc.append (x : Acc) (h : Header) (v : View) (bs : List Byte) : Acc where
  cap := x.cap
  state := stateAfterFold v.chained
  hdr := if x.state = .empty then some h else x.hdr
  len := x.len + v.dlen
  le := some v.le
  buf := Memory.writeRun x.buf x.len bs

/-- The capacity check and the append (R164, R165), after the header check. -/
def foldPayload (a : Nat) (x : Acc) (v : View) (s : State) : Host.Outcome State Fault Refusal :=
  if x.cap < x.len + v.dlen then .next ((s.setAcc a x.discard).returns .capacityExceeded)  -- R164
  else match recvSlice (s.buf v.buf) v.doff v.dlen with
    | none => .refused .noValue
    | some bs => .next ((s.setAcc a (x.append (unchained v.hdr) v bs)).returns (outcomeAfterFold v.chained))

/-- The header check (R163) of an accumulator that is EMPTY or CONTINUING, and what follows it. -/
def foldView (a : Nat) (x : Acc) (v : View) (s : State) : Host.Outcome State Fault Refusal :=
  if x.state = .continuing then
    match x.hdr with
    | none => .refused .noValue
    | some h =>
      if unchained v.hdr ≠ h then .next ((s.setAcc a x.discard).returns .headerMismatch)   -- R163
      else foldPayload a x v s
  else foldPayload a x v s

/-- The view operand of ACC_EXTEND: there must be one, and its buffer unchanged since PARSE (R161; log entry 16). -/
def withView (v : Nat) (s : State) (k : View → Host.Outcome State Fault Refusal) : Host.Outcome State Fault Refusal :=
  match s.view v with
  | none => .refused .noValue
  | some x => if x.stale = true then .refused .staleInput else k x

/-- ACC_EXTEND (R161), its checks in the order of R185. -/
def execAccExtend (a v : Nat) (s : State) : Host.Outcome State Fault Refusal :=
  match (s.acc a).state with
  | .complete => .next (s.returns .alreadyComplete)   -- R162
  | .failed => .refused .accFailed                    -- R169
  | .empty => withView v s fun x => foldView a (s.acc a) x s
  | .continuing => withView v s fun x => foldView a (s.acc a) x s

/-- The fields of an accumulator that is CONTINUING or COMPLETE (R170). -/
def readFields (x : Acc) (s : State) : Host.Outcome State Fault Refusal :=
  match x.hdr, x.le, Memory.readRun x.buf 0 x.len with
  | some h, some le, some bs => .next (s.returns (.okRead (.fields x.state h bs le)))
  | _, _, _ => .refused .noValue

/-- ACC_READ (R170, R171). It changes no state. -/
def execAccRead (a : Nat) (s : State) : Host.Outcome State Fault Refusal :=
  match (s.acc a).state with
  | .failed => .refused .accFailed                    -- R169
  | .empty => .next (s.returns (.okRead .empty))      -- R171
  | .continuing => readFields (s.acc a) s
  | .complete => readFields (s.acc a) s

end Sys2Proof.Machine
end

