-- ==== Sys2Proof/Machine/Parser.lean ====
section
/-! DEFINITION. The parser (41_parser.md rule R140). -/

namespace Sys2Proof.Machine

/-- The length checks of PARSE for a unit with a short Lc `lc` ≠ 0 (R140). -/
def parseShort (b : Nat) (h : Header) (bs : List Byte) (lc : Nat) : Except ParseReason View :=
  let n := bs.length
  if n = 5 + lc then .ok (mkView h b 5 lc 0 false)                                     -- U_S_LC
  else if n = 6 + lc then .ok (mkView h b 5 lc (shortLe (recvRead bs (n - 1))) false)  -- U_S_LC_LE
  else if n = 7 + lc then .error .mixedForms                                           -- R145
  else .error .lengthMismatch                                                          -- R144

/-- The length checks of PARSE for a unit with the extended marker at byte 4 and n ≥ 7, `w` its bytes 5 and 6 (R140). -/
def parseExt (b : Nat) (h : Header) (bs : List Byte) (w : Nat) : Except ParseReason View :=
  let n := bs.length
  if n = 7 then .ok (mkView h b 4 0 (extLe w) true)                                    -- U_E_LE
  else if w = 0 then .error .badLengthMarker                                           -- R144
  else if n = 7 + w then .ok (mkView h b 7 w 0 true)                                   -- U_E_LC
  else if n = 9 + w then
    .ok (mkView h b 7 w (extLe (unbe16 (recvRead bs (n - 2)) (recvRead bs (n - 1)))) true)  -- U_E_LC_LE
  else if n = 8 + w then .error .mixedForms                                            -- R145
  else .error .lengthMismatch                                                          -- R144

/-- PARSE (R140) of the bytes `bs` of receive buffer `b`: a view, or the reason there is none. -/
def parseBytes (b : Nat) (bs : List Byte) : Except ParseReason View :=
  let n := bs.length
  let h : Header := ⟨recvRead bs 0, recvRead bs 1, recvRead bs 2, recvRead bs 3⟩
  let b4 := recvRead bs 4
  if n < 4 then .error .tooShort                                                       -- R143
  else if rejectsClass h.cla = true then .error .invalidClass                          -- R146
  else if n = 4 then .ok (mkView h b 4 0 0 false)                                      -- U_HDR
  else if n = 5 then .ok (mkView h b 4 0 (shortLe b4) false)                           -- U_S_LE
  else if b4 ≠ 0#8 then parseShort b h bs b4.toNat
  else if n = 6 then .error .badLengthMarker                                           -- R144
  else parseExt b h bs (unbe16 (recvRead bs 5) (recvRead bs 6))

/-- PARSE of receive buffer `b` into view `v` (R140). An error changes no state (R147). -/
def execParse (v b : Nat) (s : State) : Host.Outcome State Fault Refusal :=
  match parseBytes b (s.buf b) with
  | .ok x => .next ((s.setView v x).returns (.okView x))
  | .error r => .next (s.returns (.parseError r))

end Sys2Proof.Machine
end

