-- ==== Sys2Proof/Machine/Serializer.lean ====
section
/-! DEFINITION. The serializer and chaining engine (40_serializer.md): SER_STEP and the three operations over it. -/

namespace Sys2Proof.Machine

/-- How a pass through SER_STEP ends for its context (R110). -/
inductive SerEnd where
  | done                    -- the unit is complete and final (R113)
  | pending (c : Context)   -- the context stays live, with this resume point (R112, R115)
  | failed (e : WErr)       -- a write erred (R114)
deriving DecidableEq, Repr

/-- The context at the start of the next unit of its chain (R112). -/
def Context.nextUnit (c : Context) : Context :=
  { c with chunkBase := c.chunkBase + Config.chunkMax, unitOff := 0, resumeKind := .chainBoundary }

/-- Whether more units follow the current one: `MODE = CHAINED ∧ ¬FINAL` (R110). -/
def Context.goesOn (c : Context) : Bool := decide (c.mode = .chained) && !c.isFinal

/-- The context stopped inside its unit (R115). -/
def Context.stopped (c : Context) : Context := { c with resumeKind := .midUnit }

/-- The context after a write that accepted `k` bytes (R111). -/
def Context.advance (c : Context) (k : Nat) : Context := { c with unitOff := c.unitOff + k }

/-- What one write is offered where the writer has `cap` bytes left (R110). -/
def Context.offer (c : Context) (cap : Nat) : List Byte :=
  (c.unitBytes.drop c.unitOff).take (min cap (c.unitBytes.length - c.unitOff))

/-- The loop of SER_STEP (R110), in at most `fuel` passes. -/
def serLoop : Nat → Context → Sink → Host.Outcome (SerEnd × Sink) Fault Refusal
  | 0, _, _ => .fault .engineBound
  | fuel + 1, c, w =>
    if c.unitOff = c.unitBytes.length then
      match c.goesOn with
      | true => .next (.pending c.nextUnit, w)                                       -- R112
      | false => .next (.done, w)                                                    -- R113
    else match w.remaining with
      | none => .refused .writerContract
      | some (cap, w) =>
        if cap = 0 then .next (.pending c.stopped, w)                                -- R115
        else match w.write (c.offer cap) with
          | none => .refused .writerContract
          | some (.err e, w) => .next (.failed e, w)                                 -- R114
          | some (.ok k, w) =>
            if k = 0 then .next (.pending c.stopped, w)                              -- R115
            else serLoop fuel (c.advance k) w                                        -- R111

/-- The passes the loop of SER_STEP can take (R121): one for each byte still to be accepted, and one more. -/
def Context.passes (c : Context) : Nat := c.unitBytes.length - c.unitOff + 1

/-- `SER_STEP(c, W)` (R110) on context `n` holding `c`, and the outcome it returns. -/
def serStep (n : Nat) (c : Context) (w : Writer) (s : State) : Host.Outcome State Fault Refusal :=
  match serLoop c.passes c ⟨w.id, w.answers, s.writer w.id⟩ with
  | .next (.done, k) => .next (((s.setWriter w.id k.st).dropCtx n).returns .done)
  | .next (.pending c', k) => .next (((s.setWriter w.id k.st).setCtx n c').returns (.pending c'))
  | .next (.failed e, k) => .next (((s.setWriter w.id k.st).dropCtx n).returns (.writerError e))
  | .fault f => .fault f
  | .refused r => .refused r

/-- The context that SER_START makes of a command (R107, R109). Its `RESUME_KIND` is written before anything can see it
(R27). -/
def startContext (cmd : LogicalCommand) (ext : Bool) : Context where
  hdr := cmd.hdr
  data := cmd.data
  le := cmd.le
  mode := chooseMode cmd.data.length cmd.le ext
  chunkBase := 0
  unitOff := 0
  resumeKind := .midUnit

/-- SER_START (R107, R108, R109). -/
def execSerStart (c : Nat) (cmd : LogicalCommand) (ext : Bool) (w : Writer) (s : State) :
    Host.Outcome State Fault Refusal :=
  if cmd.inRange = false then .refused .operandRange
  else if cmd.hdr.cla = Config.invalidCla then .next (s.returns .invalidClass)
  else serStep c (startContext cmd ext) w s

/-- SER_RESUME (R116). The flag is not read (R117). -/
def execSerResume (c : Nat) (_ext : Bool) (w : Writer) (s : State) : Host.Outcome State Fault Refusal :=
  match s.ctx c with
  | none => .refused .resumeNotLive        -- R118
  | some x => serStep c x w s

/-- SER_CANCEL (R120). -/
def execSerCancel (c : Nat) (s : State) : Host.Outcome State Fault Refusal :=
  .next ((s.dropCtx c).returns .ok)

end Sys2Proof.Machine
end

