-- ==== Sys2Proof/Machine/Units.lean ====
section
/-! DEFINITION. The meanings of the seven unit forms (30_encoding.md rule R76) as the PARSER takes them: a received unit of
a form becomes a view (41_parser.md rules R140, R141). The transport has put the unit's bytes in the receive buffer
`rx.buf`, which the view borrows; the view goes to number `rx.view` (log entries 4 and 5). -/

namespace Sys2Proof.Machine

/-- A received unit becomes a view, unless its class byte is rejected (R146). -/
def receiveUnit (h : Header) (doff dlen le : Nat) (ext : Bool) (s : State) : Host.Outcome State Fault Refusal :=
  if rejectsClass h.cla = true then .next (s.returns (.parseError .invalidClass))
  else
    let x := mkView h s.rx.buf doff dlen le ext
    .next ((s.setView s.rx.view x).returns (.okView x))

/-- A received unit with a payload, whose length its Lc must be able to declare (R48, R72, R73; log entry 24). -/
def receivePayload (fits : Bool) (h : Header) (doff dlen le : Nat) (ext : Bool) (s : State) :
    Host.Outcome State Fault Refusal :=
  if fits = true then receiveUnit h doff dlen le ext s else .refused .operandRange

/-- U_HDR: no payload, no Le. -/
def execUHdr (h : Header) (s : State) : Host.Outcome State Fault Refusal := receiveUnit h 4 0 0 false s

/-- U_S_LE: no payload, short Le (R74). -/
def execUSLe (h : Header) (e : Byte) (s : State) : Host.Outcome State Fault Refusal :=
  receiveUnit h 4 0 (shortLe e) false s

/-- U_S_LC: short Lc (R72), no Le. -/
def execUSLc (h : Header) (d : List Byte) (s : State) : Host.Outcome State Fault Refusal :=
  receivePayload (shortPayload d) h 5 d.length 0 false s

/-- U_S_LC_LE: short Lc and short Le. -/
def execUSLcLe (h : Header) (d : List Byte) (e : Byte) (s : State) : Host.Outcome State Fault Refusal :=
  receivePayload (shortPayload d) h 5 d.length (shortLe e) false s

/-- U_E_LE: no payload, extended Le of three bytes (R75; 90_conflicts.md C2). -/
def execUELe (h : Header) (e : BitVec 16) (s : State) : Host.Outcome State Fault Refusal :=
  receiveUnit h 4 0 (extLe e.toNat) true s

/-- U_E_LC: extended Lc (R73), no Le. -/
def execUELc (h : Header) (d : List Byte) (s : State) : Host.Outcome State Fault Refusal :=
  receivePayload (extPayload d) h 7 d.length 0 true s

/-- U_E_LC_LE: extended Lc and extended Le. -/
def execUELcLe (h : Header) (d : List Byte) (e : BitVec 16) (s : State) : Host.Outcome State Fault Refusal :=
  receivePayload (extPayload d) h 7 d.length (extLe e.toNat) true s

end Sys2Proof.Machine
end

