-- ==== Sys2Proof/Machine/Dispatch.lean ====
section
/-! DEFINITION. One arm for each instruction: the seven operations of 30_encoding.md rule R85, then the seven unit forms of
rule R76. -/

namespace Sys2Proof.Machine

def exec (i : Instr) (s : State) : Host.Outcome State Fault Refusal :=
  match i with
  | .serStart c cmd ext w => Sys2Proof.Machine.execSerStart c cmd ext w s
  | .serResume c ext w => Sys2Proof.Machine.execSerResume c ext w s
  | .serCancel c => Sys2Proof.Machine.execSerCancel c s
  | .parse v b => Sys2Proof.Machine.execParse v b s
  | .accNew a n => Sys2Proof.Machine.execAccNew a n s
  | .accExtend a v => Sys2Proof.Machine.execAccExtend a v s
  | .accRead a => Sys2Proof.Machine.execAccRead a s
  | .uHdr h => Sys2Proof.Machine.execUHdr h s
  | .uSLe h e => Sys2Proof.Machine.execUSLe h e s
  | .uSLc h d => Sys2Proof.Machine.execUSLc h d s
  | .uSLcLe h d e => Sys2Proof.Machine.execUSLcLe h d e s
  | .uELe h e => Sys2Proof.Machine.execUELe h e s
  | .uELc h d => Sys2Proof.Machine.execUELc h d s
  | .uELcLe h d e => Sys2Proof.Machine.execUELcLe h d e s

end Sys2Proof.Machine
end

