-- ==== Sys2Proof/Machine/Inputs.lean ====
section
/-! DEFINITION. What the block does with one move of the caller or of the transport (00_scope.md rule R8, 60_exceptions.md
rule R193), and fetching an instruction's bytes from it (log entry 3). -/

namespace Sys2Proof.Machine

/-- The refusal of bytes that are no operation (R87; log entry 22). -/
def refuseBytes (e : DecodeError) : Refusal :=
  match e with
  | .badOp op => .badOp op
  | .badRecord => .badRecord
  | .notUnit _ => .badRecord

/-- The caller issues an operation: its record is decoded and run (R85). -/
def issue (bs : List Byte) (s : State) : Host.Outcome State Fault Refusal :=
  match decode .op bs with
  | .ok i => exec i s
  | .error e => .refused (refuseBytes e)

/-- The state in which the transport has put a unit's bytes in receive buffer `b`, for view `v`. -/
def State.arrive (s : State) (v b : Nat) (bs : List Byte) : State := { s.fillBuf b bs with rx := ⟨v, b⟩ }

/-- The transport delivers a unit: its form is decoded and run; bytes that are no unit are what PARSE makes of them (R83). -/
def deliver (v b : Nat) (bs : List Byte) (s : State) : Host.Outcome State Fault Refusal :=
  match decode .unit bs with
  | .ok i => exec i (s.arrive v b bs)
  | .error _ => exec (.parse v b) (s.arrive v b bs)

/-- The command a live context holds (R22, item (a)). -/
def Context.command (x : Context) : LogicalCommand := ⟨x.hdr, x.data, x.le⟩

/-- The caller writes the command of context `c`: no store of the block while the context is not live, and no meaning where
it changes the command of a live one (R64, R217; log entry 15). -/
def writeCommand (c : Nat) (cmd : LogicalCommand) (s : State) : Host.Outcome State Fault Refusal :=
  match s.ctx c with
  | none => .next s
  | some x => if x.command = cmd then .next s else .refused .staleInput

/-- The block after a reset (R210, R211): no context live, no view, every accumulator as at first. What is the caller's, the
transport's and the writers' stays (log entry 18). -/
def State.restart (s : State) : State := { s with ctxs := [], views := [], accs := [], outcome := none }

/-- One move of the caller or of the transport. -/
def accept (m : Input) (s : State) : Host.Outcome State Fault Refusal :=
  match m with
  | .op bs => issue bs s
  | .unit v b bs => deliver v b bs s
  | .fillBuf b bs => .next (s.fillBuf b bs)
  | .setCommand c cmd => writeCommand c cmd s
  | .reset => .next s.restart

/-- The move that brings an instruction's bytes to its port: a record to the operation port, a unit to the receive buffer
and the view that the receiver has selected. -/
def fetchMove (s : State) (nbits w : Nat) : Input :=
  match tablePort nbits with
  | .op => .op (tableBytes nbits w)
  | .unit => .unit s.rx.view s.rx.buf (tableBytes nbits w)

end Sys2Proof.Machine
end

