-- ==== Sys2Proof/Machine/Step.lean ====
section
/-! DEFINITION. One step of the machine: the next move of the caller or of the transport, if there is one (20_memory.md rule
R61: one at a time, in the order they are made). -/

namespace Sys2Proof.Machine

/-- One step. With no move pending the block waits (70_reset_and_hazards.md rule R212). -/
def step (s : State) : Host.Outcome State Fault Refusal :=
  match s.inputs with
  | [] => .next s
  | m :: rest => accept m { s with inputs := rest }

/-- The state in which the next step fetches and runs the instruction whose table bits are `w` (log entry 3). -/
def State.withFetchWord (s : State) (nbits w : Nat) : State := { s with inputs := fetchMove s nbits w :: s.inputs }

end Sys2Proof.Machine
end

