-- ==== Sys2Proof/Machine/Pseudo.lean ====
section
/-! DEFINITION. The pseudo-operations of 30_encoding.md rule R89 over the operations: SEND and FOLD, and whole sequences of
calls as claims speak of them. -/

namespace Sys2Proof.Machine

/-! ### Sending a command -/

/-- The bytes that a call appended to the stream of its writer. -/
def appendedBy (w : Writer) (s t : State) : List Byte :=
  (t.writer w.id).stream.drop (s.writer w.id).stream.length

/-- A call with writer `w` from `s`, then the calls after it: the state after the last, and all the bytes appended, in call
order. -/
def collect (w : Writer) (s : State) (call : Host.Outcome State Fault Refusal)
    (after : State → Host.Outcome (State × List Byte) Fault Refusal) : Host.Outcome (State × List Byte) Fault Refusal :=
  match call with
  | .next t =>
    match after t with
    | .next (t', bs) => .next (t', appendedBy w s t ++ bs)
    | .fault f => .fault f
    | .refused r => .refused r
  | .fault f => .fault f
  | .refused r => .refused r

/-- SER_RESUME with each writer of the list in turn, whatever the outcomes. Not SEND: a writer left over after DONE is a resume
of a context that is not live, which is refused (R118). -/
def resumeAll (c : Nat) (ext : Bool) : List Writer → State → Host.Outcome (State × List Byte) Fault Refusal
  | [], s => .next (s, [])
  | w :: ws, s => collect w s (exec (.serResume c ext w) s) (resumeAll c ext ws)

/-- SER_START, then SER_RESUME with each writer of the list in turn, whatever the outcomes: the sequences of calls that use
exactly the given writers. SEND is `send`. -/
def sendAll (c : Nat) (cmd : LogicalCommand) (ext : Bool) (w : Writer) (ws : List Writer) (s : State) :
    Host.Outcome (State × List Byte) Fault Refusal :=
  collect w s (exec (.serStart c cmd ext w) s) (resumeAll c ext ws)

/-- The SER_RESUMEs of SEND (R89), at most `n` of them: they go on while the last outcome is PENDING, with the writers of the
list and then, each time, with a fresh one declared as `last`. -/
def resumePending (c : Nat) (ext : Bool) (last : Writer) :
    Nat → List Writer → State → Host.Outcome (State × List Byte) Fault Refusal
  | 0, _, s => .next (s, [])
  | n + 1, ws, s =>
    match s.outcome with
    | some (.pending _) =>
      let w := ws.headD (s.freshWriter last)
      collect w s (exec (.serResume c ext w) s) (resumePending c ext last n ws.tail)
    | _ => .next (s, [])

/-- `SEND c, cmd, ext, w, ws` (R89), cut off after `n` SER_RESUMEs if the outcome is PENDING still: with writers that accept
nothing SEND has no end (70_reset_and_hazards.md rule R221; log entry 25). The writers that follow the list are declared as its last entry. -/
def send (n c : Nat) (cmd : LogicalCommand) (ext : Bool) (w : Writer) (ws : List Writer) (s : State) :
    Host.Outcome (State × List Byte) Fault Refusal :=
  collect w s (exec (.serStart c cmd ext w) s) (resumePending c ext (ws.getLastD w) n ws)

/-! ### Folding a chain -/

/-- ACC_EXTEND of view `v`, where the PARSE before it gave one. -/
def extendIfParsed (a v : Nat) (s : State) : Host.Outcome State Fault Refusal :=
  match s.outcome with
  | some (.okView _) => exec (.accExtend a v) s
  | _ => .next s

/-- `FOLD` of one unit (R89): its bytes come into receive buffer `b`, PARSE makes view `v`, ACC_EXTEND folds it in. -/
def foldUnit (a v b : Nat) (u : List Byte) (s : State) : Host.Outcome State Fault Refusal :=
  match exec (.parse v b) (s.fillBuf b u) with
  | .next t => extendIfParsed a v t
  | .fault f => .fault f
  | .refused r => .refused r

/-- The units of a chain folded in, one after the other. -/
def foldUnits (a v b : Nat) : List (List Byte) → State → Host.Outcome State Fault Refusal
  | [], s => .next s
  | u :: us, s =>
    match foldUnit a v b u s with
    | .next t => foldUnits a v b us t
    | .fault f => .fault f
    | .refused r => .refused r

end Sys2Proof.Machine
end

