-- ==== Sys2Proof/Safety.lean ====
section
/-! DEFINITION. The terms that claims use: which states are legal (10_state.md), the units of a command
(40_serializer.md rule R101), which writers keep their contract (30_encoding.md rule R86), which operations run SER_STEP
(40_serializer.md rules R107, R116), and what filling a receive buffer leaves. -/

namespace Sys2Proof.Machine

/-! ### Legal states -/

/-- What the spec says of every live context: the command's ranges and class (R20, R22), the mode its command was given
(R100), the chunk base (R25), the unit offset inside the unit (R26, R110), and the resume kind (R27). -/
structure Context.Legal (c : Context) : Prop where
  cla       : c.hdr.cla ≠ Config.invalidCla
  len       : c.cmdLen ≤ 65535
  le        : c.le ≤ 65536
  short     : c.mode = .short → c.cmdLen ≤ 255
  extended  : c.mode = .extended → 255 < c.cmdLen ∨ 256 < c.le
  chained   : c.mode = .chained → 255 < c.cmdLen
  oneUnit   : c.mode ≠ .chained → c.chunkBase = 0
  inChain   : c.mode = .chained → c.chunkBase % 255 = 0 ∧ c.chunkBase < c.cmdLen
  inUnit    : c.unitOff < c.unitBytes.length
  boundary  : c.resumeKind = .chainBoundary → c.mode = .chained ∧ c.unitOff = 0 ∧ 255 ≤ c.chunkBase

/-- What the spec says of every view (R33, R141): where its payload stands, how long it is, and its flags. -/
structure View.Legal (v : View) : Prop where
  slice : (v.doff = 4 ∧ v.dlen = 0) ∨ (v.doff = 5 ∧ 1 ≤ v.dlen ∧ v.dlen ≤ 255 ∧ v.ext = false)
            ∨ (v.doff = 7 ∧ 1 ≤ v.dlen ∧ v.dlen ≤ 65535 ∧ v.ext = true)
  le    : v.le ≤ 65536
  flag  : v.chained = chainBitOf v.hdr.cla

/-- What the spec says of every accumulator (R37 to R41, R46): never over its capacity, the buffer in canonical form and
holding a value exactly below `A_LEN`, the header fields present once a view is folded in, their chaining bit clear. -/
structure Acc.Legal (x : Acc) : Prop where
  cap     : x.len ≤ x.cap
  bufWf   : Memory.wf x.buf = true
  holds   : ∀ i, (Memory.read x.buf i).isSome = true ↔ i < x.len
  empty   : x.state = .empty → x.len = 0 ∧ x.hdr = none ∧ x.le = none
  seeded  : x.state = .continuing ∨ x.state = .complete → x.hdr.isSome = true ∧ x.le.isSome = true
  cla     : ∀ h, x.hdr = some h → chainBitOf h.cla = false
  le      : ∀ n, x.le = some n → n ≤ 65536

/-- The legal states: every store in its canonical form, everything in them legal, and every view that is not stale is what
PARSE makes of its buffer (R34, R65). -/
structure State.Inv (s : State) : Prop where
  ctxsSorted    : Slots.sorted s.ctxs = true
  viewsSorted   : Slots.sorted s.views = true
  accsSorted    : Slots.sorted s.accs = true
  bufsSorted    : Slots.sorted s.bufs = true
  writersSorted : Slots.sorted s.writers = true
  bufsListed    : ∀ b, Slots.get s.bufs b ≠ some []
  writersListed : ∀ j, Slots.get s.writers j ≠ some {}
  ctxs          : ∀ c x, s.ctx c = some x → x.Legal
  views         : ∀ v x, s.view v = some x → x.Legal
  fresh         : ∀ v x, s.view v = some x → x.stale = false → parseBytes x.buf (s.buf x.buf) = .ok x
  accs          : ∀ a, (s.acc a).Legal

/-! ### The units of a command -/

/-- The context of unit `i` of a command at its first byte (R101, R122). -/
def unitContext (cmd : LogicalCommand) (ext : Bool) (i : Nat) : Context :=
  { startContext cmd ext with chunkBase := Config.chunkMax * i }

/-- `K`, the number of units of a command (R101). -/
def unitCount (cmd : LogicalCommand) (ext : Bool) : Nat :=
  match chooseMode cmd.data.length cmd.le ext with
  | .chained => (cmd.data.length + 254) / 255
  | .short => 1
  | .extended => 1

/-- The units of a command in the order of the chain (R122). -/
def unitsOf (cmd : LogicalCommand) (ext : Bool) : List (List Byte) :=
  (List.range (unitCount cmd ext)).map fun i => (unitContext cmd ext i).unitBytes

/-- The calls that sending a command takes with a fresh `buf(cap)` for every call (R123): for each unit, its length over
`cap`, rounded up. -/
def callsNeeded (cmd : LogicalCommand) (ext : Bool) (cap : Nat) : Nat :=
  ((unitsOf cmd ext).map fun u => (u.length + cap - 1) / cap).sum

/-- The form of the unit that a context stands for (R103 to R106). -/
def Context.unitForm (c : Context) : Instr :=
  match c.mode with
  | .short =>
    if c.cmdLen = 0 then
      if c.leEff = 0 then .uHdr c.unitHeader else .uSLe c.unitHeader (BitVec.ofNat 8 c.leEff)
    else if c.leEff = 0 then .uSLc c.unitHeader c.data
    else .uSLcLe c.unitHeader c.data (BitVec.ofNat 8 c.leEff)
  | .extended =>
    if c.cmdLen = 0 then .uELe c.unitHeader (BitVec.ofNat 16 c.leEff)
    else if c.leEff = 0 then .uELc c.unitHeader c.data
    else .uELcLe c.unitHeader c.data (BitVec.ofNat 16 c.leEff)
  | .chained =>
    if c.isFinal = true ∧ 0 < c.leEff then
      .uSLcLe c.unitHeader (c.payload c.chunkBase c.chunkLen) (BitVec.ofNat 8 c.leEff)
    else .uSLc c.unitHeader (c.payload c.chunkBase c.chunkLen)

/-- The view that PARSE should make of the unit of a context, held in receive buffer `b` (R149). -/
def Context.unitView (c : Context) (b : Nat) : View where
  hdr := c.unitHeader
  doff := if c.chunkLen = 0 then 4 else if c.mode = .extended then 7 else 5
  dlen := c.chunkLen
  le := if c.isFinal then c.leEff else 0
  ext := decide (c.mode = .extended)
  chained := !c.isFinal
  buf := b
  stale := false

/-! ### Writers within their contract -/

/-- Whether listed answers are within the contract of R86, given in the order of SER_STEP's queries (R110) where `left` bytes of
the unit are still to come. What the list holds after the call's last query is not asked for; past its end, free draws answer. -/
def conformList : Nat → List Answer → Bool
  | _, [] => true
  | left, .remaining cap :: as =>
    decide (cap = 0) || match as with
      | [] => true
      | .ok k :: rest => decide (k ≤ min cap left) && (decide (k = 0) || decide (k = left) || conformList (left - k) rest)
      | .err _ j :: _ => decide (j ≤ min cap left)
      | .remaining _ :: _ => false
  | _, .ok _ :: _ => false
  | _, .err _ _ :: _ => false

/-- Whether a writer's answers are within the contract of R86 where `left` bytes of the unit are still to come: the reference
writers of R89 and free draws always are. -/
def conform (left : Nat) : Answers → Bool
  | .buf _ => true
  | .fail _ => true
  | .given as => conformList left as

/-! ### Operations that run SER_STEP -/

/-- The operation `i` runs SER_STEP in state `s`, on context `c` holding `x`, with writer `w` (R107, R116): a SER_START of a
command in range whose class is not 0xEF, or a SER_RESUME of a live context that is legal. -/
inductive RunsSerStep (s : State) (c : Nat) (w : Writer) : Context → Instr → Prop where
  | start (cmd : LogicalCommand) (ext : Bool) : cmd.inRange = true → cmd.hdr.cla ≠ 0xEF#8 →
      RunsSerStep s c w (startContext cmd ext) (.serStart c cmd ext w)
  | resume (x : Context) (ext : Bool) : s.ctx c = some x → x.Legal → RunsSerStep s c w x (.serResume c ext w)

/-! ### Filling a receive buffer -/

/-- The state `t` is `s` with `rest` the moves still to come and receive buffer `b` holding `bs`: every view of `b` is stale if
that changed its bytes and as it was if not (R65; log entry 15), every other view and buffer is as it was, no view has
appeared, and everything else but the receiver's selection is as it was. -/
structure State.FilledTo (s : State) (b : Nat) (bs : List Byte) (rest : List Input) (t : State) : Prop where
  inputs  : t.inputs = rest
  buf     : t.buf b = bs
  bufs    : ∀ k, k ≠ b → t.buf k = s.buf k
  noView  : ∀ k, s.view k = none → t.view k = none
  others  : ∀ k x, s.view k = some x → x.buf ≠ b → t.view k = some x
  same    : ∀ k x, s.view k = some x → x.buf = b → s.buf b = bs → t.view k = some x
  changed : ∀ k x, s.view k = some x → x.buf = b → s.buf b ≠ bs → t.view k = some { x with stale := true }
  ctxs    : t.ctxs = s.ctxs
  accs    : t.accs = s.accs
  writers : t.writers = s.writers
  outcome : t.outcome = s.outcome

end Sys2Proof.Machine
end

