-- ==== Sys2Proof/Certificates/Slice0/Obligations.lean ====
section
/-! DEFINITION. The statements for the provers. Each docstring says which rule or section of the spec it formalises, and
names the log entry where a clause rests on a choice of the model. -/

open Sys2Proof Sys2Proof.Machine

/-! ### Encoding -/

/-- Decode and encode agree on every well-formed instruction: the seven unit forms (30_encoding.md sections 2 and 3) and the
seven operation records (section 5; the layout of their operands is the model's, log entry 1). -/
def Obligations.DecodeOfEncodeGivesInstruction : Prop :=
  ∀ i : Instr, i.wf = true → decode i.port (encode i) = .ok i

/-- A unit's bytes have one reading, and it is well formed: bytes that decode to a form are that form's encoding
(30_encoding.md section 3: the decoding is unique). -/
def Obligations.UnitBytesHaveOneReading : Prop :=
  ∀ (bs : List Byte) (i : Instr), decode .unit bs = .ok i → i.port = .unit ∧ i.wf = true ∧ encode i = bs

/-- An operation record has one reading: bytes that decode to an operation are that operation's encoding (the layout is the
model's, log entry 1). -/
def Obligations.RecordBytesHaveOneReading : Prop :=
  ∀ (bs : List Byte) (i : Instr), decode .op bs = .ok i → i.port = .op ∧ encode i = bs

/-- Words written out from the table decode to their rows: the seven operation codes with zero operands, U_HDR, U_S_LE and
U_E_LE (sanity). -/
def Obligations.TableWordsDecodeToTheirRows : Prop :=
  decodeTableWord 8 0x01 = some (.serStart 0 ⟨⟨0#8, 0#8, 0#8, 0#8⟩, [], 0⟩ false ⟨0, .buf 0⟩) ∧
  decodeTableWord 8 0x02 = some (.serResume 0 false ⟨0, .buf 0⟩) ∧
  decodeTableWord 8 0x03 = some (.serCancel 0) ∧
  decodeTableWord 8 0x10 = some (.parse 0 0) ∧
  decodeTableWord 8 0x20 = some (.accNew 0 0) ∧
  decodeTableWord 8 0x21 = some (.accExtend 0 0) ∧
  decodeTableWord 8 0x22 = some (.accRead 0) ∧
  decodeTableWord 32 0x0004A400 = some (.uHdr ⟨0x00#8, 0xA4#8, 0x04#8, 0x00#8⟩) ∧
  decodeTableWord 40 0x100000B000 = some (.uSLe ⟨0x00#8, 0xB0#8, 0x00#8, 0x00#8⟩ 0x10#8) ∧
  decodeTableWord 56 0x2C01000000B000 = some (.uELe ⟨0x00#8, 0xB0#8, 0x00#8, 0x00#8⟩ 0x012C#16)

/-- The bytes of the unit that a legal context stands for are the encoding of one of the forms of 30_encoding.md section 3,
and that form is well formed (40_serializer.md section 1). -/
def Obligations.UnitBytesAreATableForm : Prop :=
  ∀ c : Context, c.Legal → c.unitForm.wf = true ∧ c.unitForm.port = .unit ∧ c.unitBytes = encode c.unitForm

/-- The length formula of 30_encoding.md section 3 is the length of the unit's bytes, between 4 and 65544. -/
def Obligations.UnitLengthFormulaHolds : Prop :=
  ∀ c : Context, c.Legal → c.unitBytes.length = c.unitLen ∧ 4 ≤ c.unitLen ∧ c.unitLen ≤ 65544

/-! ### The step -/

/-- A step runs the operation that the next record decodes to, in the state with that record taken (log entry 3). -/
def Obligations.StepRunsDecodedOperation : Prop :=
  ∀ (s : State) (bs : List Byte) (rest : List Input) (i : Instr),
    s.inputs = .op bs :: rest → decode .op bs = .ok i → step s = exec i { s with inputs := rest }

/-- A step runs the unit form that the next received unit decodes to, in the state with that unit taken, its bytes in its
receive buffer and its view selected; every view of the buffer is stale if its bytes changed and as it was if not, no view has
appeared, and nothing else of that state differs (log entries 3 to 5; how the model knows that bytes changed, log entry 15). -/
def Obligations.StepRunsDecodedUnit : Prop :=
  ∀ (s : State) (v b : Nat) (bs : List Byte) (rest : List Input) (i : Instr),
    s.inputs = .unit v b bs :: rest → decode .unit bs = .ok i →
    ∃ t : State, s.FilledTo b bs rest t ∧ t.rx = ⟨v, b⟩ ∧ step s = exec i t

/-- With nothing issued and nothing delivered the block waits and nothing changes (70_reset_and_hazards.md section 1; that
waiting is a step without effect is the model's, log entry 3). -/
def Obligations.StepWaitsWithoutInput : Prop :=
  ∀ s : State, s.inputs = [] → step s = .next s

/-- A record whose first byte is none of the seven operation codes is refused with BAD_OP (30_encoding.md section 5; the
refusal is the spec's own decision D4). -/
def Obligations.UnknownOperationCodeRefused : Prop :=
  ∀ (s : State) (op : Byte) (bs : List Byte) (rest : List Input),
    op ∉ [0x01#8, 0x02#8, 0x03#8, 0x10#8, 0x20#8, 0x21#8, 0x22#8] → s.inputs = .op (op :: bs) :: rest →
    step s = .refused (.badOp op)

/-- No step ends in a fault: SER_STEP always returns (40_serializer.md section 5), and every error is an outcome
(60_exceptions.md section 4). -/
def Obligations.NoStepFaults : Prop :=
  ∀ (s : State) (f : Fault), step s ≠ .fault f

/-! ### The serializer -/

/-- R108: SER_START of a command of class 0xEF returns INVALID_CLASS, for every other operand, with nothing else changed: no
query of the writer, no byte written, the context as it was. The command is in range, as every LogicalCommand is. -/
def Obligations.InvalidClassRejectedBeforeOutput : Prop :=
  ∀ (c : Nat) (cmd : LogicalCommand) (ext : Bool) (w : Writer) (s : State),
    cmd.inRange = true → cmd.hdr.cla = 0xEF#8 →
    exec (.serStart c cmd ext w) s = .next { s with outcome := some .invalidClass }

/-- SER_START of a command with more than 65535 payload bytes or an expected length over 65536 is refused with OPERAND_RANGE
(60_exceptions.md section 2, the spec's own decision D5). -/
def Obligations.CommandOutOfRangeRefused : Prop :=
  ∀ (c : Nat) (cmd : LogicalCommand) (ext : Bool) (w : Writer) (s : State),
    65535 < cmd.data.length ∨ 65536 < cmd.le → exec (.serStart c cmd ext w) s = .refused .operandRange

/-- SER_START with a `buf` writer that has room for the first unit: it completes, the whole unit is appended with one query
of each kind, and it returns PENDING at the start of the second unit if the mode is CHAINED, DONE with no live context if it
is not. Nothing else changes (40_serializer.md sections 1 and 2; one query of each kind rests on the spec's decision D10). -/
def Obligations.SerStartWritesItsFirstUnit : Prop :=
  ∀ (c : Nat) (cmd : LogicalCommand) (ext : Bool) (j cap : Nat) (s : State),
    cmd.inRange = true → cmd.hdr.cla ≠ 0xEF#8 →
    (s.writer j).stream.length + (startContext cmd ext).unitBytes.length ≤ cap →
    exec (.serStart c cmd ext ⟨j, .buf cap⟩) s = .next
      (let x := startContext cmd ext
       let s' := s.setWriter j ⟨(s.writer j).stream ++ x.unitBytes, (s.writer j).asks + 1, (s.writer j).writes + 1⟩
       if chooseMode cmd.data.length cmd.le ext = .chained then
         let y : Context := { x with chunkBase := 255, resumeKind := .chainBoundary }
         { s'.setCtx c y with outcome := some (.pending y) }
       else { s'.dropCtx c with outcome := some .done })

/-- SER_RESUME of a live context with a `buf` writer that has room for the rest of its unit: it completes, appends exactly
the rest, and returns PENDING at the start of the next unit if the chain goes on, DONE with no live context if the unit is
final. Nothing else changes (40_serializer.md sections 2 and 3; one query of each kind rests on the spec's decision D10). -/
def Obligations.SerResumeFinishesItsUnit : Prop :=
  ∀ (c : Nat) (x : Context) (ext : Bool) (j cap : Nat) (s : State),
    s.ctx c = some x → x.Legal →
    (s.writer j).stream.length + (x.unitBytes.length - x.unitOff) ≤ cap →
    exec (.serResume c ext ⟨j, .buf cap⟩) s = .next
      (let s' := s.setWriter j
         ⟨(s.writer j).stream ++ x.unitBytes.drop x.unitOff, (s.writer j).asks + 1, (s.writer j).writes + 1⟩
       if x.isFinal then { s'.dropCtx c with outcome := some .done }
       else
         let y : Context := { x with chunkBase := x.chunkBase + 255, unitOff := 0, resumeKind := .chainBoundary }
         { s'.setCtx c y with outcome := some (.pending y) })

/-- A SER_START or SER_RESUME that runs SER_STEP with a writer whose `remaining` is 0, a `buf` writer that is full or one that
answers so, completes: PENDING with MID_UNIT, and nothing moves (40_serializer.md sections 1 to 3). That it asks `remaining`
once and `write` never rests on the spec's decision D10 and on the model's own counts of queries (log entries 11 and 20). -/
def Obligations.SerResumeWithoutCapacityStops : Prop :=
  ∀ (c : Nat) (x : Context) (j : Nat) (as : Answers) (i : Instr) (s : State),
    RunsSerStep s c ⟨j, as⟩ x i →
    (∃ rest, as = .given (.remaining 0 :: rest)) ∨ (∃ cap, as = .buf cap ∧ cap ≤ (s.writer j).stream.length) →
    exec i s = .next
      (let y : Context := { x with resumeKind := .midUnit }
       { (s.setWriter j { s.writer j with asks := (s.writer j).asks + 1 }).setCtx c y with
           outcome := some (.pending y) })

/-- SER_RESUME of a context that is not live is refused with RESUME_NOT_LIVE (40_serializer.md section 3, the spec's own
decision D12). -/
def Obligations.ResumeOfDeadContextRefused : Prop :=
  ∀ (c : Nat) (ext : Bool) (w : Writer) (s : State),
    s.ctx c = none → exec (.serResume c ext w) s = .refused .resumeNotLive

/-- R117: SER_RESUME ignores its `ext` operand, and what it leaves live keeps the command and the mode that SER_START fixed. -/
def Obligations.ResumeIgnoresItsFlag : Prop :=
  ∀ (c : Nat) (x : Context) (ext : Bool) (w : Writer) (s t : State),
    s.ctx c = some x → exec (.serResume c ext w) s = .next t →
    (∀ ext' : Bool, exec (.serResume c ext' w) s = .next t) ∧
    (∀ y, t.ctx c = some y → y.mode = x.mode ∧ y.hdr = x.hdr ∧ y.data = x.data ∧ y.le = x.le)

/-- Whatever the writer answers, a SER_START or SER_RESUME that runs SER_STEP appends the next `k` bytes of its unit and no
other byte, and its outcome says how far the unit is: DONE where it is complete and final, PENDING at the next unit where it is
complete and not final, PENDING inside it where bytes are still to come, WRITER_ERROR with no live context (40_serializer.md
sections 1 and 2: at most one unit a call, no byte skipped or offered twice). -/
def Obligations.SerResumeAccountsForItsBytes : Prop :=
  ∀ (c : Nat) (x : Context) (w : Writer) (i : Instr) (s t : State),
    RunsSerStep s c w x i → exec i s = .next t →
    ∃ k, x.unitOff + k ≤ x.unitBytes.length ∧
      (t.writer w.id).stream = (s.writer w.id).stream ++ (x.unitBytes.drop x.unitOff).take k ∧
      ((t.outcome = some .done ∧ t.ctx c = none ∧ x.isFinal = true ∧ x.unitOff + k = x.unitBytes.length) ∨
       (∃ y, t.outcome = some (.pending y) ∧ t.ctx c = some y ∧ x.isFinal = false ∧
          x.unitOff + k = x.unitBytes.length ∧
          y = { x with chunkBase := x.chunkBase + 255, unitOff := 0, resumeKind := .chainBoundary }) ∨
       (∃ y, t.outcome = some (.pending y) ∧ t.ctx c = some y ∧ x.unitOff + k < x.unitBytes.length ∧
          y = { x with unitOff := x.unitOff + k, resumeKind := .midUnit }) ∨
       (∃ e, t.outcome = some (.writerError e) ∧ t.ctx c = none))

/-- A SER_START or SER_RESUME that runs SER_STEP queries its writer at most once for each byte of the unit still to come, and
once more, with each kind of query (40_serializer.md section 5). A claim that counts queries: it rests on the spec's decision
D10, which errs toward provable, and on the model's own counts of queries (log entries 11 and 20). -/
def Obligations.WriterQueriesAreBounded : Prop :=
  ∀ (c : Nat) (x : Context) (w : Writer) (i : Instr) (s t : State),
    RunsSerStep s c w x i → exec i s = .next t →
    (t.writer w.id).asks ≤ (s.writer w.id).asks + (x.unitBytes.length - x.unitOff + 1) ∧
    (t.writer w.id).writes ≤ (s.writer w.id).writes + (x.unitBytes.length - x.unitOff + 1)

/-- SER_START of a command in range, and SER_RESUME of a live context, complete with every writer within its contract: the
reference writers, a writer whose answers are all free draws, and one whose listed answers are each within the contract
(40_serializer.md section 5; 30_encoding.md sections 5 and 6; that a writer's answers come with the operation, log entry 10;
the order of the queries that the listed answers meet is the spec's decision D10, log entry 20). -/
def Obligations.SerCompletesWithEveryConformingWriter : Prop :=
  ∀ (c : Nat) (cmd : LogicalCommand) (ext : Bool) (w : Writer) (s : State),
    (cmd.inRange = true → conform (startContext cmd ext).unitBytes.length w.answers = true →
      ∃ t, exec (.serStart c cmd ext w) s = .next t) ∧
    (∀ x, s.ctx c = some x → conform (x.unitBytes.length - x.unitOff) w.answers = true →
      ∃ t, exec (.serResume c ext w) s = .next t)

/-- When a write of SER_START or SER_RESUME errs, be it the first or one after writes that took `taken` bytes each, it returns
WRITER_ERROR with the writer's own error, the context is not live, and the stream grows by what those writes took and by the
prefix that the failing write appended, and by nothing more (40_serializer.md section 2). That each write follows one
`remaining` and is offered no more than that answered, and how many queries are counted, rests on the spec's decision D10 and
on the model's own counts of queries (log entries 11 and 20); that a writer's answers come with the operation, log entry 10. -/
def Obligations.WriterErrorAbandonsTheCommand : Prop :=
  ∀ (c : Nat) (x : Context) (j cap k : Nat) (e : WErr) (taken : List (Nat × Nat)) (rest : List Answer) (i : Instr)
    (s : State),
    RunsSerStep s c ⟨j, .given (taken.flatMap (fun p => [.remaining p.1, .ok p.2]) ++ .remaining cap :: .err e k :: rest)⟩
      x i →
    (∀ p ∈ taken, 0 < p.2 ∧ p.2 ≤ p.1) → 0 < cap → k ≤ cap →
    let before := x.unitOff + (taken.map Prod.snd).sum
    before < x.unitBytes.length → before + k ≤ x.unitBytes.length →
    exec i s = .next
      { (s.setWriter j
            ⟨(s.writer j).stream ++ (x.unitBytes.drop x.unitOff).take ((taken.map Prod.snd).sum + k),
             (s.writer j).asks + (taken.length + 1), (s.writer j).writes + (taken.length + 1)⟩).dropCtx c
        with outcome := some (.writerError e) }

/-- A SER_START or SER_RESUME that runs SER_STEP is refused with WRITER_CONTRACT where some listed answer that it meets is
outside the contract: it is an answer to the other query, or an Ok or an Err that says that more was taken than was offered
(60_exceptions.md section 2, the spec's own decision). That a write is offered the smaller of what `remaining` answered and the
rest of the unit, and the order of the queries, rest on the spec's decision D10 (log entry 20); that the whole operation is
refused, log entry 17; that a writer's answers come with the operation, log entry 10. -/
def Obligations.AnswerOutsideContractRefused : Prop :=
  ∀ (c : Nat) (x : Context) (w : Writer) (i : Instr) (s : State),
    RunsSerStep s c w x i → conform (x.unitBytes.length - x.unitOff) w.answers = false →
    exec i s = .refused .writerContract

/-- SER_START and SER_RESUME change only the context and the writer they name, and the outcome returned (00_scope.md section
5: an operation reads and writes only what it is given). -/
def Obligations.SerTouchesOnlyWhatItNames : Prop :=
  ∀ (c : Nat) (cmd : LogicalCommand) (ext : Bool) (w : Writer) (s t : State),
    exec (.serStart c cmd ext w) s = .next t ∨ exec (.serResume c ext w) s = .next t →
    t.views = s.views ∧ t.accs = s.accs ∧ t.bufs = s.bufs ∧ t.inputs = s.inputs ∧ t.rx = s.rx ∧
    (∀ d, d ≠ c → t.ctx d = s.ctx d) ∧ (∀ j, j ≠ w.id → t.writer j = s.writer j)

/-- SER_CANCEL completes in every state and returns OK; the context is no longer live, every other context and everything
else is as it was (40_serializer.md section 4). -/
def Obligations.CancelAbandonsItsContext : Prop :=
  ∀ (c : Nat) (s : State), ∃ t : State, exec (.serCancel c) s = .next t ∧ t.outcome = some .ok ∧ t.ctx c = none ∧
    (∀ d, d ≠ c → t.ctx d = s.ctx d) ∧ t.views = s.views ∧ t.accs = s.accs ∧ t.bufs = s.bufs ∧
    t.writers = s.writers ∧ t.inputs = s.inputs ∧ t.rx = s.rx

/-- The stream law (40_serializer.md section 5): a command sent by SER_START and any SER_RESUMEs, each with the writer given for
it, whatever the writers and their answers, has put out exactly its units, in order, when the outcome is DONE. -/
def Obligations.BytesSentAreTheUnitsInOrder : Prop :=
  ∀ (c : Nat) (cmd : LogicalCommand) (ext : Bool) (w : Writer) (ws : List Writer) (s t : State) (bs : List Byte),
    cmd.hdr.cla ≠ 0xEF#8 → sendAll c cmd ext w ws s = .next (t, bs) → t.outcome = some .done →
    bs = (unitsOf cmd ext).flatten

/-- With a fresh `buf(cap)` for every call, the command is sent in exactly as many calls as its units' lengths over `cap`,
rounded up, add up to (40_serializer.md section 5; the count rests on the spec's decision D10). -/
def Obligations.CommandIsSentInTheCountedCalls : Prop :=
  ∀ (c : Nat) (cmd : LogicalCommand) (ext : Bool) (cap : Nat) (w : Writer) (ws : List Writer) (s : State),
    cmd.inRange = true → cmd.hdr.cla ≠ 0xEF#8 → 0 < cap →
    (∀ x ∈ w :: ws, x.answers = .buf cap ∧ (s.writer x.id).stream = []) → ((w :: ws).map Writer.id).Nodup →
    (w :: ws).length = callsNeeded cmd ext cap →
    ∃ t, sendAll c cmd ext w ws s = .next (t, (unitsOf cmd ext).flatten) ∧ t.outcome = some .done ∧ t.ctx c = none

/-- Operations on different contexts with different writers commute (60_exceptions.md section 5): after both, in either
order, everything but the outcome last returned is the same. -/
def Obligations.ResumesOfDifferentContextsCommute : Prop :=
  ∀ (c d : Nat) (e f : Bool) (w v : Writer) (s s1 s2 : State),
    s.Inv → c ≠ d → w.id ≠ v.id →
    exec (.serResume c e w) s = .next s1 → exec (.serResume d f v) s1 = .next s2 →
    ∃ r1 r2 : State, exec (.serResume d f v) s = .next r1 ∧ exec (.serResume c e w) r1 = .next r2 ∧
      { r2 with outcome := s2.outcome } = s2

/-! ### The parser -/

/-- PARSE completes in every state with any bytes in its buffer: OK with a view of that buffer that is put under its number,
or PARSE_ERROR with no state changed (41_parser.md section 3). -/
def Obligations.ParseIsTotal : Prop :=
  ∀ (v b : Nat) (s : State),
    (∃ x : View, x.buf = b ∧ x.stale = false ∧ x.doff + x.dlen ≤ (s.buf b).length ∧
      exec (.parse v b) s = .next { s.setView v x with outcome := some (.okView x) }) ∨
    (∃ r : ParseReason, exec (.parse v b) s = .next { s with outcome := some (.parseError r) })

/-- PARSE of a buffer is the decoding of its bytes (30_encoding.md section 3) followed by the meaning of the form; for bytes that
are no unit it is PARSE_ERROR with the decoder's reason, or with INVALID_CLASS where at least four bytes begin with a class
that is rejected (41_parser.md section 2, for either value of the open parameter P_PARSE_CLA_CHECK, log entry 9; the order of
the checks rests on the spec's decision D16). That a unit form is an instruction with PARSE's effect is the model's reading (log
entry 4), and the meaning of a form acts on the view and the buffer that the receiver has selected, which is the model's own
(log entry 5): the statement takes a state whose receiver has selected the two that PARSE names. -/
def Obligations.ParseIsDecodeThenMeaning : Prop :=
  ∀ (v b : Nat) (s : State), s.rx = ⟨v, b⟩ →
    (∀ i, decode .unit (s.buf b) = .ok i → exec (.parse v b) s = exec i s) ∧
    (∀ r, decode .unit (s.buf b) = .error (.notUnit r) →
      exec (.parse v b) s = .next
        { s with
          outcome := some (.parseError
            (if 4 ≤ (s.buf b).length ∧ recvRead (s.buf b) 0 = 0xEF#8 ∧ Config.parseClaCheck = .rejectEf then .invalidClass
             else r)) })

/-- Decode inverts encode (41_parser.md section 3): PARSE of the unit that a legal context stands for gives the view with the
unit's header, payload, expected length, form and chaining flag, and its payload slice is the unit's payload. -/
def Obligations.ParseOfEmittedUnit : Prop :=
  ∀ (c : Context) (v b : Nat) (s : State),
    c.Legal → s.buf b = c.unitBytes → rejectsClass c.unitCla = false →
    exec (.parse v b) s = .next { s.setView v (c.unitView b) with outcome := some (.okView (c.unitView b)) } ∧
    recvSlice c.unitBytes (c.unitView b).doff (c.unitView b).dlen = some (c.payload c.chunkBase c.chunkLen)

/-- The round trips of 40_serializer.md section 5 for a command that is one unit: SER_START with room for it returns DONE
with that unit appended, and PARSE of it gives the command's header and payload, its expected length (clamped to 256 where
`ext` is 0), V_EXT exactly where the extended form is needed, and no chaining flag. -/
def Obligations.SingleUnitRoundTrip : Prop :=
  ∀ (c : Nat) (cmd : LogicalCommand) (ext : Bool) (j cap : Nat) (s : State),
    cmd.wfCmd = true → cmd.hdr.cla ≠ 0xEF#8 → (ext = true ∨ cmd.data.length ≤ 255) →
    (s.writer j).stream.length + (startContext cmd ext).unitBytes.length ≤ cap →
    ∃ (t : State) (u : List Byte), exec (.serStart c cmd ext ⟨j, .buf cap⟩) s = .next t ∧ t.outcome = some .done ∧
      (t.writer j).stream = (s.writer j).stream ++ u ∧
      ∀ (v b : Nat) (r : State), r.buf b = u →
        ∃ (r' : State) (x : View), exec (.parse v b) r = .next r' ∧ r'.view v = some x ∧ x.hdr = cmd.hdr ∧
          recvSlice u x.doff x.dlen = some cmd.data ∧
          x.le = (if ext then cmd.le else min cmd.le 256) ∧
          (x.ext = true ↔ ext = true ∧ (255 < cmd.data.length ∨ 256 < cmd.le)) ∧ x.chained = false

/-- The reasons of PARSE_ERROR (41_parser.md section 2; the names and the order of the checks rest on the spec's decision
D16), for a class byte that is not rejected: too few bytes, a marker with one byte after it, an extended Lc of zero, a
payload cut short, and one or more bytes too many after the payload. -/
def Obligations.MalformedUnitsGiveTheirReason : Prop :=
  ∀ (v b : Nat) (s : State) (h : Header) (lc : Byte) (d e : List Byte),
    rejectsClass h.cla = false →
    ((s.buf b).length < 4 → exec (.parse v b) s = .next { s with outcome := some (.parseError .tooShort) }) ∧
    (s.buf b = h.bytes ++ [0x00#8, lc] →
      exec (.parse v b) s = .next { s with outcome := some (.parseError .badLengthMarker) }) ∧
    (s.buf b = h.bytes ++ [0x00#8, 0x00#8, 0x00#8] ++ e → e ≠ [] →
      exec (.parse v b) s = .next { s with outcome := some (.parseError .badLengthMarker) }) ∧
    (s.buf b = h.bytes ++ [lc] ++ d → lc ≠ 0#8 → d ≠ [] → d.length < lc.toNat →
      exec (.parse v b) s = .next { s with outcome := some (.parseError .lengthMismatch) }) ∧
    (s.buf b = h.bytes ++ [lc] ++ d ++ e → lc ≠ 0#8 → d.length = lc.toNat → 2 ≤ e.length →
      exec (.parse v b) s = .next
        { s with outcome := some (.parseError (if e.length = 2 then .mixedForms else .lengthMismatch)) }) ∧
    (s.buf b = h.bytes ++ [0x00#8] ++ be16 (d.length + e.length) ++ d → d ≠ [] → e ≠ [] → d.length + e.length < 65536 →
      exec (.parse v b) s = .next { s with outcome := some (.parseError .lengthMismatch) }) ∧
    (s.buf b = h.bytes ++ [0x00#8] ++ be16 d.length ++ d ++ e → d ≠ [] → d.length < 65536 → e ≠ [] → e.length ≠ 2 →
      exec (.parse v b) s = .next
        { s with outcome := some (.parseError (if e.length = 1 then .mixedForms else .lengthMismatch)) })

/-- The class check on receive (41_parser.md section 2, for either value of the open parameter P_PARSE_CLA_CHECK): PARSE of a
buffer of at least four bytes whose byte 0 is 0xEF completes, with PARSE_ERROR(INVALID_CLASS) exactly under REJECT_EF; no
other buffer gives that reason (TOO_SHORT comes first, 60_exceptions.md section 3). -/
def Obligations.ReceivedClassCheckedAsConfigured : Prop :=
  ∀ (v b : Nat) (s : State),
    (4 ≤ (s.buf b).length → recvRead (s.buf b) 0 = 0xEF#8 →
      ∃ t, exec (.parse v b) s = .next t ∧
        (t.outcome = some (.parseError .invalidClass) ↔ Config.parseClaCheck = .rejectEf)) ∧
    ((s.buf b).length < 4 ∨ recvRead (s.buf b) 0 ≠ 0xEF#8 → ∀ t, exec (.parse v b) s = .next t →
      t.outcome ≠ some (.parseError .invalidClass))

/-- A received unit of each form whose Lc can declare the payload: where its class byte is 0xEF and the receiver rejects that
class, PARSE_ERROR(INVALID_CLASS) and no view; else the view that 41_parser.md section 1 gives for that form, under the number
the receiver has selected. Nothing else changes (for either value of the open parameter P_PARSE_CLA_CHECK, log entry 9; that a
unit form is an instruction, and which number and buffer, are the model's, log entries 4 and 5). -/
def Obligations.ReceivedUnitsBecomeViews : Prop :=
  ∀ (h : Header) (d : List Byte) (e : Byte) (e2 : BitVec 16) (s : State),
    let becomes (i : Instr) (doff dlen le : Nat) (ext : Bool) : Prop :=
      let x : View := ⟨h, doff, dlen, le, ext, chainBitOf h.cla, s.rx.buf, false⟩
      exec i s = .next
        (if h.cla = 0xEF#8 ∧ Config.parseClaCheck = .rejectEf then { s with outcome := some (.parseError .invalidClass) }
         else { s.setView s.rx.view x with outcome := some (.okView x) })
    becomes (.uHdr h) 4 0 0 false ∧
    becomes (.uSLe h e) 4 0 (if e = 0#8 then 256 else e.toNat) false ∧
    becomes (.uELe h e2) 4 0 (if e2 = 0#16 then 65536 else e2.toNat) true ∧
    (1 ≤ d.length → d.length ≤ 255 →
      becomes (.uSLc h d) 5 d.length 0 false ∧
      becomes (.uSLcLe h d e) 5 d.length (if e = 0#8 then 256 else e.toNat) false) ∧
    (1 ≤ d.length → d.length ≤ 65535 →
      becomes (.uELc h d) 7 d.length 0 true ∧
      becomes (.uELcLe h d e2) 7 d.length (if e2 = 0#16 then 65536 else e2.toNat) true)

/-- A unit term whose payload its Lc cannot declare is refused with OPERAND_RANGE (the model's choice, log entry 24: such a
term is no unit, and no bytes decode to it). -/
def Obligations.UndeclarablePayloadRefused : Prop :=
  ∀ (h : Header) (d : List Byte) (e : Byte) (e2 : BitVec 16) (s : State),
    (d = [] ∨ 255 < d.length →
      exec (.uSLc h d) s = .refused .operandRange ∧ exec (.uSLcLe h d e) s = .refused .operandRange) ∧
    (d = [] ∨ 65535 < d.length →
      exec (.uELc h d) s = .refused .operandRange ∧ exec (.uELcLe h d e2) s = .refused .operandRange)

/-! ### The accumulator -/

/-- ACC_NEW completes in every state, for every capacity, and returns OK: the accumulator is EMPTY with length 0 and the given
capacity, no other field of it holds a value, and nothing else changes (42_accumulator.md section 1). -/
def Obligations.NewAccumulatorIsEmpty : Prop :=
  ∀ (a n : Nat) (s : State), ∃ t : State, exec (.accNew a n) s = .next t ∧ t.outcome = some .ok ∧
    t.acc a = ⟨n, .empty, none, 0, none, []⟩ ∧ (∀ k, k ≠ a → t.acc k = s.acc k) ∧ t.ctxs = s.ctxs ∧
    t.views = s.views ∧ t.bufs = s.bufs ∧ t.writers = s.writers ∧ t.inputs = s.inputs ∧ t.rx = s.rx

/-- ACC_EXTEND of an EMPTY or CONTINUING accumulator with a view whose header agrees and whose payload fits completes: the
header is seeded by the first view, the payload is appended, the length and the expected length are the view's, the state
and the outcome are by its chaining flag, and nothing else changes (42_accumulator.md section 2). -/
def Obligations.ExtendFoldsTheViewIn : Prop :=
  ∀ (a v : Nat) (x : View) (ds : List Byte) (s : State),
    s.view v = some x → x.stale = false → recvSlice (s.buf x.buf) x.doff x.dlen = some ds →
    (s.acc a).len + x.dlen ≤ (s.acc a).cap →
    ((s.acc a).state = .empty ∨
      (s.acc a).state = .continuing ∧ (s.acc a).hdr = some { x.hdr with cla := x.hdr.cla &&& 0xEF#8 }) →
    exec (.accExtend a v) s = .next
      (let y : Acc :=
         { cap := (s.acc a).cap
           state := if x.chained then .continuing else .complete
           hdr := some { x.hdr with cla := x.hdr.cla &&& 0xEF#8 }
           len := (s.acc a).len + x.dlen
           le := some x.le
           buf := Memory.writeRun (s.acc a).buf (s.acc a).len ds }
       { s.setAcc a y with outcome := some (if x.chained then .continuing else .complete) })

/-- The buffer after a fold: the bytes from the old length on are the view's payload in index order, and every byte outside
them reads as before (20_memory.md sections 1 and 2). The old length is where the payload is stored. -/
def Obligations.FoldWritesOnlyItsRun : Prop :=
  ∀ (a v : Nat) (x : View) (ds : List Byte) (s t : State),
    s.view v = some x → recvSlice (s.buf x.buf) x.doff x.dlen = some ds →
    exec (.accExtend a v) s = .next t → t.outcome = some .continuing ∨ t.outcome = some .complete →
    (∀ i, i < x.dlen → Memory.read (t.acc a).buf ((s.acc a).len + i) = ds[i]?) ∧
    (∀ i, i < (s.acc a).len ∨ (s.acc a).len + x.dlen ≤ i →
      Memory.read (t.acc a).buf i = Memory.read (s.acc a).buf i)

/-- A view whose class (chaining bit aside), instruction, P1 or P2 differs from the seeded header fails with HEADER_MISMATCH,
before the capacity is looked at: the accumulator is FAILED and nothing else of it changes (42_accumulator.md section 2). -/
def Obligations.DifferentHeaderFails : Prop :=
  ∀ (a v : Nat) (x : View) (h : Header) (s : State),
    s.view v = some x → x.stale = false → (s.acc a).state = .continuing → (s.acc a).hdr = some h →
    (x.hdr.cla &&& 0xEF#8 ≠ h.cla ∨ x.hdr.ins ≠ h.ins ∨ x.hdr.p1 ≠ h.p1 ∨ x.hdr.p2 ≠ h.p2) →
    exec (.accExtend a v) s = .next
      { s.setAcc a { s.acc a with state := .failed } with outcome := some .headerMismatch }

/-- R164: where the length and the view's payload together exceed N, ACC_EXTEND sets A_STATE to FAILED and returns
CAPACITY_EXCEEDED, writes no byte and leaves A_LEN as it was, for the first view as for any other (whose header agrees). -/
def Obligations.OverCapacityFails : Prop :=
  ∀ (a v : Nat) (x : View) (s : State),
    s.view v = some x → x.stale = false →
    ((s.acc a).state = .empty ∨
      (s.acc a).state = .continuing ∧ (s.acc a).hdr = some { x.hdr with cla := x.hdr.cla &&& 0xEF#8 }) →
    (s.acc a).cap < (s.acc a).len + x.dlen →
    exec (.accExtend a v) s = .next
      { s.setAcc a { s.acc a with state := .failed } with outcome := some .capacityExceeded }

/-- ACC_EXTEND of a COMPLETE accumulator returns ALREADY_COMPLETE and changes nothing else (42_accumulator.md section 2; that
the accumulator stays as it is rests on the spec's decision D11). -/
def Obligations.CompleteAccumulatorStays : Prop :=
  ∀ (a v : Nat) (s : State), (s.acc a).state = .complete →
    exec (.accExtend a v) s = .next { s with outcome := some .alreadyComplete }

/-- ACC_EXTEND and ACC_READ of a FAILED accumulator are refused with ACC_FAILED (42_accumulator.md section 2, the spec's own
decision D11), and ACC_NEW makes it EMPTY again. -/
def Obligations.FailureIsFinalUntilNew : Prop :=
  ∀ (a v n : Nat) (s : State), (s.acc a).state = .failed →
    exec (.accExtend a v) s = .refused .accFailed ∧ exec (.accRead a) s = .refused .accFailed ∧
    ∃ t, exec (.accNew a n) s = .next t ∧ (t.acc a).state = .empty

/-- ACC_READ of a legal accumulator that is CONTINUING or COMPLETE completes and returns its state, header, payload and
expected length, the payload byte for byte what the buffer holds below A_LEN; of an EMPTY one it returns the state and the
length 0 alone. It changes nothing (42_accumulator.md section 3). -/
def Obligations.AccReadReturnsWhatIsHeld : Prop :=
  ∀ (a : Nat) (s : State), (s.acc a).Legal →
    ((s.acc a).state = .empty → exec (.accRead a) s = .next { s with outcome := some (.okRead .empty) }) ∧
    ((s.acc a).state = .continuing ∨ (s.acc a).state = .complete →
      ∃ (h : Header) (ds : List Byte) (le : Nat), (s.acc a).hdr = some h ∧ (s.acc a).le = some le ∧
        ds.length = (s.acc a).len ∧ (∀ i, i < (s.acc a).len → Memory.read (s.acc a).buf i = ds[i]?) ∧
        exec (.accRead a) s = .next { s with outcome := some (.okRead (.fields (s.acc a).state h ds le)) })

/-- The units of a chained command, parsed and folded in order into a new accumulator with room, give the command back
(40_serializer.md section 5): COMPLETE, with its header, its payload, and its expected length clamped to 256. -/
def Obligations.ChainReassemblesTheCommand : Prop :=
  ∀ (cmd : LogicalCommand) (a v b n : Nat) (s : State),
    cmd.wfCmd = true → cmd.hdr.cla ≠ 0xEF#8 → 255 < cmd.data.length → cmd.data.length ≤ n →
    ∃ t, foldUnits a v b (unitsOf cmd false) (s.setAcc a (Acc.fresh n)) = .next t ∧ t.outcome = some .complete ∧
      (t.acc a).state = .complete ∧ (t.acc a).hdr = some cmd.hdr ∧ (t.acc a).len = cmd.data.length ∧
      (t.acc a).le = some (min cmd.le 256) ∧
      Memory.readRun (t.acc a).buf 0 (t.acc a).len = some cmd.data

/-- The capacity law (42_accumulator.md section 4): a chain whose payload exceeds N fails with CAPACITY_EXCEEDED at the first
unit that would carry A_LEN past N, which is unit n / 255, with A_LEN and every byte as the units before it left them. -/
def Obligations.OverlongChainFailsAtTheFirstExcess : Prop :=
  ∀ (cmd : LogicalCommand) (a v b n : Nat) (s : State),
    cmd.wfCmd = true → cmd.hdr.cla ≠ 0xEF#8 → 255 < cmd.data.length → n < cmd.data.length →
    ∃ t t', foldUnits a v b ((unitsOf cmd false).take (n / 255)) (s.setAcc a (Acc.fresh n)) = .next t ∧
      (t.acc a).len = 255 * (n / 255) ∧
      foldUnit a v b (unitContext cmd false (n / 255)).unitBytes t = .next t' ∧
      t'.outcome = some .capacityExceeded ∧ t'.acc a = { t.acc a with state := .failed }

/-! ### Stale inputs, reset, legal states -/

/-- Where the caller or the transport changes a receive buffer after PARSE, ACC_EXTEND with a view of it is refused with
STALE_INPUT (unless the accumulator is COMPLETE or FAILED, which is told first); writing the same bytes again leaves the view
as it was (20_memory.md section 4, the spec's own decision D18; how the model knows it, log entry 15). -/
def Obligations.ViewOfAChangedBufferRefused : Prop :=
  ∀ (a v : Nat) (x : View) (bs : List Byte) (s : State), s.view v = some x →
    (bs ≠ s.buf x.buf → (s.acc a).state = .empty ∨ (s.acc a).state = .continuing →
      exec (.accExtend a v) (s.fillBuf x.buf bs) = .refused .staleInput) ∧
    (bs = s.buf x.buf → (s.fillBuf x.buf bs).view v = some x)

/-- A caller's change of a live context's command is refused with STALE_INPUT (20_memory.md section 4, the spec's own
decision D18; log entry 15). -/
def Obligations.ChangeOfALiveCommandRefused : Prop :=
  ∀ (c : Nat) (cmd : LogicalCommand) (x : Context) (rest : List Input) (s : State),
    s.inputs = .setCommand c cmd :: rest → s.ctx c = some x → cmd ≠ ⟨x.hdr, x.data, x.le⟩ →
    step s = .refused .staleInput

/-- A reset leaves no context live, no view, and every accumulator EMPTY with length 0 and its instance capacity; it touches
no writer (70_reset_and_hazards.md section 1, the spec's own decision D3; that receive buffers stay is log entry 18). -/
def Obligations.ResetAbandonsEverything : Prop :=
  ∀ (rest : List Input) (s : State), s.inputs = .reset :: rest →
    ∃ t, step s = .next t ∧ t.inputs = rest ∧ (∀ c, t.ctx c = none) ∧ (∀ v, t.view v = none) ∧
      (∀ a, t.acc a = ⟨Config.resetCapacity a, .empty, none, 0, none, []⟩) ∧
      t.writers = s.writers ∧ t.bufs = s.bufs

/-- The state after reset is legal. -/
def Obligations.ResetIsLegal : Prop := State.reset.Inv

/-- Every step keeps the state legal (10_state.md sections 2, 3, 5 and 7): every store stays in its canonical form; every live
context keeps its ranges, its mode and a resume point inside its unit; every view keeps its ranges and, unless stale, is what
PARSE makes of its buffer; every accumulator stays within its capacity, with a value in exactly the bytes below A_LEN. -/
def Obligations.EveryStepKeepsStateLegal : Prop :=
  ∀ s t : State, s.Inv → step s = .next t → t.Inv

/-! ### SEND -/

/-- The stream law for SEND (30_encoding.md section 6; 40_serializer.md section 5): whatever the writers of its list, and
whatever the fresh writers after them answer, a SEND that ends in DONE has put out exactly the command's units, in order. -/
def Obligations.SendPutsOutTheUnitsInOrder : Prop :=
  ∀ (n c : Nat) (cmd : LogicalCommand) (ext : Bool) (w : Writer) (ws : List Writer) (s t : State) (bs : List Byte),
    cmd.hdr.cla ≠ 0xEF#8 → send n c cmd ext w ws s = .next (t, bs) → t.outcome = some .done →
    bs = (unitsOf cmd ext).flatten

/-- SEND with one `buf(cap)` writer, and fresh ones declared as it is, sends the whole command, where it may make as many calls
as its units' lengths over `cap`, rounded up, add up to (30_encoding.md section 6; 40_serializer.md section 5; the count rests
on the spec's decision D10, log entry 20; the limit on the calls is the model's, log entry 25). -/
def Obligations.SendOfOneDeclarationCompletes : Prop :=
  ∀ (n c : Nat) (cmd : LogicalCommand) (ext : Bool) (j cap : Nat) (s : State),
    cmd.inRange = true → cmd.hdr.cla ≠ 0xEF#8 → 0 < cap → (s.writer j).stream = [] →
    callsNeeded cmd ext cap ≤ n + 1 →
    ∃ t, send n c cmd ext ⟨j, .buf cap⟩ [] s = .next (t, (unitsOf cmd ext).flatten) ∧ t.outcome = some .done ∧
      t.ctx c = none

/-- SEND stops where the last outcome is not PENDING (30_encoding.md section 6): once it has, within the writers of its list,
neither more writers in the list nor leave for more calls changes anything (the limit on the calls is the model's, log entry
25). -/
def Obligations.SendStopsWhenNotPending : Prop :=
  ∀ (n m c : Nat) (cmd : LogicalCommand) (ext : Bool) (w : Writer) (ws vs : List Writer) (s t : State) (bs : List Byte),
    n ≤ ws.length → send n c cmd ext w ws s = .next (t, bs) → (∀ x, t.outcome ≠ some (.pending x)) →
    send (n + m) c cmd ext w (ws ++ vs) s = .next (t, bs)

/-! ### The other moves -/

/-- Delivered bytes that are no unit are what PARSE makes of them (30_encoding.md section 3): the step completes with
PARSE_ERROR and the decoder's reason, or INVALID_CLASS where at least four bytes begin with a class that is rejected (for
either value of the open parameter P_PARSE_CLA_CHECK, log entry 9; the order of the checks, decision D16). The bytes are in the
receive buffer and its view is selected, but no view is made (log entries 3 to 5 and 15). -/
def Obligations.DeliveredNonUnitGivesItsReason : Prop :=
  ∀ (s : State) (v b : Nat) (bs : List Byte) (rest : List Input) (r : ParseReason),
    s.inputs = .unit v b bs :: rest → decode .unit bs = .error (.notUnit r) →
    ∃ t : State, s.FilledTo b bs rest t ∧ t.rx = ⟨v, b⟩ ∧
      step s = .next
        { t with
          outcome := some (.parseError
            (if 4 ≤ bs.length ∧ recvRead bs 0 = 0xEF#8 ∧ Config.parseClaCheck = .rejectEf then .invalidClass else r)) }

/-- A write of a receive buffer by its owner completes: the buffer holds the bytes, and views of it are stale if that changed
them (20_memory.md sections 1 and 4, the spec's own decision D18; the move and the mark are the model's, log entries 3 and 15). -/
def Obligations.StepFillsAReceiveBuffer : Prop :=
  ∀ (s : State) (b : Nat) (bs : List Byte) (rest : List Input), s.inputs = .fillBuf b bs :: rest →
    ∃ t : State, s.FilledTo b bs rest t ∧ t.rx = s.rx ∧ step s = .next t

/-- A write of the command of a context by its owner that leaves a live context's command as it is, or is of a context that is
not live, completes and changes nothing (20_memory.md section 4; the move is the model's, log entries 3 and 15). -/
def Obligations.UnchangedCommandIsNoHazard : Prop :=
  ∀ (c : Nat) (cmd : LogicalCommand) (rest : List Input) (s : State),
    s.inputs = .setCommand c cmd :: rest → (∀ x, s.ctx c = some x → cmd = ⟨x.hdr, x.data, x.le⟩) →
    step s = .next { s with inputs := rest }
end

