-- ==== Sys2Proof/Laws/Stores.lean ====
section
/-! SUPPORT. What the numbered stores and the accumulator buffer do: a read after a write, the canonical form, and that two
stores in canonical form that read alike are the same data. -/

namespace Sys2Proof.Machine

variable {α : Type}

/-! ### Reading -/

@[simp] theorem Slots.get_nil (k : Nat) : Slots.get ([] : Slots α) k = none := rfl

theorem Slots.get_cons (k' k : Nat) (v : α) (m : Slots α) :
    Slots.get ((k', v) :: m) k = if k = k' then some v else Slots.get m k := rfl

theorem Slots.get_set (m : Slots α) (k k' : Nat) (v : α) :
    Slots.get (Slots.set m k v) k' = if k' = k then some v else Slots.get m k' := by
  induction m with
  | nil => simp [Slots.set, Slots.get]
  | cons e m ih =>
    obtain ⟨j, u⟩ := e
    simp only [Slots.set]
    split
    · simp [Slots.get]
    · split
      · subst k; simp only [Slots.get]; split <;> rfl
      · simp only [Slots.get, ih]
        by_cases h1 : k' = j <;> by_cases h2 : k' = k <;> simp_all

@[simp] theorem Slots.get_set_self (m : Slots α) (k : Nat) (v : α) : Slots.get (Slots.set m k v) k = some v := by
  simp [Slots.get_set]

theorem Slots.get_set_ne (m : Slots α) {k k' : Nat} (v : α) (h : k' ≠ k) :
    Slots.get (Slots.set m k v) k' = Slots.get m k' := by simp [Slots.get_set, h]

theorem Slots.get_erase (m : Slots α) (k k' : Nat) :
    Slots.get (Slots.erase m k) k' = if k' = k then none else Slots.get m k' := by
  induction m with
  | nil => simp [Slots.erase, Slots.get]
  | cons e m ih =>
    obtain ⟨j, u⟩ := e
    unfold Slots.erase at ih ⊢
    by_cases hj : j = k
    · subst hj; simp only [ne_eq, not_true_eq_false, decide_false, List.filter_cons, Bool.false_eq_true, ↓reduceIte, ih, Slots.get]
      split <;> simp_all
    · simp only [ne_eq, hj, not_false_eq_true, decide_true, List.filter_cons, ↓reduceIte, Slots.get, ih]
      by_cases h1 : k' = j <;> by_cases h2 : k' = k <;> simp_all

@[simp] theorem Slots.get_erase_self (m : Slots α) (k : Nat) : Slots.get (Slots.erase m k) k = none := by
  simp [Slots.get_erase]

theorem Slots.get_erase_ne (m : Slots α) {k k' : Nat} (h : k' ≠ k) :
    Slots.get (Slots.erase m k) k' = Slots.get m k' := by simp [Slots.get_erase, h]

theorem Slots.get_map (f : α → α) (m : Slots α) (k : Nat) :
    Slots.get (Slots.map f m) k = (Slots.get m k).map f := by
  induction m with
  | nil => rfl
  | cons e m ih => obtain ⟨j, u⟩ := e; simp only [Slots.map, Slots.get, ih]; split <;> rfl

/-! ### The canonical form -/

/-- The canonical form, number by number: the first is below all the rest. -/
theorem Slots.sorted_cons (e : Nat × α) (m : Slots α) :
    Slots.sorted (e :: m) = true ↔ (∀ f ∈ m, e.1 < f.1) ∧ Slots.sorted m = true := by
  induction m generalizing e with
  | nil => simp [Slots.sorted]
  | cons f m ih =>
    simp only [Slots.sorted, Bool.and_eq_true, decide_eq_true_eq, List.mem_cons, forall_eq_or_imp]
    constructor
    · rintro ⟨h1, h2⟩
      exact ⟨⟨h1, fun g hg => Nat.lt_trans h1 (((ih f).mp h2).1 g hg)⟩, h2⟩
    · rintro ⟨⟨h1, _⟩, h2⟩; exact ⟨h1, h2⟩

theorem Slots.mem_set (m : Slots α) (k : Nat) (v : α) (e : Nat × α) (h : e ∈ Slots.set m k v) :
    e = (k, v) ∨ e ∈ m := by
  induction m with
  | nil => simpa [Slots.set] using h
  | cons f m ih =>
    obtain ⟨j, u⟩ := f
    simp only [Slots.set] at h
    split at h
    · simpa using h
    · split at h
      · rcases List.mem_cons.mp h with h | h
        · exact .inl h
        · exact .inr (List.mem_cons_of_mem _ h)
      · rcases List.mem_cons.mp h with h | h
        · exact .inr (h ▸ List.mem_cons_self)
        · rcases ih h with h | h
          · exact .inl h
          · exact .inr (List.mem_cons_of_mem _ h)

theorem Slots.set_sorted (m : Slots α) (k : Nat) (v : α) (h : Slots.sorted m = true) :
    Slots.sorted (Slots.set m k v) = true := by
  induction m with
  | nil => rfl
  | cons e m ih =>
    obtain ⟨j, u⟩ := e
    have hs := (Slots.sorted_cons _ _).mp h
    simp only [Slots.set]
    split
    · rename_i hk
      refine (Slots.sorted_cons _ _).mpr ⟨?_, h⟩
      intro f hf
      rcases List.mem_cons.mp hf with rfl | hf
      · exact hk
      · exact Nat.lt_trans hk (hs.1 f hf)
    · split
      · subst k; exact (Slots.sorted_cons _ _).mpr hs
      · refine (Slots.sorted_cons _ _).mpr ⟨?_, ih hs.2⟩
        intro f hf
        rcases Slots.mem_set m k v f hf with rfl | hf
        · simp only; omega
        · exact hs.1 f hf

theorem Slots.filter_sorted (p : Nat × α → Bool) (m : Slots α) (h : Slots.sorted m = true) :
    Slots.sorted (m.filter p) = true := by
  induction m with
  | nil => rfl
  | cons e m ih =>
    have hs := (Slots.sorted_cons _ _).mp h
    simp only [List.filter_cons]
    split
    · exact (Slots.sorted_cons _ _).mpr ⟨fun f hf => hs.1 f (List.mem_of_mem_filter hf), ih hs.2⟩
    · exact ih hs.2

theorem Slots.erase_sorted (m : Slots α) (k : Nat) (h : Slots.sorted m = true) :
    Slots.sorted (Slots.erase m k) = true := Slots.filter_sorted _ m h

theorem Slots.mem_map (f : α → α) (m : Slots α) (e : Nat × α) (h : e ∈ Slots.map f m) : ∃ v, (e.1, v) ∈ m := by
  induction m with
  | nil => simp [Slots.map] at h
  | cons g m ih =>
    obtain ⟨j, u⟩ := g
    rcases List.mem_cons.mp h with rfl | h
    · exact ⟨u, List.mem_cons_self⟩
    · obtain ⟨v, hv⟩ := ih h; exact ⟨v, List.mem_cons_of_mem _ hv⟩

theorem Slots.map_sorted (f : α → α) (m : Slots α) (h : Slots.sorted m = true) :
    Slots.sorted (Slots.map f m) = true := by
  induction m with
  | nil => rfl
  | cons e m ih =>
    obtain ⟨j, u⟩ := e
    have hs := (Slots.sorted_cons _ _).mp h
    refine (Slots.sorted_cons _ _).mpr ⟨fun g hg => ?_, ih hs.2⟩
    obtain ⟨v, hv⟩ := Slots.mem_map f m g hg
    exact hs.1 (g.1, v) hv

theorem Slots.get_of_below (m : Slots α) (k : Nat) (h : ∀ f ∈ m, k < f.1) : Slots.get m k = none := by
  induction m with
  | nil => rfl
  | cons e m ih =>
    obtain ⟨j, u⟩ := e
    have hj := h _ List.mem_cons_self
    simp only at hj
    rw [Slots.get_cons, if_neg (by omega), ih fun f hf => h f (List.mem_cons_of_mem _ hf)]

/-- Two stores in canonical form that read alike are the same. -/
theorem Slots.ext_of_sorted (m m' : Slots α) (h : Slots.sorted m = true) (h' : Slots.sorted m' = true)
    (hg : ∀ k, Slots.get m k = Slots.get m' k) : m = m' := by
  induction m generalizing m' with
  | nil =>
    cases m' with
    | nil => rfl
    | cons e m' => have := hg e.1; obtain ⟨j, u⟩ := e; simp [Slots.get_cons] at this
  | cons e m ih =>
    obtain ⟨j, u⟩ := e
    cases m' with
    | nil => have := hg j; simp [Slots.get_cons] at this
    | cons e' m' =>
      obtain ⟨j', u'⟩ := e'
      have hs := (Slots.sorted_cons _ _).mp h
      have hs' := (Slots.sorted_cons _ _).mp h'
      have hjj : j = j' := by
        by_contra hne
        rcases Nat.lt_or_gt_of_ne hne with hlt | hlt
        · have := hg j
          rw [Slots.get_cons, if_pos rfl, Slots.get_cons, if_neg hne, Slots.get_of_below] at this
          · simp at this
          · intro f hf; exact Nat.lt_trans hlt (hs'.1 f hf)
        · have := hg j'
          rw [Slots.get_cons, if_neg (Ne.symm hne), Slots.get_of_below] at this
          · simp [Slots.get_cons] at this
          · intro f hf; exact Nat.lt_trans hlt (hs.1 f hf)
      subst hjj
      have hu : u = u' := by simpa [Slots.get_cons] using hg j
      subst hu
      rw [ih m' hs.2 hs'.2 fun k => ?_]
      by_cases hk : k = j
      · subst hk
        rw [Slots.get_of_below m k hs.1, Slots.get_of_below m' k hs'.1]
      · simpa [Slots.get_cons, hk] using hg k

/-- Nothing stands under a fresh number, nor under any above it. -/
theorem Slots.get_of_fresh_le (m : Slots α) (k : Nat) (h : Slots.fresh m ≤ k) : Slots.get m k = none := by
  induction m with
  | nil => rfl
  | cons e m ih =>
    obtain ⟨k', v⟩ := e
    simp only [Slots.fresh] at h
    rw [Slots.get_cons, if_neg (by omega)]
    exact ih (by omega)

/-! ### The accumulator buffer -/

theorem Memory.read_write (m : Memory) (i j : Nat) (v : Byte) :
    Memory.read (Memory.write m i v) j = if j = i then some v else Memory.read m j := Slots.get_set m i j v

theorem Memory.write_wf (m : Memory) (i : Nat) (v : Byte) (h : Memory.wf m = true) :
    Memory.wf (Memory.write m i v) = true := Slots.set_sorted m i v h

/-- Writing a run keeps the canonical form. -/
theorem Memory.writeRun_wf (bs : List Byte) (m : Memory) (i : Nat) (h : Memory.wf m = true) :
    Memory.wf (Memory.writeRun m i bs) = true := by
  induction bs generalizing m i with
  | nil => exact h
  | cons b bs ih => exact ih _ _ (Memory.write_wf m i b h)

/-- Reading after a run is written: the run's bytes inside it, what was there outside it. -/
theorem Memory.read_writeRun (bs : List Byte) (m : Memory) (i j : Nat) :
    Memory.read (Memory.writeRun m i bs) j =
      if i ≤ j ∧ j < i + bs.length then bs[j - i]? else Memory.read m j := by
  induction bs generalizing m i with
  | nil => simp only [Memory.writeRun, List.length_nil]; rw [if_neg (by omega)]
  | cons b bs ih =>
    simp only [Memory.writeRun, ih, Memory.read_write, List.length_cons]
    by_cases hj : j = i
    · subst hj; rw [if_neg (by omega), if_pos rfl, if_pos (by omega)]; simp
    · by_cases hin : i + 1 ≤ j ∧ j < i + 1 + bs.length
      · rw [if_pos hin, if_pos (by omega)]
        rw [show j - i = (j - (i + 1)) + 1 by omega, List.getElem?_cons_succ]
      · rw [if_neg hin, if_neg hj, if_neg (by omega)]

/-- A run reads as `bs` exactly where every address of it holds its byte of `bs`. -/
theorem Memory.readRun_eq_some (n : Nat) (m : Memory) (i : Nat) (bs : List Byte) :
    Memory.readRun m i n = some bs ↔ bs.length = n ∧ ∀ j, j < n → Memory.read m (i + j) = bs[j]? := by
  induction n generalizing i bs with
  | zero =>
    cases bs <;> simp [Memory.readRun]
  | succ n ih =>
    simp only [Memory.readRun]
    constructor
    · intro h
      split at h
      · rename_i b cs hb hcs
        simp only [Option.some.injEq] at h
        subst h
        obtain ⟨hl, hr⟩ := (ih _ _).mp hcs
        refine ⟨by simp [hl], fun j hj => ?_⟩
        cases j with
        | zero => simpa using hb
        | succ j => rw [List.getElem?_cons_succ, ← hr j (by omega)]; congr 1; omega
      · simp at h
    · rintro ⟨hl, hr⟩
      cases bs with
      | nil => simp at hl
      | cons b cs =>
        have h0 : Memory.read m i = some b := by simpa using hr 0 (by omega)
        have h1 : Memory.readRun m (i + 1) n = some cs := by
          refine (ih _ _).mpr ⟨by simpa using hl, fun j hj => ?_⟩
          have := hr (j + 1) (by omega)
          rw [List.getElem?_cons_succ] at this
          rw [← this]; congr 1; omega
        simp [h0, h1]

end Sys2Proof.Machine
end

