-- ==== Sys2Proof/Laws/State.lean ====
section
/-! SUPPORT. The state record: one lemma per field and per read of a store, for each update, true by `rfl`; then each store's
read after its own update. -/

namespace Sys2Proof.Machine

/-! ### `setCtx` -/

@[simp] theorem State.setCtx_ctxs (s : State) (c : Nat) (x : Context) : (s.setCtx c x).ctxs = Slots.set s.ctxs c x := rfl
@[simp] theorem State.setCtx_views (s : State) (c : Nat) (x : Context) : (s.setCtx c x).views = s.views := rfl
@[simp] theorem State.setCtx_accs (s : State) (c : Nat) (x : Context) : (s.setCtx c x).accs = s.accs := rfl
@[simp] theorem State.setCtx_bufs (s : State) (c : Nat) (x : Context) : (s.setCtx c x).bufs = s.bufs := rfl
@[simp] theorem State.setCtx_writers (s : State) (c : Nat) (x : Context) : (s.setCtx c x).writers = s.writers := rfl
@[simp] theorem State.setCtx_inputs (s : State) (c : Nat) (x : Context) : (s.setCtx c x).inputs = s.inputs := rfl
@[simp] theorem State.setCtx_rx (s : State) (c : Nat) (x : Context) : (s.setCtx c x).rx = s.rx := rfl
@[simp] theorem State.setCtx_outcome (s : State) (c : Nat) (x : Context) : (s.setCtx c x).outcome = s.outcome := rfl
@[simp] theorem State.setCtx_view (s : State) (c : Nat) (x : Context) (k : Nat) : (s.setCtx c x).view k = s.view k := rfl
@[simp] theorem State.setCtx_acc (s : State) (c : Nat) (x : Context) (k : Nat) : (s.setCtx c x).acc k = s.acc k := rfl
@[simp] theorem State.setCtx_buf (s : State) (c : Nat) (x : Context) (k : Nat) : (s.setCtx c x).buf k = s.buf k := rfl
@[simp] theorem State.setCtx_writer (s : State) (c : Nat) (x : Context) (k : Nat) : (s.setCtx c x).writer k = s.writer k := rfl

/-! ### `dropCtx` -/

@[simp] theorem State.dropCtx_ctxs (s : State) (c : Nat) : (s.dropCtx c).ctxs = Slots.erase s.ctxs c := rfl
@[simp] theorem State.dropCtx_views (s : State) (c : Nat) : (s.dropCtx c).views = s.views := rfl
@[simp] theorem State.dropCtx_accs (s : State) (c : Nat) : (s.dropCtx c).accs = s.accs := rfl
@[simp] theorem State.dropCtx_bufs (s : State) (c : Nat) : (s.dropCtx c).bufs = s.bufs := rfl
@[simp] theorem State.dropCtx_writers (s : State) (c : Nat) : (s.dropCtx c).writers = s.writers := rfl
@[simp] theorem State.dropCtx_inputs (s : State) (c : Nat) : (s.dropCtx c).inputs = s.inputs := rfl
@[simp] theorem State.dropCtx_rx (s : State) (c : Nat) : (s.dropCtx c).rx = s.rx := rfl
@[simp] theorem State.dropCtx_outcome (s : State) (c : Nat) : (s.dropCtx c).outcome = s.outcome := rfl
@[simp] theorem State.dropCtx_view (s : State) (c : Nat) (k : Nat) : (s.dropCtx c).view k = s.view k := rfl
@[simp] theorem State.dropCtx_acc (s : State) (c : Nat) (k : Nat) : (s.dropCtx c).acc k = s.acc k := rfl
@[simp] theorem State.dropCtx_buf (s : State) (c : Nat) (k : Nat) : (s.dropCtx c).buf k = s.buf k := rfl
@[simp] theorem State.dropCtx_writer (s : State) (c : Nat) (k : Nat) : (s.dropCtx c).writer k = s.writer k := rfl

/-! ### `setView` -/

@[simp] theorem State.setView_ctxs (s : State) (v : Nat) (x : View) : (s.setView v x).ctxs = s.ctxs := rfl
@[simp] theorem State.setView_views (s : State) (v : Nat) (x : View) : (s.setView v x).views = Slots.set s.views v x := rfl
@[simp] theorem State.setView_accs (s : State) (v : Nat) (x : View) : (s.setView v x).accs = s.accs := rfl
@[simp] theorem State.setView_bufs (s : State) (v : Nat) (x : View) : (s.setView v x).bufs = s.bufs := rfl
@[simp] theorem State.setView_writers (s : State) (v : Nat) (x : View) : (s.setView v x).writers = s.writers := rfl
@[simp] theorem State.setView_inputs (s : State) (v : Nat) (x : View) : (s.setView v x).inputs = s.inputs := rfl
@[simp] theorem State.setView_rx (s : State) (v : Nat) (x : View) : (s.setView v x).rx = s.rx := rfl
@[simp] theorem State.setView_outcome (s : State) (v : Nat) (x : View) : (s.setView v x).outcome = s.outcome := rfl
@[simp] theorem State.setView_ctx (s : State) (v : Nat) (x : View) (k : Nat) : (s.setView v x).ctx k = s.ctx k := rfl
@[simp] theorem State.setView_acc (s : State) (v : Nat) (x : View) (k : Nat) : (s.setView v x).acc k = s.acc k := rfl
@[simp] theorem State.setView_buf (s : State) (v : Nat) (x : View) (k : Nat) : (s.setView v x).buf k = s.buf k := rfl
@[simp] theorem State.setView_writer (s : State) (v : Nat) (x : View) (k : Nat) : (s.setView v x).writer k = s.writer k := rfl

/-! ### `setAcc` -/

@[simp] theorem State.setAcc_ctxs (s : State) (a : Nat) (x : Acc) : (s.setAcc a x).ctxs = s.ctxs := rfl
@[simp] theorem State.setAcc_views (s : State) (a : Nat) (x : Acc) : (s.setAcc a x).views = s.views := rfl
@[simp] theorem State.setAcc_accs (s : State) (a : Nat) (x : Acc) : (s.setAcc a x).accs = Slots.set s.accs a x := rfl
@[simp] theorem State.setAcc_bufs (s : State) (a : Nat) (x : Acc) : (s.setAcc a x).bufs = s.bufs := rfl
@[simp] theorem State.setAcc_writers (s : State) (a : Nat) (x : Acc) : (s.setAcc a x).writers = s.writers := rfl
@[simp] theorem State.setAcc_inputs (s : State) (a : Nat) (x : Acc) : (s.setAcc a x).inputs = s.inputs := rfl
@[simp] theorem State.setAcc_rx (s : State) (a : Nat) (x : Acc) : (s.setAcc a x).rx = s.rx := rfl
@[simp] theorem State.setAcc_outcome (s : State) (a : Nat) (x : Acc) : (s.setAcc a x).outcome = s.outcome := rfl
@[simp] theorem State.setAcc_ctx (s : State) (a : Nat) (x : Acc) (k : Nat) : (s.setAcc a x).ctx k = s.ctx k := rfl
@[simp] theorem State.setAcc_view (s : State) (a : Nat) (x : Acc) (k : Nat) : (s.setAcc a x).view k = s.view k := rfl
@[simp] theorem State.setAcc_buf (s : State) (a : Nat) (x : Acc) (k : Nat) : (s.setAcc a x).buf k = s.buf k := rfl
@[simp] theorem State.setAcc_writer (s : State) (a : Nat) (x : Acc) (k : Nat) : (s.setAcc a x).writer k = s.writer k := rfl

/-! ### `putBuf` -/

@[simp] theorem State.putBuf_ctxs (s : State) (b : Nat) (bs : List Byte) : (s.putBuf b bs).ctxs = s.ctxs := rfl
@[simp] theorem State.putBuf_views (s : State) (b : Nat) (bs : List Byte) : (s.putBuf b bs).views = s.views := rfl
@[simp] theorem State.putBuf_accs (s : State) (b : Nat) (bs : List Byte) : (s.putBuf b bs).accs = s.accs := rfl
@[simp] theorem State.putBuf_bufs (s : State) (b : Nat) (bs : List Byte) : (s.putBuf b bs).bufs = if bs = [] then Slots.erase s.bufs b else Slots.set s.bufs b bs := rfl
@[simp] theorem State.putBuf_writers (s : State) (b : Nat) (bs : List Byte) : (s.putBuf b bs).writers = s.writers := rfl
@[simp] theorem State.putBuf_inputs (s : State) (b : Nat) (bs : List Byte) : (s.putBuf b bs).inputs = s.inputs := rfl
@[simp] theorem State.putBuf_rx (s : State) (b : Nat) (bs : List Byte) : (s.putBuf b bs).rx = s.rx := rfl
@[simp] theorem State.putBuf_outcome (s : State) (b : Nat) (bs : List Byte) : (s.putBuf b bs).outcome = s.outcome := rfl
@[simp] theorem State.putBuf_ctx (s : State) (b : Nat) (bs : List Byte) (k : Nat) : (s.putBuf b bs).ctx k = s.ctx k := rfl
@[simp] theorem State.putBuf_view (s : State) (b : Nat) (bs : List Byte) (k : Nat) : (s.putBuf b bs).view k = s.view k := rfl
@[simp] theorem State.putBuf_acc (s : State) (b : Nat) (bs : List Byte) (k : Nat) : (s.putBuf b bs).acc k = s.acc k := rfl
@[simp] theorem State.putBuf_writer (s : State) (b : Nat) (bs : List Byte) (k : Nat) : (s.putBuf b bs).writer k = s.writer k := rfl

/-! ### `setWriter` -/

@[simp] theorem State.setWriter_ctxs (s : State) (j : Nat) (w : WriterState) : (s.setWriter j w).ctxs = s.ctxs := rfl
@[simp] theorem State.setWriter_views (s : State) (j : Nat) (w : WriterState) : (s.setWriter j w).views = s.views := rfl
@[simp] theorem State.setWriter_accs (s : State) (j : Nat) (w : WriterState) : (s.setWriter j w).accs = s.accs := rfl
@[simp] theorem State.setWriter_bufs (s : State) (j : Nat) (w : WriterState) : (s.setWriter j w).bufs = s.bufs := rfl
@[simp] theorem State.setWriter_writers (s : State) (j : Nat) (w : WriterState) : (s.setWriter j w).writers = if w = {} then Slots.erase s.writers j else Slots.set s.writers j w := rfl
@[simp] theorem State.setWriter_inputs (s : State) (j : Nat) (w : WriterState) : (s.setWriter j w).inputs = s.inputs := rfl
@[simp] theorem State.setWriter_rx (s : State) (j : Nat) (w : WriterState) : (s.setWriter j w).rx = s.rx := rfl
@[simp] theorem State.setWriter_outcome (s : State) (j : Nat) (w : WriterState) : (s.setWriter j w).outcome = s.outcome := rfl
@[simp] theorem State.setWriter_ctx (s : State) (j : Nat) (w : WriterState) (k : Nat) : (s.setWriter j w).ctx k = s.ctx k := rfl
@[simp] theorem State.setWriter_view (s : State) (j : Nat) (w : WriterState) (k : Nat) : (s.setWriter j w).view k = s.view k := rfl
@[simp] theorem State.setWriter_acc (s : State) (j : Nat) (w : WriterState) (k : Nat) : (s.setWriter j w).acc k = s.acc k := rfl
@[simp] theorem State.setWriter_buf (s : State) (j : Nat) (w : WriterState) (k : Nat) : (s.setWriter j w).buf k = s.buf k := rfl

/-! ### `returns` -/

@[simp] theorem State.returns_ctxs (s : State) (o : OpOutcome) : (s.returns o).ctxs = s.ctxs := rfl
@[simp] theorem State.returns_views (s : State) (o : OpOutcome) : (s.returns o).views = s.views := rfl
@[simp] theorem State.returns_accs (s : State) (o : OpOutcome) : (s.returns o).accs = s.accs := rfl
@[simp] theorem State.returns_bufs (s : State) (o : OpOutcome) : (s.returns o).bufs = s.bufs := rfl
@[simp] theorem State.returns_writers (s : State) (o : OpOutcome) : (s.returns o).writers = s.writers := rfl
@[simp] theorem State.returns_inputs (s : State) (o : OpOutcome) : (s.returns o).inputs = s.inputs := rfl
@[simp] theorem State.returns_rx (s : State) (o : OpOutcome) : (s.returns o).rx = s.rx := rfl
@[simp] theorem State.returns_outcome (s : State) (o : OpOutcome) : (s.returns o).outcome = some o := rfl
@[simp] theorem State.returns_ctx (s : State) (o : OpOutcome) (k : Nat) : (s.returns o).ctx k = s.ctx k := rfl
@[simp] theorem State.returns_view (s : State) (o : OpOutcome) (k : Nat) : (s.returns o).view k = s.view k := rfl
@[simp] theorem State.returns_acc (s : State) (o : OpOutcome) (k : Nat) : (s.returns o).acc k = s.acc k := rfl
@[simp] theorem State.returns_buf (s : State) (o : OpOutcome) (k : Nat) : (s.returns o).buf k = s.buf k := rfl
@[simp] theorem State.returns_writer (s : State) (o : OpOutcome) (k : Nat) : (s.returns o).writer k = s.writer k := rfl

/-! ### Each store after its own update -/

theorem State.setCtx_ctx (s : State) (c k : Nat) (x : Context) :
    (s.setCtx c x).ctx k = if k = c then some x else s.ctx k := Slots.get_set s.ctxs c k x

theorem State.dropCtx_ctx (s : State) (c k : Nat) :
    (s.dropCtx c).ctx k = if k = c then none else s.ctx k := Slots.get_erase s.ctxs c k

theorem State.setView_view (s : State) (v k : Nat) (x : View) :
    (s.setView v x).view k = if k = v then some x else s.view k := Slots.get_set s.views v k x

theorem State.setAcc_acc (s : State) (a k : Nat) (x : Acc) :
    (s.setAcc a x).acc k = if k = a then x else s.acc k := by
  unfold State.acc; rw [State.setAcc_accs, Slots.get_set]; split <;> simp_all

theorem State.putBuf_buf (s : State) (b k : Nat) (bs : List Byte) :
    (s.putBuf b bs).buf k = if k = b then bs else s.buf k := by
  unfold State.buf; rw [State.putBuf_bufs]; split
  · rw [Slots.get_erase]; split <;> simp_all
  · rw [Slots.get_set]; split <;> simp_all

theorem State.setWriter_writer (s : State) (j k : Nat) (w : WriterState) :
    (s.setWriter j w).writer k = if k = j then w else s.writer k := by
  unfold State.writer; rw [State.setWriter_writers]; split
  · rw [Slots.get_erase]; split <;> simp_all
  · rw [Slots.get_set]; split <;> simp_all

@[simp] theorem State.setCtx_ctx_self (s : State) (c : Nat) (x : Context) : (s.setCtx c x).ctx c = some x := by
  simp [State.setCtx_ctx]

@[simp] theorem State.dropCtx_ctx_self (s : State) (c : Nat) : (s.dropCtx c).ctx c = none := by
  simp [State.dropCtx_ctx]

@[simp] theorem State.setView_view_self (s : State) (v : Nat) (x : View) : (s.setView v x).view v = some x := by
  simp [State.setView_view]

@[simp] theorem State.setAcc_acc_self (s : State) (a : Nat) (x : Acc) : (s.setAcc a x).acc a = x := by
  simp [State.setAcc_acc]

@[simp] theorem State.putBuf_buf_self (s : State) (b : Nat) (bs : List Byte) : (s.putBuf b bs).buf b = bs := by
  simp [State.putBuf_buf]

@[simp] theorem State.setWriter_writer_self (s : State) (j : Nat) (w : WriterState) : (s.setWriter j w).writer j = w := by
  simp [State.setWriter_writer]

/-! ### A receive buffer written by the caller or the transport -/

@[simp] theorem State.fillBuf_ctxs (s : State) (b : Nat) (bs : List Byte) : (s.fillBuf b bs).ctxs = s.ctxs := by
  unfold State.fillBuf; split <;> rfl

@[simp] theorem State.fillBuf_accs (s : State) (b : Nat) (bs : List Byte) : (s.fillBuf b bs).accs = s.accs := by
  unfold State.fillBuf; split <;> rfl

@[simp] theorem State.fillBuf_writers (s : State) (b : Nat) (bs : List Byte) : (s.fillBuf b bs).writers = s.writers := by
  unfold State.fillBuf; split <;> rfl

@[simp] theorem State.fillBuf_inputs (s : State) (b : Nat) (bs : List Byte) : (s.fillBuf b bs).inputs = s.inputs := by
  unfold State.fillBuf; split <;> rfl

@[simp] theorem State.fillBuf_rx (s : State) (b : Nat) (bs : List Byte) : (s.fillBuf b bs).rx = s.rx := by
  unfold State.fillBuf; split <;> rfl

@[simp] theorem State.fillBuf_outcome (s : State) (b : Nat) (bs : List Byte) : (s.fillBuf b bs).outcome = s.outcome := by
  unfold State.fillBuf; split <;> rfl

@[simp] theorem State.fillBuf_ctx (s : State) (b : Nat) (bs : List Byte) (k : Nat) : (s.fillBuf b bs).ctx k = s.ctx k := by
  simp [State.ctx]

@[simp] theorem State.fillBuf_acc (s : State) (b : Nat) (bs : List Byte) (k : Nat) : (s.fillBuf b bs).acc k = s.acc k := by
  simp [State.acc]

@[simp] theorem State.fillBuf_writer (s : State) (b : Nat) (bs : List Byte) (k : Nat) :
    (s.fillBuf b bs).writer k = s.writer k := by simp [State.writer]

/-- The buffer holds what was written, every other buffer what it held. -/
theorem State.fillBuf_buf (s : State) (b k : Nat) (bs : List Byte) :
    (s.fillBuf b bs).buf k = if k = b then bs else s.buf k := by
  unfold State.fillBuf
  split
  · split <;> simp_all
  · exact State.putBuf_buf s b k bs

/-- A view afterwards is the view before, stale where its buffer is the one that changed. -/
theorem State.fillBuf_view (s : State) (b k : Nat) (bs : List Byte) :
    (s.fillBuf b bs).view k = if s.buf b = bs then s.view k else (s.view k).map (View.spoil b) := by
  unfold State.fillBuf
  split
  · rfl
  · exact Slots.get_map _ _ _

/-! ### A reset of the block -/

@[simp] theorem State.restart_ctx (s : State) (c : Nat) : s.restart.ctx c = none := rfl
@[simp] theorem State.restart_view (s : State) (v : Nat) : s.restart.view v = none := rfl
@[simp] theorem State.restart_acc (s : State) (a : Nat) : s.restart.acc a = Acc.fresh (Config.resetCapacity a) := rfl
@[simp] theorem State.restart_buf (s : State) (b : Nat) : s.restart.buf b = s.buf b := rfl
@[simp] theorem State.restart_writer (s : State) (j : Nat) : s.restart.writer j = s.writer j := rfl

end Sys2Proof.Machine
end

