-- ==== Sys2Proof/Laws/Accumulator.lean ====
section
/-! SUPPORT. The accumulator (42_accumulator.md): everything that ACC_EXTEND and ACC_READ can do, said once. -/

namespace Sys2Proof.Machine

/-- A slice of a receive buffer is as long as it says and lies in the buffer (R12). -/
theorem recvSlice_eq_some (bs : List Byte) (off len : Nat) (ds : List Byte) :
    recvSlice bs off len = some ds ↔ off + len ≤ bs.length ∧ ds = (bs.drop off).take len := by
  unfold recvSlice; split <;> simp [*, eq_comm]

theorem recvSlice_length {bs : List Byte} {off len : Nat} {ds : List Byte} (h : recvSlice bs off len = some ds) :
    ds.length = len := by
  obtain ⟨hle, rfl⟩ := (recvSlice_eq_some _ _ _ _).mp h
  simp; omega

/-- What happens after the header check (R164, R165). -/
inductive FoldEnd (a : Nat) (x : Acc) (v : View) (s : State) : State → Prop
  | exceeds (h : x.cap < x.len + v.dlen) : FoldEnd a x v s ((s.setAcc a x.discard).returns .capacityExceeded)
  | fits (bs : List Byte) (h : x.len + v.dlen ≤ x.cap) (hs : recvSlice (s.buf v.buf) v.doff v.dlen = some bs) :
      FoldEnd a x v s ((s.setAcc a (x.append (unchained v.hdr) v bs)).returns (outcomeAfterFold v.chained))

theorem foldPayload_eq_next (a : Nat) (x : Acc) (v : View) (s t : State) (h : foldPayload a x v s = .next t) :
    FoldEnd a x v s t := by
  unfold foldPayload at h
  split at h
  · cases h; exact .exceeds ‹_›
  · split at h
    · cases h
    · cases h; exact .fits _ (by omega) ‹_›

/-- Everything that ACC_EXTEND can do where it gives a next state (R161 to R168). -/
inductive ExtendEnd (a v : Nat) (s : State) : State → Prop
  | already (h : (s.acc a).state = .complete) : ExtendEnd a v s (s.returns .alreadyComplete)
  | mismatch (x : View) (h : Header) (hx : s.view v = some x) (hf : x.stale = false)
      (hs : (s.acc a).state = .continuing) (hh : (s.acc a).hdr = some h) (hne : unchained x.hdr ≠ h) :
      ExtendEnd a v s ((s.setAcc a (s.acc a).discard).returns .headerMismatch)
  | folded (x : View) (t : State) (hx : s.view v = some x) (hf : x.stale = false)
      (hs : (s.acc a).state = .empty ∨ (s.acc a).state = .continuing ∧ (s.acc a).hdr = some (unchained x.hdr))
      (ht : FoldEnd a (s.acc a) x s t) : ExtendEnd a v s t

theorem withView_eq_next (v : Nat) (s t : State) (k : View → Host.Outcome State Fault Refusal)
    (h : withView v s k = .next t) : ∃ x, s.view v = some x ∧ x.stale = false ∧ k x = .next t := by
  unfold withView at h
  split at h
  · cases h
  · split at h
    · cases h
    · rename_i hf; exact ⟨_, ‹_›, by simpa using hf, h⟩

theorem execAccExtend_eq_next (a v : Nat) (s t : State) (h : execAccExtend a v s = .next t) : ExtendEnd a v s t := by
  unfold execAccExtend at h
  split at h
  · cases h; exact .already ‹_›
  · cases h
  · rename_i he
    obtain ⟨x, hx, hf, hk⟩ := withView_eq_next _ _ _ _ h
    unfold foldView at hk
    rw [if_neg (by simp [he])] at hk
    exact .folded x t hx hf (.inl he) (foldPayload_eq_next _ _ _ _ _ hk)
  · rename_i hc
    obtain ⟨x, hx, hf, hk⟩ := withView_eq_next _ _ _ _ h
    unfold foldView at hk
    rw [if_pos hc] at hk
    split at hk
    · cases hk
    · rename_i hd hh
      split at hk
      · cases hk; exact .mismatch x hd hx hf hc hh ‹_›
      · rename_i hne
        simp only [ne_eq, Decidable.not_not] at hne
        exact .folded x t hx hf (.inr ⟨hc, hne ▸ hh⟩) (foldPayload_eq_next _ _ _ _ _ hk)

/-- ACC_READ changes nothing but the outcome returned (R170). -/
theorem execAccRead_eq_next (a : Nat) (s t : State) (h : execAccRead a s = .next t) :
    ∃ f, t = s.returns (.okRead f) := by
  unfold execAccRead at h
  have hread : ∀ x, readFields x s = .next t → ∃ f, t = s.returns (.okRead f) := by
    intro x hx
    unfold readFields at hx
    split at hx <;> cases hx
    exact ⟨_, rfl⟩
  split at h
  · cases h
  · cases h; exact ⟨_, rfl⟩
  · exact hread _ h
  · exact hread _ h

/-! ### A fold and the buffer -/

/-- Outside the run it appends, a fold leaves every byte of the buffer as it was (R53). -/
theorem Acc.append_read_outside (x : Acc) (h : Header) (v : View) (bs : List Byte) (i : Nat)
    (hi : i < x.len ∨ x.len + bs.length ≤ i) : Memory.read (x.append h v bs).buf i = Memory.read x.buf i := by
  rw [show (x.append h v bs).buf = Memory.writeRun x.buf x.len bs from rfl, Memory.read_writeRun, if_neg (by omega)]

/-- Inside the run it appends, the buffer holds the payload (R165). -/
theorem Acc.append_read_inside (x : Acc) (h : Header) (v : View) (bs : List Byte) (i : Nat) (hi : i < bs.length) :
    Memory.read (x.append h v bs).buf (x.len + i) = bs[i]? := by
  rw [show (x.append h v bs).buf = Memory.writeRun x.buf x.len bs from rfl, Memory.read_writeRun, if_pos (by omega)]
  congr 1; omega

end Sys2Proof.Machine
end

