-- ==== Sys2Proof/Laws/Codec.lean ====
section
/-! SUPPORT. The pieces of the two codecs: each operand is read back as it was written, and what is read is how it would be
written. -/

namespace Sys2Proof

/-! ### Bytes and 16-bit numbers -/

@[simp] theorem Header.bytes_length (h : Header) : h.bytes.length = 4 := rfl

@[simp] theorem be16_length (v : Nat) : (be16 v).length = 2 := rfl

theorem toNat_ofNat_of_lt {n : Nat} (h : n < 256) : (BitVec.ofNat 8 n).toNat = n := by
  simp [BitVec.toNat_ofNat, Nat.mod_eq_of_lt h]

/-- `UNBE16` undoes `BE16` (R11). -/
theorem unbe16_be16 {v : Nat} (h : v < 65536) : unbe16 (BitVec.ofNat 8 (v / 256)) (BitVec.ofNat 8 v) = v := by
  simp only [unbe16, BitVec.toNat_ofNat]; omega

theorem unbe16_lt (h l : Byte) : unbe16 h l < 65536 := by
  have := h.isLt; have := l.isLt; simp only [unbe16]; omega

/-- `BE16` undoes `UNBE16` (R11). -/
theorem be16_unbe16 (h l : Byte) : be16 (unbe16 h l) = [h, l] := by
  have hh := h.isLt
  have hl := l.isLt
  simp only [be16, unbe16, List.cons.injEq, and_true]
  constructor <;> apply BitVec.eq_of_toNat_eq <;> simp only [BitVec.toNat_ofNat] <;> omega

/-! ### Operands of a record -/

theorem takeNat_putNatFuel (fuel n : Nat) (hf : n ≤ fuel) (rest : List Byte) :
    takeNat (putNatFuel fuel n ++ rest) = some (n, rest) := by
  induction fuel generalizing n with
  | zero =>
    obtain rfl : n = 0 := by omega
    simp [putNatFuel, takeNat]
  | succ fuel ih =>
    simp only [putNatFuel]
    split
    · rename_i hn
      have hb := toNat_ofNat_of_lt (n := n) (by omega)
      simp only [List.cons_append, List.nil_append, takeNat, hb, if_pos hn]
    · rename_i hn
      have hb := toNat_ofNat_of_lt (n := 128 + n % 128) (by omega)
      simp only [List.cons_append, takeNat, hb, ih (n / 128) (by omega)]
      rw [if_neg (by omega), if_neg (by omega)]
      simp only [Option.some.injEq, Prod.mk.injEq, and_true]
      omega

@[simp] theorem takeNat_putNat (n : Nat) (rest : List Byte) : takeNat (putNat n ++ rest) = some (n, rest) :=
  takeNat_putNatFuel n n (Nat.le_refl n) rest

@[simp] theorem takeByte_cons (b : Byte) (rest : List Byte) : takeByte (b :: rest) = some (b, rest) := rfl

@[simp] theorem takeBytes_append (d rest : List Byte) : takeBytes d.length (d ++ rest) = some (d, rest) := by
  simp [takeBytes]

@[simp] theorem takeFlag_putFlag (f : Bool) (rest : List Byte) : takeFlag (putFlag f ++ rest) = some (f, rest) := by
  cases f <;> simp [putFlag, takeFlag]

@[simp] theorem takeAnswer_putAnswer (a : Answer) (rest : List Byte) :
    takeAnswer (putAnswer a ++ rest) = some (a, rest) := by
  cases a <;> simp [putAnswer, takeAnswer]

@[simp] theorem takeAnswerList_putAnswerList (as : List Answer) (rest : List Byte) :
    takeAnswerList as.length (putAnswerList as ++ rest) = some (as, rest) := by
  induction as with
  | nil => rfl
  | cons a as ih => simp [putAnswerList, takeAnswerList, ih]

@[simp] theorem takeWriter_putWriter (w : Writer) (rest : List Byte) :
    takeWriter (putWriter w ++ rest) = some (w, rest) := by
  obtain ⟨j, answers⟩ := w
  cases answers <;> simp [putWriter, takeWriter]

@[simp] theorem takeCommand_putCommand (cmd : LogicalCommand) (rest : List Byte) :
    takeCommand (putCommand cmd ++ rest) = some (cmd, rest) := by
  simp [putCommand, takeCommand, Header.bytes]

/-! The last operand of a record, with nothing after it. -/

@[simp] theorem takeNat_putNat_last (n : Nat) : takeNat (putNat n) = some (n, []) := by
  simpa using takeNat_putNat n []

@[simp] theorem takeWriter_putWriter_last (w : Writer) : takeWriter (putWriter w) = some (w, []) := by
  simpa using takeWriter_putWriter w []

end Sys2Proof
end

