-- ==== Sys2Proof/Laws/Parser.lean ====
section
/-! SUPPORT. PARSE (41_parser.md rule R140): everything that a view it returns can be. -/

namespace Sys2Proof.Machine

theorem shortLe_le (e : Byte) : shortLe e ≤ 256 := by
  have := e.isLt; unfold shortLe; split <;> simp; omega

theorem extLe_le (h l : Byte) : extLe (unbe16 h l) ≤ 65536 := by
  have := unbe16_lt h l; unfold extLe; split <;> simp; omega

/-- What a view of header `h` in buffer `b`, of `n` bytes, can be (R141): where the payload slice begins says which length
field stands before it, and it lies in the buffer. -/
structure View.Of (h : Header) (b n : Nat) (v : View) : Prop where
  hdr     : v.hdr = h
  buf     : v.buf = b
  stale   : v.stale = false
  chained : v.chained = chainBitOf h.cla
  le      : v.le ≤ 65536
  inBuf   : v.doff + v.dlen ≤ n
  slice   : (v.doff = 4 ∧ v.dlen = 0) ∨ (v.doff = 5 ∧ 1 ≤ v.dlen ∧ v.dlen ≤ 255 ∧ v.ext = false)
              ∨ (v.doff = 7 ∧ 1 ≤ v.dlen ∧ v.dlen ≤ 65535 ∧ v.ext = true)

theorem parseShort_ok (b : Nat) (h : Header) (bs : List Byte) (lc : Nat) (v : View) (hl : 1 ≤ lc ∧ lc ≤ 255)
    (hv : parseShort b h bs lc = .ok v) : v.Of h b bs.length := by
  have hs := shortLe_le (recvRead bs (bs.length - 1))
  unfold parseShort at hv
  dsimp only at hv
  split at hv
  · cases hv; exact ⟨rfl, rfl, rfl, rfl, by simp [mkView], by simp only [mkView]; omega, .inr (.inl ⟨rfl, hl.1, hl.2, rfl⟩)⟩
  · split at hv
    · cases hv
      exact ⟨rfl, rfl, rfl, rfl, by simp only [mkView]; omega, by simp only [mkView]; omega,
        .inr (.inl ⟨rfl, hl.1, hl.2, rfl⟩)⟩
    · split at hv <;> cases hv

theorem parseExt_ok (b : Nat) (h : Header) (bs : List Byte) (hi lo : Byte) (v : View)
    (hv : parseExt b h bs (unbe16 hi lo) = .ok v) : v.Of h b bs.length := by
  have hw := unbe16_lt hi lo
  have he := extLe_le hi lo
  have hel := extLe_le (recvRead bs (bs.length - 2)) (recvRead bs (bs.length - 1))
  unfold parseExt at hv
  dsimp only at hv
  split at hv
  · cases hv; exact ⟨rfl, rfl, rfl, rfl, he, by simp only [mkView]; omega, .inl ⟨rfl, rfl⟩⟩
  split at hv
  · cases hv
  split at hv
  · cases hv
    exact ⟨rfl, rfl, rfl, rfl, by simp [mkView], by simp only [mkView]; omega,
      .inr (.inr ⟨rfl, by simp only [mkView]; omega, by simp only [mkView]; omega, rfl⟩)⟩
  split at hv
  · cases hv
    exact ⟨rfl, rfl, rfl, rfl, hel, by simp only [mkView]; omega,
      .inr (.inr ⟨rfl, by simp only [mkView]; omega, by simp only [mkView]; omega, rfl⟩)⟩
  · split at hv <;> cases hv

theorem one_le_toNat {x : Byte} (h : x ≠ 0#8) : 1 ≤ x.toNat := by
  rcases Nat.eq_zero_or_pos x.toNat with h0 | h0
  · exact absurd (BitVec.eq_of_toNat_eq (by simpa using h0)) h
  · exact h0

/-- A view that PARSE returns is of its own buffer and of the header there, whose class is not rejected (R140, R141). -/
theorem parseBytes_ok (b : Nat) (bs : List Byte) (v : View) (hv : parseBytes b bs = .ok v) :
    v.Of ⟨recvRead bs 0, recvRead bs 1, recvRead bs 2, recvRead bs 3⟩ b bs.length ∧
      rejectsClass (recvRead bs 0) = false ∧ 4 ≤ bs.length := by
  have h4 := (recvRead bs 4).isLt
  have hs := shortLe_le (recvRead bs 4)
  unfold parseBytes at hv
  dsimp only at hv
  split at hv
  · cases hv
  split at hv
  · cases hv
  rename_i hlen hcla
  refine ⟨?_, by simpa using hcla, by omega⟩
  split at hv
  · cases hv; exact ⟨rfl, rfl, rfl, rfl, by simp [mkView], by simp only [mkView]; omega, .inl ⟨rfl, rfl⟩⟩
  split at hv
  · cases hv
    exact ⟨rfl, rfl, rfl, rfl, by simp only [mkView]; omega, by simp only [mkView]; omega, .inl ⟨rfl, rfl⟩⟩
  split at hv
  · rename_i hb4; exact parseShort_ok _ _ _ _ _ ⟨one_le_toNat hb4, by omega⟩ hv
  split at hv
  · cases hv
  · exact parseExt_ok _ _ _ _ _ _ hv

end Sys2Proof.Machine
end

