-- ==== Sys2Proof/Laws/PerInstr.lean ====
section
/-! SUPPORT. Statements about every instruction as syntax, one lemma for each constructor. -/

namespace Sys2Proof.Laws

/-! ### The first byte at the port -/

/-- The byte an instruction begins with: the OP code of R85, or the class byte of a unit (R71). -/
def FirstByte.of : Instr → Byte
  | .serStart _ _ _ _ => 0x01#8
  | .serResume _ _ _ => 0x02#8
  | .serCancel _ => 0x03#8
  | .parse _ _ => 0x10#8
  | .accNew _ _ => 0x20#8
  | .accExtend _ _ => 0x21#8
  | .accRead _ => 0x22#8
  | .uHdr h => h.cla
  | .uSLe h _ => h.cla
  | .uSLc h _ => h.cla
  | .uSLcLe h _ _ => h.cla
  | .uELe h _ => h.cla
  | .uELc h _ => h.cla
  | .uELcLe h _ _ => h.cla

/-- An instruction's bytes begin with its first byte. -/
def FirstByte.Statement (i : Instr) : Prop := (encode i).head? = some (FirstByte.of i)

theorem FirstByte.serStart (c cmd ext w) : FirstByte.Statement (.serStart c cmd ext w) := rfl
theorem FirstByte.serResume (c ext w) : FirstByte.Statement (.serResume c ext w) := rfl
theorem FirstByte.serCancel (c) : FirstByte.Statement (.serCancel c) := rfl
theorem FirstByte.parse (v b) : FirstByte.Statement (.parse v b) := rfl
theorem FirstByte.accNew (a n) : FirstByte.Statement (.accNew a n) := rfl
theorem FirstByte.accExtend (a v) : FirstByte.Statement (.accExtend a v) := rfl
theorem FirstByte.accRead (a) : FirstByte.Statement (.accRead a) := rfl
theorem FirstByte.uHdr (h) : FirstByte.Statement (.uHdr h) := rfl
theorem FirstByte.uSLe (h e) : FirstByte.Statement (.uSLe h e) := rfl
theorem FirstByte.uSLc (h d) : FirstByte.Statement (.uSLc h d) := rfl
theorem FirstByte.uSLcLe (h d e) : FirstByte.Statement (.uSLcLe h d e) := rfl
theorem FirstByte.uELe (h e) : FirstByte.Statement (.uELe h e) := rfl
theorem FirstByte.uELc (h d) : FirstByte.Statement (.uELc h d) := rfl
theorem FirstByte.uELcLe (h d e) : FirstByte.Statement (.uELcLe h d e) := rfl

/-! ### The length of a unit -/

/-- A unit's length is the one of its row in R76. -/
def UnitLength.Statement : Instr → Prop
  | .serStart _ _ _ _ => True
  | .serResume _ _ _ => True
  | .serCancel _ => True
  | .parse _ _ => True
  | .accNew _ _ => True
  | .accExtend _ _ => True
  | .accRead _ => True
  | .uHdr h => (encode (.uHdr h)).length = 4
  | .uSLe h e => (encode (.uSLe h e)).length = 5
  | .uSLc h d => (encode (.uSLc h d)).length = 5 + d.length
  | .uSLcLe h d e => (encode (.uSLcLe h d e)).length = 6 + d.length
  | .uELe h e => (encode (.uELe h e)).length = 7
  | .uELc h d => (encode (.uELc h d)).length = 7 + d.length
  | .uELcLe h d e => (encode (.uELcLe h d e)).length = 9 + d.length

theorem UnitLength.serStart (c cmd ext w) : UnitLength.Statement (.serStart c cmd ext w) := trivial
theorem UnitLength.serResume (c ext w) : UnitLength.Statement (.serResume c ext w) := trivial
theorem UnitLength.serCancel (c) : UnitLength.Statement (.serCancel c) := trivial
theorem UnitLength.parse (v b) : UnitLength.Statement (.parse v b) := trivial
theorem UnitLength.accNew (a n) : UnitLength.Statement (.accNew a n) := trivial
theorem UnitLength.accExtend (a v) : UnitLength.Statement (.accExtend a v) := trivial
theorem UnitLength.accRead (a) : UnitLength.Statement (.accRead a) := trivial
theorem UnitLength.uHdr (h) : UnitLength.Statement (.uHdr h) := rfl
theorem UnitLength.uSLe (h e) : UnitLength.Statement (.uSLe h e) := rfl
theorem UnitLength.uSLc (h d) : UnitLength.Statement (.uSLc h d) := by
  simp [UnitLength.Statement, encode, Instr.port, encodeUnit]; omega
theorem UnitLength.uSLcLe (h d e) : UnitLength.Statement (.uSLcLe h d e) := by
  simp [UnitLength.Statement, encode, Instr.port, encodeUnit]; omega
theorem UnitLength.uELe (h e) : UnitLength.Statement (.uELe h e) := rfl
theorem UnitLength.uELc (h d) : UnitLength.Statement (.uELc h d) := by
  simp [UnitLength.Statement, encode, Instr.port, encodeUnit]; omega
theorem UnitLength.uELcLe (h d e) : UnitLength.Statement (.uELcLe h d e) := by
  simp [UnitLength.Statement, encode, Instr.port, encodeUnit]; omega

end Sys2Proof.Laws
end

