-- ==== Sys2Proof/Laws/Pseudo.lean ====
section
/-! SUPPORT. The pseudo-operations (30_encoding.md rule R89): how a sequence of calls splits, and that a fresh writer holds
nothing. -/

namespace Sys2Proof.Machine

/-- A sequence of calls completes exactly where its first call does and the rest do from there; the bytes are the first call's
and then the rest's. -/
theorem collect_eq_next (w : Writer) (s t' : State) (bs : List Byte) (call : Host.Outcome State Fault Refusal)
    (after : State → Host.Outcome (State × List Byte) Fault Refusal) :
    collect w s call after = .next (t', bs) ↔
      ∃ t bs', call = .next t ∧ after t = .next (t', bs') ∧ bs = appendedBy w s t ++ bs' := by
  unfold collect
  split
  · split <;> simp_all [eq_comm]
  · simp
  · simp

/-- A fresh writer has an empty stream and has answered no query (R89). -/
@[simp] theorem State.writer_freshWriter (s : State) (w : Writer) : s.writer (s.freshWriter w).id = {} := by
  simp [State.writer, State.freshWriter, Slots.get_of_fresh_le]

@[simp] theorem State.freshWriter_answers (s : State) (w : Writer) : (s.freshWriter w).answers = w.answers := rfl

/-- SEND's resumes stop where the last outcome is not PENDING (R89). -/
theorem resumePending_of_not_pending (c n : Nat) (ext : Bool) (last : Writer) (ws : List Writer) (s : State)
    (h : ∀ x, s.outcome ≠ some (.pending x)) : resumePending c ext last n ws s = .next (s, []) := by
  cases n with
  | zero => rfl
  | succ n => unfold resumePending; split <;> simp_all

/-- While the last outcome is PENDING, SEND resumes with the next writer of the list, or with a fresh one (R89). -/
theorem resumePending_of_pending (c n : Nat) (ext : Bool) (last : Writer) (ws : List Writer) (s : State) (x : Context)
    (h : s.outcome = some (.pending x)) :
    resumePending c ext last (n + 1) ws s =
      collect (ws.headD (s.freshWriter last)) s (exec (.serResume c ext (ws.headD (s.freshWriter last))) s)
        (resumePending c ext last n ws.tail) := by
  simp [resumePending, h]

end Sys2Proof.Machine
end

