-- ==== Sys2Proof/Laws/Writer.lean ====
section
/-! SUPPORT. The writer port (30_encoding.md rule R86): everything that a query of a writer can do. -/

namespace Sys2Proof.Machine

/-- A `remaining` query counts itself and changes nothing else that the writer holds. -/
theorem Sink.remaining_spec (w w' : Sink) (cap : Nat) (h : w.remaining = some (cap, w')) :
    w'.id = w.id ∧ w'.st = { w.st with asks := w.st.asks + 1 } := by
  unfold Sink.remaining at h
  split at h <;> simp_all [Sink.asked] <;> obtain ⟨_, rfl⟩ := h <;> exact ⟨rfl, rfl⟩

/-- A `write` query counts itself and appends a prefix of what it is offered: of exactly `k` bytes where it answers `Ok(k)`. -/
theorem Sink.write_spec (w w' : Sink) (bs : List Byte) (r : Reply) (h : w.write bs = some (r, w')) :
    w'.id = w.id ∧ ∃ k, k ≤ bs.length ∧ (∀ n, r = .ok n → n = k) ∧
      w'.st = { w.st with stream := w.st.stream ++ bs.take k, writes := w.st.writes + 1 } := by
  unfold Sink.write at h
  split at h
  · simp only [Option.some.injEq, Prod.mk.injEq] at h
    obtain ⟨rfl, rfl⟩ := h
    exact ⟨rfl, _, Nat.min_le_left _ _, by simp, rfl⟩
  · simp only [Option.some.injEq, Prod.mk.injEq] at h
    obtain ⟨rfl, rfl⟩ := h
    exact ⟨rfl, _, Nat.min_le_right _ _, by simp, rfl⟩
  · split at h
    · simp only [Option.some.injEq, Prod.mk.injEq] at h
      obtain ⟨rfl, rfl⟩ := h
      exact ⟨rfl, _, ‹_›, by simp, rfl⟩
    · simp at h
  · split at h
    · simp only [Option.some.injEq, Prod.mk.injEq] at h
      obtain ⟨rfl, rfl⟩ := h
      exact ⟨rfl, _, ‹_›, by simp, rfl⟩
    · simp at h
  · simp at h
  · have hk : Config.drawCount w.id w.st.queries % (bs.length + 1) ≤ bs.length :=
      Nat.le_of_lt_succ (Nat.mod_lt _ (Nat.succ_pos _))
    split at h <;> simp only [Option.some.injEq, Prod.mk.injEq] at h <;> obtain ⟨rfl, rfl⟩ := h
    · exact ⟨rfl, _, hk, by simp, rfl⟩
    · exact ⟨rfl, _, hk, by simp, rfl⟩

end Sys2Proof.Machine
end

