-- ==== Sys2Proof/Laws/Serializer.lean ====
section
/-! SUPPORT. SER_STEP (40_serializer.md rule R110): everything that its loop can do, said once, and that it never runs out of
passes (R121). -/

namespace Sys2Proof.Machine

/-! ### A context's own updates -/

@[simp] theorem Context.advance_unitBytes (c : Context) (k : Nat) : (c.advance k).unitBytes = c.unitBytes := rfl
@[simp] theorem Context.advance_unitOff (c : Context) (k : Nat) : (c.advance k).unitOff = c.unitOff + k := rfl
@[simp] theorem Context.advance_mode (c : Context) (k : Nat) : (c.advance k).mode = c.mode := rfl
@[simp] theorem Context.advance_isFinal (c : Context) (k : Nat) : (c.advance k).isFinal = c.isFinal := rfl
@[simp] theorem Context.advance_goesOn (c : Context) (k : Nat) : (c.advance k).goesOn = c.goesOn := rfl
@[simp] theorem Context.advance_nextUnit (c : Context) (k : Nat) : (c.advance k).nextUnit = c.nextUnit := rfl
@[simp] theorem Context.advance_zero (c : Context) : c.advance 0 = c := rfl
@[simp] theorem Context.advance_advance (c : Context) (k n : Nat) : (c.advance k).advance n = c.advance (k + n) := by
  simp [Context.advance, Nat.add_assoc]
@[simp] theorem Context.stopped_unitBytes (c : Context) : c.stopped.unitBytes = c.unitBytes := rfl
@[simp] theorem Context.stopped_unitOff (c : Context) : c.stopped.unitOff = c.unitOff := rfl
@[simp] theorem Context.nextUnit_unitOff (c : Context) : c.nextUnit.unitOff = 0 := rfl

/-- A unit is followed by another exactly where it is not final: outside mode CHAINED every unit is final (R28). -/
theorem Context.goesOn_eq (c : Context) : c.goesOn = !c.isFinal := by
  unfold Context.goesOn Context.isFinal
  by_cases h : c.mode = .chained <;> simp [h]

/-- What one write is offered is never more than the rest of the unit. -/
theorem Context.offer_length (c : Context) (cap : Nat) :
    (c.offer cap).length = min cap (c.unitBytes.length - c.unitOff) := by
  simp [Context.offer]

/-- A prefix of what one write is offered is a prefix of the rest of the unit. -/
theorem Context.offer_take (c : Context) (cap k : Nat) (h : k ≤ (c.offer cap).length) :
    (c.offer cap).take k = (c.unitBytes.drop c.unitOff).take k := by
  rw [Context.offer_length] at h
  rw [Context.offer, List.take_take, Nat.min_eq_left h]

/-! ### The loop -/

/-- How the loop's end answers to the `k` bytes of the unit accepted in it (R112 to R115). -/
def SerEnd.Answers (c : Context) (k : Nat) : SerEnd → Prop
  | .done => c.unitOff + k = c.unitBytes.length ∧ c.goesOn = false
  | .pending c' =>
    (c.unitOff + k = c.unitBytes.length ∧ c.goesOn = true ∧ c' = c.nextUnit)
      ∨ (c.unitOff + k < c.unitBytes.length ∧ c' = (c.advance k).stopped)
  | .failed _ => c.unitOff + k ≤ c.unitBytes.length

/-- What the loop can do from a resume point inside its unit: the writer's stream grows by exactly the next `k` bytes of the
unit, the end says how far the unit is, and no query is made more often than R121 allows. -/
theorem serLoop_spec (fuel : Nat) (c : Context) (w w' : Sink) (e : SerEnd) (hoff : c.unitOff ≤ c.unitBytes.length)
    (h : serLoop fuel c w = .next (e, w')) :
    ∃ k, e.Answers c k ∧ w'.id = w.id ∧
      w'.st.stream = w.st.stream ++ (c.unitBytes.drop c.unitOff).take k ∧
      w'.st.asks ≤ w.st.asks + (c.unitBytes.length - c.unitOff + 1) ∧
      w'.st.writes ≤ w.st.writes + (c.unitBytes.length - c.unitOff + 1) := by
  induction fuel generalizing c w with
  | zero => simp [serLoop] at h
  | succ fuel ih =>
    rw [serLoop] at h
    split at h
    · rename_i hfull
      split at h <;> simp only [Host.Outcome.next.injEq, Prod.mk.injEq] at h <;> obtain ⟨rfl, rfl⟩ := h
      · exact ⟨0, .inl ⟨by simpa using hfull, ‹_›, rfl⟩, rfl, by simp, by omega, by omega⟩
      · exact ⟨0, ⟨by simpa using hfull, ‹_›⟩, rfl, by simp, by omega, by omega⟩
    · rename_i hfull
      have hlt : c.unitOff < c.unitBytes.length := by omega
      split at h
      · simp at h
      · rename_i cap w1 hask
        obtain ⟨hid1, hst1⟩ := Sink.remaining_spec _ _ _ hask
        split at h
        · simp only [Host.Outcome.next.injEq, Prod.mk.injEq] at h
          obtain ⟨rfl, rfl⟩ := h
          exact ⟨0, .inr ⟨by simpa using hlt, rfl⟩, hid1, by simp [hst1], by simp [hst1], by simp [hst1]⟩
        · split at h
          · simp at h
          · rename_i err w2 hwrite
            obtain ⟨hid2, k, hk, -, hst2⟩ := Sink.write_spec _ _ _ _ hwrite
            simp only [Host.Outcome.next.injEq, Prod.mk.injEq] at h
            obtain ⟨rfl, rfl⟩ := h
            have hlen := c.offer_length cap
            refine ⟨k, by simp only [SerEnd.Answers]; omega, hid2.trans hid1, ?_, ?_, ?_⟩
            · simp [hst2, hst1, c.offer_take cap k hk]
            · simp [hst2, hst1]
            · simp [hst2, hst1]
          · rename_i n w2 hwrite
            obtain ⟨hid2, k, hk, hn, hst2⟩ := Sink.write_spec _ _ _ _ hwrite
            obtain rfl := hn n rfl
            have hlen := c.offer_length cap
            split at h
            · rename_i hn0
              subst hn0
              simp only [Host.Outcome.next.injEq, Prod.mk.injEq] at h
              obtain ⟨rfl, rfl⟩ := h
              exact ⟨0, .inr ⟨by simpa using hlt, rfl⟩, hid2.trans hid1, by simp [hst2, hst1],
                by simp [hst2, hst1], by simp [hst2, hst1]⟩
            · have hle : c.unitOff + n ≤ c.unitBytes.length := by omega
              obtain ⟨k, he, hid, hs, ha, hw⟩ := ih (c.advance n) w2 (by simpa using hle) h
              simp only [Context.advance_unitBytes, Context.advance_unitOff] at hs ha hw
              refine ⟨n + k, ?_, hid.trans (hid2.trans hid1), ?_, ?_, ?_⟩
              · cases e with
                | done => simpa [SerEnd.Answers, Nat.add_assoc] using he
                | pending c' => simpa [SerEnd.Answers, Nat.add_assoc] using he
                | failed _ => simpa [SerEnd.Answers, Nat.add_assoc] using he
              · rw [hs, hst2, hst1]
                simp only [c.offer_take cap n hk, List.append_assoc, ← List.drop_drop]
                rw [List.take_add]
              · rw [hst2, hst1] at ha; simp only at ha; omega
              · rw [hst2, hst1] at hw; simp only at hw; omega

/-- The loop never runs out of passes where it has one for each byte to come and one more (R121). -/
theorem serLoop_ne_fault (fuel : Nat) (c : Context) (w : Sink) (f : Fault)
    (hfuel : c.unitBytes.length - c.unitOff < fuel) : serLoop fuel c w ≠ .fault f := by
  induction fuel generalizing c w with
  | zero => omega
  | succ fuel ih =>
    intro h
    rw [serLoop] at h
    split at h
    · split at h <;> simp at h
    · split at h
      · simp at h
      · rename_i cap w1 _
        split at h
        · simp at h
        · split at h
          · simp at h
          · simp at h
          · rename_i n w2 hwrite
            obtain ⟨-, k, hk, hn, -⟩ := Sink.write_spec _ _ _ _ hwrite
            obtain rfl := hn n rfl
            split at h
            · simp at h
            · rw [Context.offer_length] at hk
              exact ih (c.advance n) w2 (by simp only [Context.advance_unitBytes, Context.advance_unitOff]; omega) h

/-! ### SER_STEP -/

/-- The state that each end of the loop leaves, with the outcome it returns (R112 to R115). -/
def SerEnd.apply (n j : Nat) (k : WriterState) (s : State) : SerEnd → State
  | .done => ((s.setWriter j k).dropCtx n).returns .done
  | .pending c => ((s.setWriter j k).setCtx n c).returns (.pending c)
  | .failed e => ((s.setWriter j k).dropCtx n).returns (.writerError e)

/-- SER_STEP gives a next state exactly where its loop ends, and the end says which. -/
theorem serStep_eq_next (n : Nat) (c : Context) (w : Writer) (s t : State) :
    serStep n c w s = .next t ↔
      ∃ e k, serLoop c.passes c ⟨w.id, w.answers, s.writer w.id⟩ = .next (e, k) ∧ t = e.apply n w.id k.st s := by
  unfold serStep
  split <;> rename_i heq <;> simp [heq, SerEnd.apply, eq_comm]

/-- SER_STEP never faults (R121). -/
theorem serStep_ne_fault (n : Nat) (c : Context) (w : Writer) (s : State) (f : Fault) : serStep n c w s ≠ .fault f := by
  unfold serStep
  split <;> try simp
  rename_i heq
  exact absurd heq (serLoop_ne_fault _ _ _ _ (by unfold Context.passes; omega))

end Sys2Proof.Machine
end

