-- ==== Sys2Proof/Laws/Safety.lean ====
section
/-! SUPPORT. The terms that claims use: what an operation that runs SER_STEP does, and what filling a receive buffer leaves. -/

namespace Sys2Proof.Machine

/-- Every unit has its header, so it has a byte to come at its start (30_encoding.md rule R71). -/
theorem Context.four_le_unitBytes (c : Context) : 4 ≤ c.unitBytes.length := by
  unfold Context.unitBytes
  split <;> simp [Context.shortUnit, Context.extendedUnit, Context.chainedUnit, Header.bytes]

/-- An operation that runs SER_STEP has bytes of its unit still to come (R26, R110). -/
theorem RunsSerStep.inUnit {s : State} {c : Nat} {w : Writer} {x : Context} {i : Instr} (h : RunsSerStep s c w x i) :
    x.unitOff < x.unitBytes.length := by
  cases h with
  | start cmd ext _ _ => exact Nat.lt_of_lt_of_le (by decide : 0 < 4) (Context.four_le_unitBytes _)
  | resume _ _ _ hl => exact hl.inUnit

/-- An operation that runs SER_STEP does what SER_STEP does (R107, R116). -/
theorem RunsSerStep.exec_eq {s : State} {c : Nat} {w : Writer} {x : Context} {i : Instr} (h : RunsSerStep s c w x i) :
    exec i s = serStep c x w s := by
  cases h with
  | start cmd ext hr hc => simp [exec, execSerStart, hr, hc]
  | resume _ ext hx _ => simp [exec, execSerResume, hx]

/-- What filling a receive buffer leaves, whatever the receiver's selection becomes (R65). -/
theorem State.fillBuf_filledTo (s : State) (b : Nat) (bs : List Byte) (rest : List Input) (r : Receiver) :
    s.FilledTo b bs rest { ({ s with inputs := rest } : State).fillBuf b bs with rx := r } := by
  have hbuf (k : Nat) := State.fillBuf_buf { s with inputs := rest } b k bs
  have hview (k : Nat) := State.fillBuf_view { s with inputs := rest } b k bs
  constructor
  case buf => exact (hbuf b).trans (if_pos rfl)
  case bufs => exact fun k hk => (hbuf k).trans (if_neg hk)
  case noView =>
    intro k hk
    refine (hview k).trans ?_
    rw [show State.view { s with inputs := rest } k = none from hk]
    split <;> rfl
  case others =>
    intro k x hx hb
    refine (hview k).trans ?_
    rw [show State.view { s with inputs := rest } k = some x from hx]
    split <;> simp [View.spoil, hb]
  case same =>
    intro k x hx _ hs
    exact (hview k).trans ((if_pos hs).trans hx)
  case changed =>
    intro k x hx hb hs
    refine (hview k).trans ((if_neg hs).trans ?_)
    rw [show State.view { s with inputs := rest } k = some x from hx]
    simp [View.spoil, hb]
  all_goals simp

end Sys2Proof.Machine
end

