-- ==== Sys2Proof/Tests/Slice0.lean ====
section
/-! SUPPORT. Tests: the checks of WellFormed, the decoding of words written out from the spec's encodings, the vectors of
95_test_vectors.md (named in each comment), and for every obligation with hypotheses a witness that meets them. -/

namespace Sys2Proof.Tests

set_option Elab.async false

open Sys2Proof Sys2Proof.Machine

/-! ### Helpers -/

/-- The state an operation leaves, if it completes. -/
def ran (o : Host.Outcome State Fault Refusal) : Option State :=
  match o with
  | .next s => some s
  | .fault _ => none
  | .refused _ => none

/-- Why an operation is refused, if it is. -/
def refusedWith (o : Host.Outcome State Fault Refusal) : Option Refusal :=
  match o with
  | .refused r => some r
  | .next _ => none
  | .fault _ => none

/-- Operations issued one after the other, from a state. -/
def runAll : List Instr → State → Option State
  | [], s => some s
  | i :: is, s => (ran (exec i s)).bind (runAll is)

/-- The outcome returned, and what writer `j` holds. -/
def wrote (j : Nat) (t : Option State) : Option (Option OpOutcome × List Byte) :=
  t.map fun s => (s.outcome, (s.writer j).stream)

/-- The header `00 A4 04 00` of the spec's worked example. -/
def selectHeader : Header := ⟨0x00#8, 0xA4#8, 0x04#8, 0x00#8⟩

/-- A header of instruction `ins`, everything else zero. -/
def plain (ins : Byte) : Header := ⟨0x00#8, ins, 0x00#8, 0x00#8⟩

/-- The command of V-S10. -/
def selectAid : LogicalCommand := ⟨selectHeader, [0xA0#8, 0x00#8, 0x00#8, 0x03#8, 0x08#8], 0⟩

/-- The state after reset with these bytes in receive buffer 0. -/
def received (bs : List Byte) : State := State.reset.fillBuf 0 bs

/-- What PARSE of these bytes returns. -/
def parsed (bs : List Byte) : Option OpOutcome := (ran (exec (.parse 0 0) (received bs))).bind fun s => s.outcome

/-- The units folded into accumulator 0 of capacity `n` (`FOLD`, R89): the last outcome, and the accumulator's state, length,
header and expected length. -/
def folded (n : Nat) (us : List (List Byte)) : Option (Option OpOutcome × AState × Nat × Option Header × Option Nat) :=
  (ran (foldUnits 0 0 0 us (State.reset.setAcc 0 (Acc.fresh n)))).map fun s =>
    (s.outcome, (s.acc 0).state, (s.acc 0).len, (s.acc 0).hdr, (s.acc 0).le)

/-! ### WellFormed: each check refuses an ill-formed term -/

theorem test_wf_refuses_long_data (d : List Byte) (h : d.length = 65536) :
    (Instr.serStart 0 ⟨selectHeader, d, 0⟩ false ⟨0, .buf 0⟩).wf = false := by
  simp [Instr.wf, LogicalCommand.inRange, h]

theorem test_wf_refuses_large_le : (Instr.serStart 0 ⟨selectHeader, [], 65537⟩ true ⟨0, .buf 0⟩).wf = false := by decide

theorem test_wf_refuses_empty_short_payload :
    (Instr.uSLc selectHeader []).wf = false ∧ (Instr.uSLcLe selectHeader [] 0#8).wf = false := by decide

theorem test_wf_refuses_long_short_payload :
    (Instr.uSLc selectHeader (List.replicate 256 0#8)).wf = false
      ∧ (Instr.uSLcLe selectHeader (List.replicate 256 0#8) 0#8).wf = false := by decide +kernel

theorem test_wf_refuses_empty_extended_payload :
    (Instr.uELc selectHeader []).wf = false ∧ (Instr.uELcLe selectHeader [] 0#16).wf = false := by decide

theorem test_wf_refuses_long_extended_payload (d : List Byte) (h : d.length = 65536) :
    (Instr.uELc selectHeader d).wf = false ∧ (Instr.uELcLe selectHeader d 0#16).wf = false := by
  simp [Instr.wf, extPayload, h]

theorem test_wfCmd_refuses_chaining_bit : LogicalCommand.wfCmd ⟨⟨0x10#8, 0xA4#8, 0x04#8, 0x00#8⟩, [], 0⟩ = false := by decide

/-! ### Decoding: words written out from 30_encoding.md rules R76 and R85

The operands after an OP byte are the model's layout (log entry 1). -/

theorem test_decode_SER_START :
    decode .op [0x01#8, 0x03#8, 0x00#8, 0xA4#8, 0x04#8, 0x00#8, 0x02#8, 0x3F#8, 0x00#8, 0x80#8, 0x02#8, 0x01#8, 0x05#8, 0x00#8,
      0x0A#8] = .ok (.serStart 3 ⟨selectHeader, [0x3F#8, 0x00#8], 256⟩ true ⟨5, .buf 10⟩) := by decide +kernel

theorem test_decode_SER_RESUME :
    decode .op [0x02#8, 0x03#8, 0x00#8, 0x05#8, 0x02#8, 0x02#8, 0x00#8, 0x0A#8, 0x01#8, 0x04#8]
      = .ok (.serResume 3 false ⟨5, .given [.remaining 10, .ok 4]⟩) := by decide +kernel

theorem test_decode_SER_CANCEL : decode .op [0x03#8, 0x07#8] = .ok (.serCancel 7) := by decide +kernel

theorem test_decode_PARSE : decode .op [0x10#8, 0x01#8, 0x02#8] = .ok (.parse 1 2) := by decide +kernel

theorem test_decode_ACC_NEW : decode .op [0x20#8, 0x01#8, 0x80#8, 0x04#8] = .ok (.accNew 1 512) := by decide +kernel

theorem test_decode_ACC_EXTEND : decode .op [0x21#8, 0x01#8, 0x02#8] = .ok (.accExtend 1 2) := by decide +kernel

theorem test_decode_ACC_READ : decode .op [0x22#8, 0x01#8] = .ok (.accRead 1) := by decide +kernel

/-- R87. -/
theorem test_decode_refuses_unknown_code : decode .op [0x04#8] = .error (.badOp 0x04#8) := by decide +kernel

theorem test_decode_refuses_trailing_bytes : decode .op [0x22#8, 0x01#8, 0x00#8] = .error .badRecord := by decide +kernel

/-- The unit of V-P4. -/
theorem test_decode_U_HDR : decode .unit [0x00#8, 0xA4#8, 0x04#8, 0x00#8] = .ok (.uHdr selectHeader) := by decide +kernel

/-- The unit of V-P6. -/
theorem test_decode_U_S_LE :
    decode .unit [0x00#8, 0xB0#8, 0x00#8, 0x00#8, 0x10#8] = .ok (.uSLe (plain 0xB0#8) 0x10#8) := by decide +kernel

/-- The unit of V-P11. -/
theorem test_decode_U_S_LC :
    decode .unit [0x00#8, 0xA4#8, 0x04#8, 0x00#8, 0x02#8, 0x3F#8, 0x00#8] = .ok (.uSLc selectHeader [0x3F#8, 0x00#8]) := by
  decide +kernel

/-- The unit of V-S11. -/
theorem test_decode_U_S_LC_LE :
    decode .unit [0x00#8, 0xA4#8, 0x04#8, 0x00#8, 0x03#8, 0x3F#8, 0x00#8, 0x10#8, 0x00#8]
      = .ok (.uSLcLe selectHeader [0x3F#8, 0x00#8, 0x10#8] 0x00#8) := by decide +kernel

/-- The unit of V-S7. -/
theorem test_decode_U_E_LE :
    decode .unit [0x00#8, 0xB0#8, 0x00#8, 0x00#8, 0x00#8, 0x01#8, 0x01#8] = .ok (.uELe (plain 0xB0#8) 0x0101#16) := by
  decide +kernel

/-- The unit of V-P13. -/
theorem test_decode_U_E_LC :
    decode .unit [0x00#8, 0xD6#8, 0x00#8, 0x00#8, 0x00#8, 0x00#8, 0x02#8, 0xAA#8, 0xBB#8]
      = .ok (.uELc (plain 0xD6#8) [0xAA#8, 0xBB#8]) := by decide +kernel

/-- The unit of V-P15. -/
theorem test_decode_U_E_LC_LE :
    decode .unit [0x00#8, 0xD6#8, 0x00#8, 0x00#8, 0x00#8, 0x00#8, 0x02#8, 0xAA#8, 0xBB#8, 0x01#8, 0x00#8]
      = .ok (.uELcLe (plain 0xD6#8) [0xAA#8, 0xBB#8] 0x0100#16) := by decide +kernel

/-! ### The serializer -/

/-- V-S12: both length fields extended. -/
theorem test_SER_START_extended :
    wrote 0 (ran (exec (.serStart 0 ⟨selectHeader, [1#8, 2#8, 3#8, 4#8, 5#8], 257⟩ true ⟨0, .buf 100⟩) State.reset))
      = some (some .done, [0x00#8, 0xA4#8, 0x04#8, 0x00#8, 0x00#8, 0x00#8, 0x05#8, 1#8, 2#8, 3#8, 4#8, 5#8, 0x01#8, 0x01#8]) := by
  decide +kernel

/-- V-S28: the command of L1.1 with `fail(2)`. -/
theorem test_SER_START_writer_error :
    wrote 0 (ran (exec (.serStart 0 ⟨selectHeader, List.replicate 300 0#8, 0⟩ false ⟨0, .fail 2⟩) State.reset))
      = some (some (.writerError 0), [0x10#8, 0xA4#8]) := by decide +kernel

/-- V-S17: 256 payload bytes make two units, and the second has one payload byte and its chaining bit clear. -/
theorem test_SER_RESUME_second_unit :
    wrote 1 (runAll [.serStart 0 ⟨plain 0xD6#8, List.replicate 255 7#8 ++ [0xFF#8], 0⟩ false ⟨0, .buf 1000⟩,
        .serResume 0 false ⟨1, .buf 1000⟩] State.reset)
      = some (some .done, [0x00#8, 0xD6#8, 0x00#8, 0x00#8, 0x01#8, 0xFF#8]) := by decide +kernel

/-- V-S27, cut to its first two calls: the split falls inside the extended Lc. -/
theorem test_SER_RESUME_inside_lc :
    ((runAll [.serStart 0 ⟨plain 0xD6#8, List.replicate 300 0#8, 0⟩ true ⟨0, .buf 5⟩, .serResume 0 true ⟨1, .buf 1⟩]
        State.reset).bind fun s => (s.ctx 0).map fun c => ((s.writer 1).stream, c.unitOff, c.mode, c.resumeKind))
      = some ([0x01#8], 6, .extended, .midUnit) := by decide +kernel

/-- V-S25 and V-S34: the cancelled context is not live, so resuming it is refused. -/
theorem test_SER_CANCEL :
    ((runAll [.serStart 0 selectAid false ⟨0, .buf 0⟩, .serCancel 0] State.reset).map fun s =>
        (s.outcome, refusedWith (exec (.serResume 0 false ⟨1, .buf 100⟩) s)))
      = some (some .ok, some .resumeNotLive) := by decide +kernel

/-! ### The parser and the unit forms -/

/-- V-P14. -/
theorem test_PARSE_extended :
    parsed [0x00#8, 0xD6#8, 0x00#8, 0x00#8, 0x00#8, 0x00#8, 0x02#8, 0xAA#8, 0xBB#8, 0x00#8, 0x00#8]
      = some (.okView (mkView (plain 0xD6#8) 0 7 2 65536 true)) := by decide +kernel

/-- V-P20. -/
theorem test_PARSE_mixed_forms :
    parsed [0x00#8, 0xA4#8, 0x04#8, 0x00#8, 0x02#8, 0x3F#8, 0x00#8, 0x00#8, 0x00#8] = some (.parseError .mixedForms) := by
  decide +kernel

/-- The unit of each form delivered by the transport (V-P4, V-P5, V-P11, V-P12, V-P8, V-P26 and V-P15): the view it becomes. -/
def delivered (bs : List Byte) : Option (Byte × Nat × Nat × Nat × Bool × Bool) :=
  match ran (step { State.reset with inputs := [.unit 1 2 bs] }) with
  | some s => (s.view 1).map fun v => (v.hdr.cla, v.doff, v.dlen, v.le, v.ext, v.chained)
  | none => none

theorem test_U_HDR : delivered [0x00#8, 0xA4#8, 0x04#8, 0x00#8] = some (0x00#8, 4, 0, 0, false, false) := by decide +kernel

theorem test_U_S_LE :
    delivered [0x00#8, 0xB0#8, 0x00#8, 0x00#8, 0x00#8] = some (0x00#8, 4, 0, 256, false, false) := by decide +kernel

theorem test_U_S_LC :
    delivered [0x00#8, 0xA4#8, 0x04#8, 0x00#8, 0x02#8, 0x3F#8, 0x00#8] = some (0x00#8, 5, 2, 0, false, false) := by
  decide +kernel

theorem test_U_S_LC_LE :
    delivered [0x00#8, 0xA4#8, 0x04#8, 0x00#8, 0x02#8, 0x3F#8, 0x00#8, 0x00#8] = some (0x00#8, 5, 2, 256, false, false) := by
  decide +kernel

theorem test_U_E_LE :
    delivered [0x00#8, 0xB0#8, 0x00#8, 0x00#8, 0x00#8, 0x00#8, 0x00#8] = some (0x00#8, 4, 0, 65536, true, false) := by
  decide +kernel

theorem test_U_E_LC :
    delivered [0x10#8, 0xD6#8, 0x00#8, 0x00#8, 0x00#8, 0x00#8, 0x01#8, 0xAA#8] = some (0x10#8, 7, 1, 0, true, true) := by
  decide +kernel

theorem test_U_E_LC_LE :
    delivered [0x00#8, 0xD6#8, 0x00#8, 0x00#8, 0x00#8, 0x00#8, 0x02#8, 0xAA#8, 0xBB#8, 0x01#8, 0x00#8]
      = some (0x00#8, 7, 2, 256, true, false) := by decide +kernel

/-! ### The accumulator -/

/-- V-A1. -/
theorem test_ACC_NEW :
    (runAll [.accNew 0 512, .accRead 0] State.reset).map (fun s => (s.outcome, (s.acc 0).cap))
      = some (some (.okRead .empty), 512) := by decide +kernel

/-- V-A12: the last view's expected length wins. -/
theorem test_ACC_EXTEND_chain :
    folded 16 [[0x10#8, 0xA4#8, 0x04#8, 0x00#8, 0x01#8, 0xAA#8, 0x05#8], [0x00#8, 0xA4#8, 0x04#8, 0x00#8, 0x01#8, 0xBB#8]]
      = some (some .complete, .complete, 2, some selectHeader, some 0) := by decide +kernel

/-- V-A7, its first unit cut to one payload byte: bit 0 of the class differs. -/
theorem test_ACC_EXTEND_header_mismatch :
    folded 512 [[0x10#8, 0xA4#8, 0x04#8, 0x00#8, 0x01#8, 0xAA#8], [0x01#8, 0xA4#8, 0x04#8, 0x00#8, 0x01#8, 0xAA#8]]
      = some (some .headerMismatch, .failed, 1, some selectHeader, some 0) := by decide +kernel

/-- V-A14, then ACC_READ: an extended and a short unit in one chain. -/
theorem test_ACC_READ :
    ((ran (foldUnits 0 0 0
          [[0x10#8, 0xD6#8, 0x00#8, 0x00#8, 0x00#8, 0x00#8, 0x01#8, 0xAA#8],
            [0x00#8, 0xD6#8, 0x00#8, 0x00#8, 0x01#8, 0xBB#8, 0x00#8]]
          (State.reset.setAcc 0 (Acc.fresh 512)))).bind fun s => (ran (exec (.accRead 0) s)).map fun t => t.outcome)
      = some (some (.okRead (.fields .complete (plain 0xD6#8) [0xAA#8, 0xBB#8] 256))) := by decide +kernel

/-! ### The words of the opcode table, run as the first instruction after reset -/

/-- ACC_NEW with zero operands, placed where step fetches. -/
theorem test_withFetchWord_operation :
    (ran (step (State.reset.withFetchWord 8 0x20))).map (fun s => (s.outcome, (s.acc 0).cap)) = some (some .ok, 0) := by
  decide +kernel

/-- The unit of V-P4, placed where step fetches. -/
theorem test_withFetchWord_unit :
    (ran (step (State.reset.withFetchWord 32 0x0004A400))).map (fun s => (s.view 0).map fun v => (v.hdr, v.doff, v.dlen))
      = some (some (selectHeader, 4, 0)) := by decide +kernel

/-- R61: operations run in the order they are issued. -/
theorem test_step_takes_one_input :
    (ran (step { State.reset with inputs := [.op [0x20#8, 0x00#8, 0x05#8], .reset] })).map
      (fun s => ((s.acc 0).cap, s.inputs)) = some (5, [.reset]) := by decide +kernel

/-! ### Witnesses: concrete states and operands that meet the hypotheses of each obligation -/

theorem completes {o : Host.Outcome State Fault Refusal} (h : (ran o).isSome = true) : ∃ t, o = .next t := by
  cases o with
  | next t => exact ⟨t, rfl⟩
  | fault f => simp [ran] at h
  | refused r => simp [ran] at h

/-- 256 payload bytes: a chain of two units. -/
def longCommand : LogicalCommand := ⟨plain 0xD6#8, List.replicate 256 0x5A#8, 300⟩

/-- A short unit of which three bytes are out. -/
def shortContext : Context := { startContext selectAid false with unitOff := 3 }

/-- The second and last unit of a chain, at its first byte. -/
def lastContext : Context := { unitContext longCommand false 1 with resumeKind := .chainBoundary }

/-- An extended unit stopped inside its Lc. -/
def extendedContext : Context := { startContext ⟨plain 0xD6#8, [0xAA#8], 65536⟩ true with unitOff := 5 }

theorem shortContext_legal : shortContext.Legal := by constructor <;> decide +kernel
theorem firstContext_legal : (unitContext longCommand false 0).Legal := by constructor <;> decide +kernel
theorem lastContext_legal : lastContext.Legal := by constructor <;> decide +kernel
theorem extendedContext_legal : extendedContext.Legal := by constructor <;> decide +kernel

/-- Contexts 0 and 1 live. -/
def sending : State := { State.reset with ctxs := [(0, shortContext), (1, lastContext)] }

/-- View 0 of a chained unit in buffer 0, view 1 of a final one in buffer 1; accumulator 0 is EMPTY, 1 is CONTINUING, 2 is
COMPLETE and 3 is FAILED. -/
def folding : State :=
  { State.reset with
    bufs := [(0, [0x10#8, 0xA4#8, 0x04#8, 0x00#8, 0x01#8, 0xAA#8]), (1, [0x00#8, 0xA4#8, 0x04#8, 0x00#8, 0x01#8, 0xBB#8])]
    views := [(0, mkView ⟨0x10#8, 0xA4#8, 0x04#8, 0x00#8⟩ 0 5 1 0 false), (1, mkView selectHeader 1 5 1 0 false)]
    accs := [(0, Acc.fresh 4), (1, ⟨4, .continuing, some selectHeader, 1, some 0, [(0, 0xAA#8)]⟩),
      (2, ⟨4, .complete, some selectHeader, 1, some 0, [(0, 0xAA#8)]⟩), (3, ⟨0, .failed, none, 0, none, []⟩)] }

theorem witness_DecodeOfEncodeGivesInstruction :
    (Instr.serStart 0 ⟨selectHeader, [], 65536⟩ true ⟨0, .given []⟩).wf = true ∧
      (Instr.uSLcLe selectHeader (List.replicate 255 0#8) 0#8).wf = true ∧ (Instr.uELc selectHeader [0#8]).wf = true := by
  decide +kernel

theorem witness_UnitBytesHaveOneReading :
    decode .unit [0x00#8, 0xA4#8, 0x04#8, 0x00#8, 0x01#8, 0x3F#8] = .ok (.uSLc selectHeader [0x3F#8]) := by decide +kernel

theorem witness_RecordBytesHaveOneReading : decode .op [0x20#8, 0x01#8, 0x80#8, 0x04#8] = .ok (.accNew 1 512) := by
  decide +kernel

/-- One legal context in each mode, and one that is not final. -/
theorem witness_UnitBytesAreATableForm :
    shortContext.Legal ∧ extendedContext.Legal ∧ (unitContext longCommand false 0).Legal ∧ lastContext.Legal :=
  ⟨shortContext_legal, extendedContext_legal, firstContext_legal, lastContext_legal⟩

theorem witness_UnitLengthFormulaHolds : shortContext.Legal ∧ extendedContext.Legal ∧ lastContext.Legal :=
  ⟨shortContext_legal, extendedContext_legal, lastContext_legal⟩

theorem witness_StepRunsDecodedOperation :
    ({ State.reset with inputs := [.op [0x22#8, 0x01#8]] } : State).inputs = .op [0x22#8, 0x01#8] :: [] ∧
      decode .op [0x22#8, 0x01#8] = .ok (.accRead 1) := by decide +kernel

/-- Views 0 and 1 are in buffers 0 and 1: the unit changes the bytes of the first or leaves those of the second as they are; no
view has number 2. -/
theorem witness_StepRunsDecodedUnit :
    (({ folding with inputs := [.unit 2 0 [0x00#8, 0xA4#8, 0x04#8, 0x00#8]] } : State).inputs
        = .unit 2 0 [0x00#8, 0xA4#8, 0x04#8, 0x00#8] :: [] ∧
      decode .unit [0x00#8, 0xA4#8, 0x04#8, 0x00#8] = .ok (.uHdr selectHeader) ∧
      folding.buf 0 ≠ [0x00#8, 0xA4#8, 0x04#8, 0x00#8]) ∧
    (({ folding with inputs := [.unit 2 1 (folding.buf 1)] } : State).inputs = .unit 2 1 (folding.buf 1) :: [] ∧
      decode .unit (folding.buf 1) = .ok (.uSLc selectHeader [0xBB#8])) ∧
    (folding.view 0).map (fun x => x.buf) = some 0 ∧ (folding.view 1).map (fun x => x.buf) = some 1 ∧
    folding.view 2 = none := by decide +kernel

theorem witness_StepWaitsWithoutInput : State.reset.inputs = [] := rfl

theorem witness_UnknownOperationCodeRefused :
    0x04#8 ∉ [0x01#8, 0x02#8, 0x03#8, 0x10#8, 0x20#8, 0x21#8, 0x22#8] ∧
      ({ State.reset with inputs := [.op [0x04#8]] } : State).inputs = .op (0x04#8 :: []) :: [] := by decide +kernel

theorem witness_InvalidClassRejectedBeforeOutput :
    LogicalCommand.inRange ⟨⟨0xEF#8, 0xA4#8, 0x04#8, 0x00#8⟩, [], 0⟩ = true := by decide

theorem witness_CommandOutOfRangeRefused :
    65535 < (⟨selectHeader, List.replicate 65536 0#8, 0⟩ : LogicalCommand).data.length ∧
      65536 < (⟨selectHeader, [], 65537⟩ : LogicalCommand).le := by
  exact ⟨Nat.lt_of_lt_of_eq (by decide) List.length_replicate.symm, by decide⟩

/-- A command that is one unit, and one that is a chain; the capacity is the unit's length exactly. -/
theorem witness_SerStartWritesItsFirstUnit :
    (selectAid.inRange = true ∧ selectAid.hdr.cla ≠ 0xEF#8 ∧ (startContext selectAid false).unitBytes.length ≤ 10) ∧
      (longCommand.inRange = true ∧ longCommand.hdr.cla ≠ 0xEF#8 ∧ (startContext longCommand false).unitBytes.length ≤ 260) := by
  decide +kernel

theorem witness_SerResumeFinishesItsUnit :
    sending.ctx 0 = some shortContext ∧ shortContext.Legal ∧
      (sending.writer 0).stream.length + (shortContext.unitBytes.length - shortContext.unitOff) ≤ 7 :=
  ⟨by decide +kernel, shortContext_legal, by decide +kernel⟩

/-- A SER_START at the first byte of a unit, with any writer. -/
theorem starts (w : Writer) :
    RunsSerStep State.reset 0 w (startContext selectAid false) (.serStart 0 selectAid false w) :=
  .start selectAid false (by decide) (by decide)

/-- A SER_RESUME inside a unit, with any writer. -/
theorem resumes (w : Writer) : RunsSerStep sending 0 w shortContext (.serResume 0 true w) :=
  .resume shortContext true (by decide +kernel) shortContext_legal

/-- A writer that answers 0, and a `buf` writer that is full exactly, of either operation. -/
theorem witness_SerResumeWithoutCapacityStops :
    (∃ x i, RunsSerStep State.reset 0 ⟨0, .given [.remaining 0]⟩ x i) ∧ (∃ x i, RunsSerStep State.reset 0 ⟨0, .buf 0⟩ x i) ∧
      (∃ x i, RunsSerStep sending 0 ⟨0, .given [.remaining 0]⟩ x i) ∧ (∃ x i, RunsSerStep sending 0 ⟨0, .buf 0⟩ x i) ∧
      0 ≤ (State.reset.writer 0).stream.length ∧ 0 ≤ (sending.writer 0).stream.length :=
  ⟨⟨_, _, starts _⟩, ⟨_, _, starts _⟩, ⟨_, _, resumes _⟩, ⟨_, _, resumes _⟩, Nat.zero_le _, Nat.zero_le _⟩

/-- Each operation stops inside the unit, ends it, or meets a writer's error. -/
theorem witness_SerResumeAccountsForItsBytes (as : Answers) (h : as = .buf 3 ∨ as = .buf 100 ∨ as = .fail 1) :
    (∃ x i t, RunsSerStep State.reset 0 ⟨0, as⟩ x i ∧ exec i State.reset = .next t) ∧
      (∃ x i t, RunsSerStep sending 0 ⟨0, as⟩ x i ∧ exec i sending = .next t) := by
  have h1 : ∃ t, exec (.serStart 0 selectAid false ⟨0, as⟩) State.reset = .next t := by
    rcases h with rfl | rfl | rfl <;> exact completes (by decide +kernel)
  have h2 : ∃ t, exec (.serResume 0 true ⟨0, as⟩) sending = .next t := by
    rcases h with rfl | rfl | rfl <;> exact completes (by decide +kernel)
  exact ⟨h1.elim fun t ht => ⟨_, _, t, starts _, ht⟩, h2.elim fun t ht => ⟨_, _, t, resumes _, ht⟩⟩

theorem witness_ResumeIgnoresItsFlag :
    sending.ctx 0 = some shortContext ∧ ∃ t, exec (.serResume 0 true ⟨0, .buf 3⟩) sending = .next t :=
  ⟨by decide +kernel, completes (by decide +kernel)⟩

theorem witness_WriterQueriesAreBounded :
    (∃ x i t, RunsSerStep State.reset 0 ⟨0, .buf 3⟩ x i ∧ exec i State.reset = .next t) ∧
      (∃ x i t, RunsSerStep sending 0 ⟨0, .buf 3⟩ x i ∧ exec i sending = .next t) :=
  witness_SerResumeAccountsForItsBytes _ (.inl rfl)

theorem witness_ResumeOfDeadContextRefused : State.reset.ctx 0 = none := rfl

/-- Every kind of writer; the listed answers take the last byte of the unit in two writes, stop at 0, or err. -/
theorem witness_SerCompletesWithEveryConformingWriter :
    selectAid.inRange = true ∧ sending.ctx 0 = some shortContext ∧
      (∀ as ∈ [Answers.buf 0, .fail 2, .given [], .given [.remaining 3, .ok 3, .remaining 9, .ok 4], .given [.remaining 0, .ok 9],
          .given [.remaining 1, .err 5 1]],
        conform (startContext selectAid false).unitBytes.length as = true ∧
          conform (shortContext.unitBytes.length - shortContext.unitOff) as = true) := by
  decide +kernel

/-- Answers outside the contract do not conform: of the wrong query, and more than was offered. -/
theorem test_conform_refuses :
    conform 4 (.given [.ok 1]) = false ∧ conform 4 (.given [.remaining 9, .ok 5]) = false ∧
      conform 4 (.given [.remaining 2, .err 0 3]) = false ∧ conform 4 (.given [.remaining 2, .remaining 2]) = false := by
  decide +kernel

/-- The answers of a writer that errs with 5 after these writes, having appended `k` bytes of the last. -/
def erring (taken : List (Nat × Nat)) (cap k : Nat) : Answers :=
  .given (taken.flatMap (fun p => [.remaining p.1, .ok p.2]) ++ .remaining cap :: .err 5 k :: [])

/-- The error at the first write of a SER_START, with nothing appended, and after two writes of a SER_RESUME, at all of the seven
bytes left. -/
theorem witness_WriterErrorAbandonsTheCommand :
    ((∃ i, RunsSerStep State.reset 0 ⟨0, erring [] 1 0⟩ (startContext selectAid false) i) ∧
        (startContext selectAid false).unitOff + 0 < (startContext selectAid false).unitBytes.length) ∧
      ((∃ i, RunsSerStep sending 0 ⟨0, erring [(9, 2), (1, 1)] 4 4⟩ shortContext i) ∧
        shortContext.unitOff + ([(9, 2), (1, 1)].map Prod.snd).sum < shortContext.unitBytes.length ∧
        shortContext.unitOff + ([(9, 2), (1, 1)].map Prod.snd).sum + 4 = shortContext.unitBytes.length) ∧
      (∀ p ∈ [(9, 2), (1, 1)], 0 < p.2 ∧ p.2 ≤ p.1) :=
  ⟨⟨⟨_, starts _⟩, by decide +kernel⟩, ⟨⟨_, resumes _⟩, by decide +kernel⟩, by decide⟩

/-- For each operation: an answer to the other query, an Ok and an Err one past what was offered (the capacity, or the rest of
the unit), and one past it in a second write. -/
theorem witness_AnswerOutsideContractRefused :
    (∀ as ∈ [Answers.given [.ok 1], .given [.remaining 2, .remaining 2], .given [.remaining 2, .ok 3],
          .given [.remaining 99, .ok 11], .given [.remaining 2, .err 0 3], .given [.remaining 2, .ok 2, .remaining 1, .ok 2]],
        (∃ i, RunsSerStep State.reset 0 ⟨0, as⟩ (startContext selectAid false) i) ∧
          conform ((startContext selectAid false).unitBytes.length - (startContext selectAid false).unitOff) as = false) ∧
      (∀ as ∈ [Answers.given [.err 0 0], .given [.remaining 4, .ok 5], .given [.remaining 99, .ok 8],
          .given [.remaining 99, .err 0 8], .given [.remaining 2, .ok 2, .remaining 9, .ok 6]],
        (∃ i, RunsSerStep sending 0 ⟨0, as⟩ shortContext i) ∧
          conform (shortContext.unitBytes.length - shortContext.unitOff) as = false) :=
  ⟨fun as h => ⟨⟨_, starts _⟩, (by decide +kernel :
      ∀ as ∈ [Answers.given [.ok 1], .given [.remaining 2, .remaining 2], .given [.remaining 2, .ok 3],
          .given [.remaining 99, .ok 11], .given [.remaining 2, .err 0 3], .given [.remaining 2, .ok 2, .remaining 1, .ok 2]],
        conform ((startContext selectAid false).unitBytes.length - (startContext selectAid false).unitOff) as = false) as h⟩,
    fun as h => ⟨⟨_, resumes _⟩, (by decide +kernel :
      ∀ as ∈ [Answers.given [.err 0 0], .given [.remaining 4, .ok 5], .given [.remaining 99, .ok 8],
          .given [.remaining 99, .err 0 8], .given [.remaining 2, .ok 2, .remaining 9, .ok 6]],
        conform (shortContext.unitBytes.length - shortContext.unitOff) as = false) as h⟩⟩

theorem witness_SerTouchesOnlyWhatItNames :
    (∃ t, exec (.serStart 0 selectAid false ⟨0, .buf 100⟩) sending = .next t) ∧
      (∃ t, exec (.serResume 0 false ⟨0, .buf 100⟩) sending = .next t) :=
  ⟨completes (by decide +kernel), completes (by decide +kernel)⟩

/-- V-S10 with writers of 4 bytes: the third call ends it. -/
theorem witness_BytesSentAreTheUnitsInOrder :
    ∃ t bs, sendAll 0 selectAid false ⟨0, .buf 4⟩ [⟨1, .buf 4⟩, ⟨2, .buf 4⟩] State.reset = .next (t, bs) ∧
      t.outcome = some .done ∧ selectAid.hdr.cla ≠ 0xEF#8 := by
  refine ⟨_, _, rfl, ?_, ?_⟩ <;> decide +kernel

theorem witness_CommandIsSentInTheCountedCalls :
    let ws : List Writer := [⟨0, .buf 4⟩, ⟨1, .buf 4⟩, ⟨2, .buf 4⟩]
    selectAid.inRange = true ∧ selectAid.hdr.cla ≠ 0xEF#8 ∧
      (∀ x ∈ ws, x.answers = .buf 4 ∧ (State.reset.writer x.id).stream = []) ∧ (ws.map Writer.id).Nodup ∧
      ws.length = callsNeeded selectAid false 4 := by
  decide +kernel

theorem sending_legal : sending.Inv where
  ctxsSorted := rfl
  viewsSorted := rfl
  accsSorted := rfl
  bufsSorted := rfl
  writersSorted := rfl
  bufsListed := by simp [sending, State.reset]
  writersListed := by simp [sending, State.reset]
  ctxs := by
    intro c x h
    simp only [State.ctx, sending, Slots.get] at h
    split at h
    · cases h; exact shortContext_legal
    · split at h
      · cases h; exact lastContext_legal
      · cases h
  views := by intro v x h; cases h
  fresh := by intro v x h; cases h
  accs := by
    intro a
    constructor <;> simp [State.acc, sending, State.reset, Acc.fresh, Memory.wf, Slots.sorted, Memory.read]

theorem witness_ResumesOfDifferentContextsCommute :
    sending.Inv ∧ ∃ s1 s2, exec (.serResume 0 false ⟨0, .buf 100⟩) sending = .next s1 ∧
      exec (.serResume 1 false ⟨1, .buf 100⟩) s1 = .next s2 := by
  obtain ⟨s1, h1⟩ := completes (o := exec (.serResume 0 false ⟨0, .buf 100⟩) sending) (by decide +kernel)
  have h2 : (ran (exec (.serResume 0 false ⟨0, .buf 100⟩) sending)).any
      (fun s => (ran (exec (.serResume 1 false ⟨1, .buf 100⟩) s)).isSome) = true := by decide +kernel
  rw [h1] at h2
  obtain ⟨s2, h2⟩ := completes (o := exec (.serResume 1 false ⟨1, .buf 100⟩) s1) (by simpa [ran] using h2)
  exact ⟨sending_legal, s1, s2, h1, h2⟩

/-- A unit, one of class 0xEF (V-P27), bytes too few and, of class 0xEF, bytes that are no unit. -/
theorem witness_ParseIsDecodeThenMeaning :
    (folding.rx = ⟨0, 0⟩ ∧ decode .unit (folding.buf 0) = .ok (.uSLc ⟨0x10#8, 0xA4#8, 0x04#8, 0x00#8⟩ [0xAA#8])) ∧
      (∀ bs, (received bs).rx = ⟨0, 0⟩) ∧
      decode .unit ((received [0xEF#8, 0xA4#8, 0x04#8, 0x00#8]).buf 0) = .ok (.uHdr ⟨0xEF#8, 0xA4#8, 0x04#8, 0x00#8⟩) ∧
      decode .unit ((received [0x00#8]).buf 0) = .error (.notUnit .tooShort) ∧
      decode .unit ((received [0xEF#8, 0xA4#8, 0x04#8, 0x00#8, 0x00#8, 0x05#8]).buf 0)
        = .error (.notUnit .badLengthMarker) :=
  ⟨by decide +kernel, fun bs => State.fillBuf_rx _ _ _, by decide +kernel, by decide +kernel, by decide +kernel⟩

theorem witness_ParseOfEmittedUnit :
    lastContext.Legal ∧ (received lastContext.unitBytes).buf 0 = lastContext.unitBytes ∧
      rejectsClass lastContext.unitCla = false :=
  ⟨lastContext_legal, by decide +kernel, by decide +kernel⟩

/-- Both ways to be one unit: an extended one, and a short one with its expected length clamped. -/
theorem witness_SingleUnitRoundTrip :
    (LogicalCommand.wfCmd ⟨selectHeader, [1#8], 257⟩ = true ∧
        (startContext ⟨selectHeader, [1#8], 257⟩ true).unitBytes.length ≤ 100 ∧
        (startContext ⟨selectHeader, [1#8], 257⟩ false).unitBytes.length ≤ 100) ∧ selectHeader.cla ≠ 0xEF#8 := by decide +kernel

/-- A buffer for each clause, in their order; the last two clauses at their two outcomes. -/
theorem witness_MalformedUnitsGiveTheirReason :
    let h := selectHeader
    let d : List Byte := [0x3F#8, 0x00#8]
    rejectsClass h.cla = false ∧ ((received [0x00#8, 0xA4#8, 0x04#8]).buf 0).length < 4 ∧
      (received (h.bytes ++ [0x00#8, 0x05#8])).buf 0 = h.bytes ++ [0x00#8, 0x05#8] ∧
      (received (h.bytes ++ [0x00#8, 0x00#8, 0x00#8] ++ d)).buf 0 = h.bytes ++ [0x00#8, 0x00#8, 0x00#8] ++ d ∧
      d.length < (0x03#8).toNat ∧ d.length = (0x02#8).toNat ∧
      (received (h.bytes ++ [0x02#8] ++ d ++ d)).buf 0 = h.bytes ++ [0x02#8] ++ d ++ d ∧
      2 ≤ (d ++ d).length ∧ (d ++ d).length ≠ 2 ∧
      (received (h.bytes ++ [0x00#8] ++ be16 (d.length + d.length) ++ d)).buf 0
        = h.bytes ++ [0x00#8] ++ be16 (d.length + d.length) ++ d ∧
      (received (h.bytes ++ [0x00#8] ++ be16 d.length ++ d ++ [0x00#8])).buf 0
        = h.bytes ++ [0x00#8] ++ be16 d.length ++ d ++ [0x00#8] ∧
      (d ++ d).length ≠ 1 := by decide +kernel

theorem witness_ReceivedClassCheckedAsConfigured :
    (4 ≤ ((received [0xEF#8, 0xA4#8, 0x04#8, 0x00#8]).buf 0).length ∧
        recvRead ((received [0xEF#8, 0xA4#8, 0x04#8, 0x00#8]).buf 0) 0 = 0xEF#8) ∧
      ((received [0xEF#8]).buf 0).length < 4 ∧ recvRead (folding.buf 0) 0 ≠ 0xEF#8 := by decide +kernel

/-- Both outcomes of the class check, and payloads at the bounds of both Lc fields. -/
theorem witness_ReceivedUnitsBecomeViews :
    (⟨0xEF#8, 0xA4#8, 0x04#8, 0x00#8⟩ : Header).cla = 0xEF#8 ∧ selectHeader.cla ≠ 0xEF#8 ∧
      (List.replicate 255 0x00#8).length = 255 ∧ [0x00#8].length = 1 ∧ (List.replicate 65535 0x00#8).length = 65535 :=
  ⟨rfl, by decide, List.length_replicate, rfl, List.length_replicate⟩

theorem witness_UndeclarablePayloadRefused :
    255 < (List.replicate 256 0x00#8).length ∧ 65535 < (List.replicate 65536 0x00#8).length := by
  rw [List.length_replicate, List.length_replicate]; decide

/-- Folding into the EMPTY and into the CONTINUING accumulator. -/
theorem witness_ExtendFoldsTheViewIn :
    (∃ x ds, folding.view 0 = some x ∧ x.stale = false ∧ recvSlice (folding.buf x.buf) x.doff x.dlen = some ds ∧
        (folding.acc 0).state = .empty ∧ (folding.acc 0).len + x.dlen ≤ (folding.acc 0).cap) ∧
      (∃ x ds, folding.view 1 = some x ∧ x.stale = false ∧ recvSlice (folding.buf x.buf) x.doff x.dlen = some ds ∧
        (folding.acc 1).state = .continuing ∧ (folding.acc 1).hdr = some { x.hdr with cla := x.hdr.cla &&& 0xEF#8 } ∧
        (folding.acc 1).len + x.dlen ≤ (folding.acc 1).cap) :=
  ⟨⟨mkView ⟨0x10#8, 0xA4#8, 0x04#8, 0x00#8⟩ 0 5 1 0 false, [0xAA#8], by decide +kernel⟩,
    ⟨mkView selectHeader 1 5 1 0 false, [0xBB#8], by decide +kernel⟩⟩

/-- The view and its bytes are those of the witness before. -/
theorem witness_FoldWritesOnlyItsRun :
    (∃ t, exec (.accExtend 1 1) folding = .next t) ∧
      (ran (exec (.accExtend 1 1) folding)).map (fun t => t.outcome) = some (some .complete) ∧
      (ran (exec (.accExtend 1 0) folding)).map (fun t => t.outcome) = some (some .continuing) :=
  ⟨completes (by decide +kernel), by decide +kernel, by decide +kernel⟩

/-- A header that differs in each of the four fields. -/
theorem witness_DifferentHeaderFails :
    (folding.acc 1).state = .continuing ∧ (folding.acc 1).hdr = some selectHeader ∧
      (∀ h ∈ [(⟨0x01#8, 0xA4#8, 0x04#8, 0x00#8⟩ : Header), ⟨0x00#8, 0xA5#8, 0x04#8, 0x00#8⟩, ⟨0x00#8, 0xA4#8, 0x05#8, 0x00#8⟩,
          ⟨0x00#8, 0xA4#8, 0x04#8, 0x01#8⟩],
        (folding.setView 2 (mkView h 0 5 1 0 false)).view 2 = some (mkView h 0 5 1 0 false) ∧
          (h.cla &&& 0xEF#8 ≠ selectHeader.cla ∨ h.ins ≠ selectHeader.ins ∨ h.p1 ≠ selectHeader.p1 ∨
            h.p2 ≠ selectHeader.p2)) := by decide +kernel

/-- One byte too many, for the first view (V-A11) and for a later one. -/
theorem witness_OverCapacityFails :
    (∃ x, folding.view 1 = some x ∧ x.stale = false ∧ ((folding.setAcc 0 (Acc.fresh 0)).acc 0).state = .empty ∧
        ((folding.setAcc 0 (Acc.fresh 0)).acc 0).cap < ((folding.setAcc 0 (Acc.fresh 0)).acc 0).len + x.dlen) ∧
      (∃ x, (folding.setView 2 (mkView selectHeader 1 5 4 0 false)).view 2 = some x ∧ x.stale = false ∧
        (folding.acc 1).state = .continuing ∧ (folding.acc 1).hdr = some { x.hdr with cla := x.hdr.cla &&& 0xEF#8 } ∧
        (folding.acc 1).cap < (folding.acc 1).len + x.dlen) :=
  ⟨⟨mkView selectHeader 1 5 1 0 false, by decide +kernel⟩, ⟨mkView selectHeader 1 5 4 0 false, by decide +kernel⟩⟩

theorem witness_CompleteAccumulatorStays : (folding.acc 2).state = .complete := by decide +kernel

theorem witness_FailureIsFinalUntilNew : (folding.acc 3).state = .failed := by decide +kernel

theorem oneByte_legal (st : AState) (h : st = .continuing ∨ st = .complete) :
    (⟨4, st, some selectHeader, 1, some 0, [(0, 0xAA#8)]⟩ : Acc).Legal := by
  constructor
  · simp
  · rfl
  · intro i; by_cases hi : i = 0 <;> simp [Memory.read, Slots.get, hi]
  · rcases h with rfl | rfl <;> simp
  · simp
  · intro x hx; cases hx; decide
  · intro n hn; cases hn; decide

/-- An accumulator in each of the three states that can be read. -/
theorem witness_AccReadReturnsWhatIsHeld :
    ((folding.acc 0).Legal ∧ (folding.acc 0).state = .empty) ∧
      ((folding.acc 1).Legal ∧ (folding.acc 1).state = .continuing) ∧
      ((folding.acc 2).Legal ∧ (folding.acc 2).state = .complete) := by
  refine ⟨⟨?_, rfl⟩, ⟨oneByte_legal _ (.inl rfl), rfl⟩, ⟨oneByte_legal _ (.inr rfl), rfl⟩⟩
  constructor <;> simp [State.acc, folding, Slots.get, Acc.fresh, Memory.wf, Slots.sorted, Memory.read]

/-- The capacity equal to the payload; one less, and none at all, for the chain that is too long. -/
theorem witness_ChainReassemblesTheCommand :
    longCommand.wfCmd = true ∧ longCommand.hdr.cla ≠ 0xEF#8 ∧ 255 < longCommand.data.length ∧
      longCommand.data.length ≤ 256 := by decide +kernel

theorem witness_OverlongChainFailsAtTheFirstExcess :
    longCommand.wfCmd = true ∧ longCommand.hdr.cla ≠ 0xEF#8 ∧ 255 < longCommand.data.length ∧
      255 < longCommand.data.length ∧ 0 < longCommand.data.length := by decide +kernel

theorem witness_ViewOfAChangedBufferRefused :
    (∃ x, folding.view 0 = some x ∧ [0x00#8] ≠ folding.buf x.buf) ∧ (folding.acc 0).state = .empty ∧
      (folding.acc 1).state = .continuing :=
  ⟨⟨mkView ⟨0x10#8, 0xA4#8, 0x04#8, 0x00#8⟩ 0 5 1 0 false, by decide +kernel⟩, by decide +kernel, by decide +kernel⟩

theorem witness_ChangeOfALiveCommandRefused :
    ({ sending with inputs := [.setCommand 0 longCommand] } : State).inputs = .setCommand 0 longCommand :: [] ∧
      sending.ctx 0 = some shortContext ∧ longCommand ≠ ⟨shortContext.hdr, shortContext.data, shortContext.le⟩ := by
  decide +kernel

theorem witness_ResetAbandonsEverything : ({ sending with inputs := [.reset] } : State).inputs = .reset :: [] := rfl

/-- A step of a legal state with contexts live: operation 03 cancels context 0. -/
theorem witness_EveryStepKeepsStateLegal :
    ({ sending with inputs := [.op [0x03#8, 0x00#8]] } : State).Inv ∧
      ∃ t, step { sending with inputs := [.op [0x03#8, 0x00#8]] } = .next t :=
  ⟨{ sending_legal with
      ctxs := sending_legal.ctxs, views := sending_legal.views, fresh := sending_legal.fresh, accs := sending_legal.accs },
    completes (by decide +kernel)⟩

/-! ### SEND -/

/-- What a SEND ends with: the outcome, the bytes put out, and how many writers hold something. -/
def sent (o : Host.Outcome (State × List Byte) Fault Refusal) : Option (Option OpOutcome × List Byte × Nat) :=
  match o with
  | .next (s, bs) => some (s.outcome, bs, s.writers.length)
  | .fault _ => none
  | .refused _ => none

/-- V-S17: one declaration, and a fresh writer for the second unit. -/
theorem test_SEND_fresh_writer :
    sent (send 5 0 longCommand false ⟨0, .buf 1000⟩ [] State.reset)
      = some (some .done, ([0x10#8, 0xD6#8, 0x00#8, 0x00#8, 0xFF#8] ++ List.replicate 255 0x5A#8)
          ++ [0x00#8, 0xD6#8, 0x00#8, 0x00#8, 0x01#8, 0x5A#8, 0x00#8], 2) := by decide +kernel

/-- V-S10 with a writer too many: SEND ends with DONE at the first, and the second is not asked. -/
theorem test_SEND_stops_at_done :
    sent (send 5 0 selectAid false ⟨0, .buf 100⟩ [⟨1, .buf 100⟩] State.reset)
      = some (some .done, [0x00#8, 0xA4#8, 0x04#8, 0x00#8, 0x05#8, 0xA0#8, 0x00#8, 0x00#8, 0x03#8, 0x08#8], 1) := by
  decide +kernel

/-- A list that runs out, and one that is longer than it need be. -/
theorem witness_SendPutsOutTheUnitsInOrder :
    (∃ t bs, send 9 0 selectAid false ⟨0, .buf 4⟩ [⟨1, .buf 1⟩] State.reset = .next (t, bs) ∧ t.outcome = some .done) ∧
      (∃ t bs, send 9 0 selectAid false ⟨0, .buf 100⟩ [⟨1, .buf 1⟩] State.reset = .next (t, bs) ∧ t.outcome = some .done) ∧
      selectAid.hdr.cla ≠ 0xEF#8 := by
  refine ⟨⟨_, _, rfl, ?_⟩, ⟨_, _, rfl, ?_⟩, ?_⟩ <;> decide +kernel

/-- V-S10 with a capacity of 4: three calls, the second and third with fresh writers. -/
theorem witness_SendOfOneDeclarationCompletes :
    selectAid.inRange = true ∧ selectAid.hdr.cla ≠ 0xEF#8 ∧ (State.reset.writer 0).stream = [] ∧
      callsNeeded selectAid false 4 ≤ 2 + 1 := by decide +kernel

theorem witness_SendStopsWhenNotPending :
    ∃ t bs, send 1 0 selectAid false ⟨0, .buf 4⟩ [⟨1, .buf 100⟩] State.reset = .next (t, bs) ∧ t.outcome = some .done := by
  refine ⟨_, _, rfl, ?_⟩; decide +kernel

/-! ### The other moves -/

/-- Bytes too few, of another class and of class 0xEF, and four bytes or more of each that are no unit. -/
theorem witness_DeliveredNonUnitGivesItsReason :
    (∀ bs : List Byte, ({ folding with inputs := [.unit 2 0 bs] } : State).inputs = .unit 2 0 bs :: []) ∧
      decode .unit [0x00#8] = .error (.notUnit .tooShort) ∧ decode .unit [0xEF#8] = .error (.notUnit .tooShort) ∧
      decode .unit [0x00#8, 0xA4#8, 0x04#8, 0x00#8, 0x00#8, 0x05#8] = .error (.notUnit .badLengthMarker) ∧
      decode .unit [0xEF#8, 0xA4#8, 0x04#8, 0x00#8, 0x00#8, 0x05#8] = .error (.notUnit .badLengthMarker) :=
  ⟨fun _ => rfl, by decide +kernel, by decide +kernel, by decide +kernel, by decide +kernel⟩

/-- A delivery of too few bytes: the view of the buffer is stale, the selected one is not made. -/
theorem test_delivered_non_unit :
    (ran (step { folding with inputs := [.unit 2 0 [0x00#8]] })).map
      (fun s => (s.outcome, (s.view 0).map View.stale, (s.view 1).map View.stale, (s.view 2).map View.stale))
      = some (some (.parseError .tooShort), some true, some false, none) := by decide +kernel

theorem witness_StepFillsAReceiveBuffer :
    ({ folding with inputs := [.fillBuf 0 [0x00#8]] } : State).inputs = .fillBuf 0 [0x00#8] :: [] ∧
      folding.buf 0 ≠ [0x00#8] := by decide +kernel

/-- The command of the live context 0 as it is, and a command for context 7, which is not live. -/
theorem witness_UnchangedCommandIsNoHazard :
    (∀ x, sending.ctx 0 = some x → selectAid = ⟨x.hdr, x.data, x.le⟩) ∧
      (∀ x, sending.ctx 7 = some x → longCommand = ⟨x.hdr, x.data, x.le⟩) ∧
      ({ sending with inputs := [.setCommand 0 selectAid] } : State).inputs = .setCommand 0 selectAid :: [] := by
  have h0 : sending.ctx 0 = some shortContext := by decide +kernel
  have h7 : sending.ctx 7 = none := by decide +kernel
  refine ⟨fun x h => ?_, fun x h => ?_, rfl⟩
  · rw [h0] at h; cases h; rfl
  · rw [h7] at h; cases h

end Sys2Proof.Tests
end

/-! PROOFS. The serializer (40_serializer.md): what SER_START rejects before it runs SER_STEP (rule R108), and what SER_STEP
keeps of the context it is given (rule R117). -/

namespace Sys2Proof.Machine

/-! ### The arms of `exec` -/

theorem exec_serStart (c : Nat) (cmd : LogicalCommand) (ext : Bool) (w : Writer) (s : State) :
    exec (.serStart c cmd ext w) s = execSerStart c cmd ext w s := rfl

theorem exec_serResume (c : Nat) (ext : Bool) (w : Writer) (s : State) :
    exec (.serResume c ext w) s = execSerResume c ext w s := rfl

/-! ### SER_START and SER_RESUME -/

/-- The class check of SER_START stands between the range check and SER_STEP (R107, R108). -/
theorem execSerStart_of_invalidCla (c : Nat) (cmd : LogicalCommand) (ext : Bool) (w : Writer) (s : State)
    (hrange : cmd.inRange = true) (hcla : cmd.hdr.cla = Config.invalidCla) :
    execSerStart c cmd ext w s = .next (s.returns .invalidClass) := by
  unfold execSerStart
  rw [if_neg (by simp [hrange]), if_pos hcla]

/-- SER_RESUME of a live context is SER_STEP on it, whatever its flag (R116, R117). -/
theorem execSerResume_of_live (c : Nat) (x : Context) (ext : Bool) (w : Writer) (s : State) (hx : s.ctx c = some x) :
    execSerResume c ext w s = serStep c x w s := by
  unfold execSerResume
  rw [hx]

/-! ### What SER_STEP keeps of its context -/

/-- `y` has the mode and the command of `x`: the two differ at most in their resume point. -/
structure Context.KeepsCommand (x y : Context) : Prop where
  mode : y.mode = x.mode
  hdr  : y.hdr = x.hdr
  data : y.data = x.data
  le   : y.le = x.le

theorem Context.keepsCommand_nextUnit (c : Context) : c.KeepsCommand c.nextUnit := ⟨rfl, rfl, rfl, rfl⟩

theorem Context.keepsCommand_stopped (c : Context) : c.KeepsCommand c.stopped := ⟨rfl, rfl, rfl, rfl⟩

/-- What keeps the command of a context after a write keeps the command it had before. -/
theorem Context.KeepsCommand.of_advance {c y : Context} {k : Nat} (h : (c.advance k).KeepsCommand y) :
    c.KeepsCommand y := ⟨h.mode, h.hdr, h.data, h.le⟩

/-- Where the loop of SER_STEP ends PENDING, from any resume point, only the resume point has changed (R112, R115). -/
theorem serLoop_pending_keepsCommand (fuel : Nat) (c y : Context) (w w' : Sink)
    (h : serLoop fuel c w = .next (.pending y, w')) : c.KeepsCommand y := by
  induction fuel generalizing c w with
  | zero => cases h
  | succ fuel ih =>
    rw [serLoop] at h
    split at h
    · -- The unit is complete.
      split at h <;> cases h
      exact c.keepsCommand_nextUnit
    · split at h
      · cases h
      · -- The writer answers how much it has left.
        split at h
        · cases h
          exact c.keepsCommand_stopped
        · split at h
          · cases h
          · cases h
          · -- The write is accepted in part or in full.
            split at h
            · cases h
              exact c.keepsCommand_stopped
            · exact (ih _ _ h).of_advance

/-- Only the end PENDING leaves the context live, and then as that end gives it (R112 to R115). -/
theorem SerEnd.apply_ctx_eq_some (e : SerEnd) (n j : Nat) (k : WriterState) (s : State) (y : Context) :
    (e.apply n j k s).ctx n = some y ↔ e = .pending y := by
  cases e <;> simp [SerEnd.apply]

/-- A context that SER_STEP leaves live keeps its mode and its command. -/
theorem serStep_keepsCommand (n : Nat) (x y : Context) (w : Writer) (s t : State) (h : serStep n x w s = .next t)
    (hy : t.ctx n = some y) : x.KeepsCommand y := by
  obtain ⟨e, k, hloop, rfl⟩ := (serStep_eq_next n x w s t).mp h
  obtain rfl := (e.apply_ctx_eq_some n w.id k.st s y).mp hy
  exact serLoop_pending_keepsCommand _ _ _ _ _ hloop

/-! ### The obligations -/

/-- Settles O12: after the range check, the class check returns before SER_STEP is reached (R108). -/
theorem invalidClassRejectedBeforeOutput : Obligations.InvalidClassRejectedBeforeOutput := by
  intro c cmd ext w s hrange hcla
  rw [exec_serStart]
  exact execSerStart_of_invalidCla c cmd ext w s hrange hcla

/-- Settles O18: a resume is SER_STEP on the live context under either flag, and SER_STEP moves only the resume point
(R117). -/
theorem resumeIgnoresItsFlag : Obligations.ResumeIgnoresItsFlag := by
  intro c x ext w s t hx h
  have hstep (flag : Bool) : exec (.serResume c flag w) s = serStep c x w s := by
    rw [exec_serResume, execSerResume_of_live c x flag w s hx]
  rw [hstep] at h
  refine ⟨fun flag => (hstep flag).trans h, fun y hy => ?_⟩
  obtain ⟨hmode, hhdr, hdata, hle⟩ := serStep_keepsCommand c x y w s t h hy
  exact ⟨hmode, hhdr, hdata, hle⟩

end Sys2Proof.Machine

/-! PROOFS. The accumulator (42_accumulator.md): ACC_EXTEND of a view that passes the header check is the capacity check and
what follows it (rules R164 to R168). -/

namespace Sys2Proof.Machine

theorem exec_accExtend (a v : Nat) (s : State) : exec (.accExtend a v) s = execAccExtend a v s := rfl

/-! ### Up to the capacity check -/

/-- A view whose buffer is unchanged since PARSE is the view operand (R161). -/
theorem withView_of_fresh {v : Nat} {x : View} {s : State} (k : View → Host.Outcome State Fault Refusal)
    (hx : s.view v = some x) (hfresh : x.stale = false) : withView v s k = k x := by
  unfold withView
  rw [hx]
  exact if_neg (by simp [hfresh])

/-- The accumulator is EMPTY, or it is CONTINUING and was seeded with header `h`: the header check of R163 lets a view of
that header (chaining bit clear) through. -/
def Acc.Admits (x : Acc) (h : Header) : Prop :=
  x.state = .empty ∨ x.state = .continuing ∧ x.hdr = some h

/-- A view that passes the header check reaches the capacity check (R163, R164). -/
theorem foldView_of_admits (a : Nat) {x : Acc} {v : View} (s : State) (h : x.Admits (unchained v.hdr)) :
    foldView a x v s = foldPayload a x v s := by
  unfold foldView
  obtain hempty | ⟨hcont, hhdr⟩ := h
  · exact if_neg (by simp [hempty])
  · rw [if_pos hcont, hhdr]
    exact if_neg (not_not.mpr rfl)

/-- ACC_EXTEND with a fresh view that passes the header check is the capacity check and what follows it (R161 to R163). -/
theorem execAccExtend_of_admits {a v : Nat} {x : View} {s : State} (hx : s.view v = some x) (hfresh : x.stale = false)
    (h : (s.acc a).Admits (unchained x.hdr)) : execAccExtend a v s = foldPayload a (s.acc a) x s := by
  have hview : withView v s (fun y => foldView a (s.acc a) y s) = foldPayload a (s.acc a) x s := by
    rw [withView_of_fresh _ hx hfresh, foldView_of_admits a s h]
  unfold execAccExtend
  obtain hempty | ⟨hcont, -⟩ := h
  · rw [hempty]; exact hview
  · rw [hcont]; exact hview

/-! ### The capacity check and the append -/

theorem foldPayload_of_exceeds (a : Nat) {x : Acc} {v : View} (s : State) (h : x.cap < x.len + v.dlen) :
    foldPayload a x v s = .next ((s.setAcc a x.discard).returns .capacityExceeded) := by
  unfold foldPayload
  exact if_pos h

theorem foldPayload_of_fits (a : Nat) {x : Acc} {v : View} {s : State} {bs : List Byte}
    (hfit : x.len + v.dlen ≤ x.cap) (hbs : recvSlice (s.buf v.buf) v.doff v.dlen = some bs) :
    foldPayload a x v s =
      .next ((s.setAcc a (x.append (unchained v.hdr) v bs)).returns (outcomeAfterFold v.chained)) := by
  unfold foldPayload
  rw [if_neg (by omega), hbs]

/-- After the fold the header is the view's: seeded if the accumulator was EMPTY, and the one it had otherwise (R168). -/
theorem Acc.append_hdr_of_admits {x : Acc} {h : Header} (v : View) (bs : List Byte) (hx : x.Admits h) :
    (x.append h v bs).hdr = some h := by
  obtain hempty | ⟨hcont, hhdr⟩ := hx
  · exact if_pos hempty
  · exact (if_neg (by simp [hcont])).trans hhdr

/-- The accumulator after the fold, field by field (R165 to R168). -/
theorem Acc.append_of_admits {x : Acc} {h : Header} (v : View) (bs : List Byte) (hx : x.Admits h) :
    x.append h v bs =
      ⟨x.cap, stateAfterFold v.chained, some h, x.len + v.dlen, some v.le, Memory.writeRun x.buf x.len bs⟩ := by
  rw [← Acc.append_hdr_of_admits v bs hx]
  rfl

/-! ### The obligations -/

/-- Settles O38: the view passes both checks, so ACC_EXTEND appends it; the header after the append is the view's whether
this view seeds it or agrees with it (R165 to R168). -/
theorem extendFoldsTheViewIn : Obligations.ExtendFoldsTheViewIn := by
  intro a v x ds s hx hfresh hds hfit h
  have hadmits : (s.acc a).Admits (unchained x.hdr) := h
  rw [exec_accExtend, execAccExtend_of_admits hx hfresh hadmits, foldPayload_of_fits a hfit hds,
    Acc.append_of_admits x ds hadmits]
  rfl

/-- Settles O41: the view passes the header check, and the capacity check discards the accumulator before any byte is
written (R164). -/
theorem overCapacityFails : Obligations.OverCapacityFails := by
  intro a v x s hx hfresh h hexceeds
  have hadmits : (s.acc a).Admits (unchained x.hdr) := h
  rw [exec_accExtend, execAccExtend_of_admits hx hfresh hadmits, foldPayload_of_exceeds a s hexceeds]
  rfl

end Sys2Proof.Machine

/-! PROOFS. The two codecs (30_encoding.md): each decoder undoes its encoder, and what it accepts has no other encoding. -/

namespace Sys2Proof

/-! ### The layouts that byte 4 and the length tell apart -/

/-- What bytes can be before any length check: too few for a header, or a header with the fields that byte 4 and the number
of bytes after it announce (R82, R83). -/
inductive UnitLayout : List Byte → Prop
  | tooShort (bs : List Byte) (hlen : bs.length < 4) : UnitLayout bs
  | header (h : Header) : UnitLayout h.bytes
  | shortLe (h : Header) (e : Byte) : UnitLayout (h.bytes ++ [e])
  | shortLc (h : Header) (lc : Byte) (body : List Byte) (hlc : lc ≠ 0#8) (hbody : body ≠ []) :
      UnitLayout (h.bytes ++ lc :: body)
  | badMarker (h : Header) (x : Byte) : UnitLayout (h.bytes ++ [0#8, x])
  | extLe (h : Header) (hi lo : Byte) : UnitLayout (h.bytes ++ [0#8, hi, lo])
  | zeroLc (h : Header) (tail : List Byte) (htail : tail ≠ []) :
      UnitLayout (h.bytes ++ 0#8 :: 0#8 :: 0#8 :: tail)
  | extLc (h : Header) (hi lo : Byte) (tail : List Byte) (hlc : unbe16 hi lo ≠ 0) (htail : tail ≠ []) :
      UnitLayout (h.bytes ++ 0#8 :: hi :: lo :: tail)

theorem unbe16_eq_zero {hi lo : Byte} (h : unbe16 hi lo = 0) : hi = 0#8 ∧ lo = 0#8 := by
  unfold unbe16 at h
  constructor <;> apply BitVec.eq_of_toNat_eq <;> simp only [BitVec.toNat_ofNat] <;> omega

theorem unitLayout : ∀ bs : List Byte, UnitLayout bs
  | [] => .tooShort _ (by simp)
  | [_] => .tooShort _ (by simp)
  | [_, _] => .tooShort _ (by simp)
  | [_, _, _] => .tooShort _ (by simp)
  | [cla, ins, p1, p2] => .header ⟨cla, ins, p1, p2⟩
  | [cla, ins, p1, p2, e] => .shortLe ⟨cla, ins, p1, p2⟩ e
  | cla :: ins :: p1 :: p2 :: b4 :: x :: body => by
    let h : Header := ⟨cla, ins, p1, p2⟩
    by_cases hb4 : b4 = 0#8
    · subst hb4
      match body with
      | [] => exact .badMarker h x
      | [lo] => exact .extLe h x lo
      | lo :: y :: tail =>
        by_cases hlc : unbe16 x lo = 0
        · obtain ⟨rfl, rfl⟩ := unbe16_eq_zero hlc
          exact .zeroLc h (y :: tail) (List.cons_ne_nil _ _)
        · exact .extLc h x lo (y :: tail) hlc (List.cons_ne_nil _ _)
    · exact .shortLc h b4 (x :: body) hb4 (List.cons_ne_nil _ _)

/-! ### The unit decoder on each layout -/

theorem decodeUnit_tooShort : ∀ bs : List Byte, bs.length < 4 → decodeUnit bs = .error .tooShort
  | [], _ => rfl
  | [_], _ => rfl
  | [_, _], _ => rfl
  | [_, _, _], _ => rfl
  | _ :: _ :: _ :: _ :: _, hlen => by simp only [List.length_cons] at hlen; omega

theorem decodeUnit_header (h : Header) : decodeUnit h.bytes = .ok (.uHdr h) := rfl

theorem decodeUnit_shortLe (h : Header) (e : Byte) : decodeUnit (h.bytes ++ [e]) = .ok (.uSLe h e) := rfl

theorem decodeUnit_shortLc (h : Header) (lc : Byte) (body : List Byte) (hlc : lc ≠ 0#8) (hbody : body ≠ []) :
    decodeUnit (h.bytes ++ lc :: body) = decodeShort h lc.toNat body := by
  cases body with
  | nil => exact absurd rfl hbody
  | cons x body => exact if_pos hlc

theorem decodeUnit_badMarker (h : Header) (x : Byte) :
    decodeUnit (h.bytes ++ [0#8, x]) = .error .badLengthMarker := rfl

theorem decodeUnit_extLe (h : Header) (hi lo : Byte) :
    decodeUnit (h.bytes ++ [0#8, hi, lo]) = .ok (.uELe h (BitVec.ofNat 16 (unbe16 hi lo))) := rfl

theorem decodeUnit_zeroLc (h : Header) (tail : List Byte) (htail : tail ≠ []) :
    decodeUnit (h.bytes ++ 0#8 :: 0#8 :: 0#8 :: tail) = .error .badLengthMarker :=
  (if_neg htail).trans (if_pos (by decide))

theorem decodeUnit_extLc (h : Header) (hi lo : Byte) (tail : List Byte) (hlc : unbe16 hi lo ≠ 0) (htail : tail ≠ []) :
    decodeUnit (h.bytes ++ 0#8 :: hi :: lo :: tail) = decodeExt h (unbe16 hi lo) tail :=
  (if_neg htail).trans (if_neg hlc)

/-! ### The bytes after Lc: the payload, and what may follow it -/

/-- Bytes after a length field either are too few, or are the payload and a rest. -/
theorem split_at_payload (n : Nat) (body : List Byte) :
    body.length < n ∨ ∃ d e, body = d ++ e ∧ d.length = n := by
  by_cases h : body.length < n
  · exact .inl h
  · exact .inr ⟨body.take n, body.drop n, (List.take_append_drop n body).symm, by simp; omega⟩

theorem decodeShort_cut (h : Header) {lc : Nat} {body : List Byte} (hcut : body.length < lc) :
    decodeShort h lc body = .error .lengthMismatch := if_pos hcut

theorem decodeShort_payload (h : Header) (d : List Byte) : decodeShort h d.length d = .ok (.uSLc h d) := by
  simp [decodeShort]

theorem decodeShort_payload_le (h : Header) (d : List Byte) (e : Byte) :
    decodeShort h d.length (d ++ [e]) = .ok (.uSLcLe h d e) := by
  simp [decodeShort]

theorem decodeShort_excess (h : Header) (d e : List Byte) (he : 2 ≤ e.length) :
    decodeShort h d.length (d ++ e) = .error (if e.length = 2 then .mixedForms else .lengthMismatch) := by
  match e, he with
  | [x, y], _ => simp [decodeShort]
  | x :: y :: z :: e, _ => simp [decodeShort]

theorem decodeExt_cut (h : Header) {lc : Nat} {body : List Byte} (hcut : body.length < lc) :
    decodeExt h lc body = .error .lengthMismatch := if_pos hcut

theorem decodeExt_payload (h : Header) (d : List Byte) : decodeExt h d.length d = .ok (.uELc h d) := by
  simp [decodeExt]

theorem decodeExt_payload_le (h : Header) (d : List Byte) (hi lo : Byte) :
    decodeExt h d.length (d ++ [hi, lo]) = .ok (.uELcLe h d (BitVec.ofNat 16 (unbe16 hi lo))) := by
  simp [decodeExt]

theorem decodeExt_excess (h : Header) (d e : List Byte) (he : e ≠ []) (hlen : e.length ≠ 2) :
    decodeExt h d.length (d ++ e) = .error (if e.length = 1 then .mixedForms else .lengthMismatch) := by
  match e, he, hlen with
  | [x], _, _ => simp [decodeExt]
  | x :: y :: z :: e, _, _ => simp [decodeExt]

/-! ### A length that fits its field -/

theorem shortPayload_eq_true (d : List Byte) : shortPayload d = true ↔ 1 ≤ d.length ∧ d.length ≤ 255 := by
  simp [shortPayload]

theorem extPayload_eq_true (d : List Byte) : extPayload d = true ↔ 1 ≤ d.length ∧ d.length ≤ 65535 := by
  simp [extPayload]

theorem ofNat8_ne_zero {n : Nat} (hpos : 1 ≤ n) (hlt : n < 256) : BitVec.ofNat 8 n ≠ 0#8 := by
  intro h
  have hn := toNat_ofNat_of_lt hlt
  simp [h] at hn
  omega

theorem ne_nil_of_one_le {d : List Byte} (h : 1 ≤ d.length) : d ≠ [] := List.ne_nil_of_length_pos h

/-- A short Lc declares the payload it was made from (R72). -/
theorem decodeUnit_shortPayload (h : Header) (d e : List Byte) (hd : shortPayload d = true) :
    decodeUnit (h.bytes ++ BitVec.ofNat 8 d.length :: (d ++ e)) = decodeShort h d.length (d ++ e) := by
  obtain ⟨hpos, hle⟩ := (shortPayload_eq_true d).mp hd
  rw [decodeUnit_shortLc h _ _ (ofNat8_ne_zero hpos (by omega)) (by simp [ne_nil_of_one_le hpos]),
    toNat_ofNat_of_lt (by omega)]

/-- An extended Lc declares the length it was made from (R73). -/
theorem decodeUnit_be16 (h : Header) {n : Nat} {body : List Byte} (hpos : 1 ≤ n) (hle : n ≤ 65535) (hbody : body ≠ []) :
    decodeUnit (h.bytes ++ 0#8 :: (be16 n ++ body)) = decodeExt h n body := by
  have hlc : unbe16 (BitVec.ofNat 8 (n / 256)) (BitVec.ofNat 8 n) = n := unbe16_be16 (by omega)
  rw [show be16 n ++ body = BitVec.ofNat 8 (n / 256) :: BitVec.ofNat 8 n :: body from rfl,
    decodeUnit_extLc h _ _ _ (by omega) hbody, hlc]

/-- An extended Lc declares the payload it was made from (R73). -/
theorem decodeUnit_extPayload (h : Header) (d e : List Byte) (hd : extPayload d = true) :
    decodeUnit (h.bytes ++ 0#8 :: (be16 d.length ++ (d ++ e))) = decodeExt h d.length (d ++ e) := by
  obtain ⟨hpos, hle⟩ := (extPayload_eq_true d).mp hd
  exact decodeUnit_be16 h hpos hle (by simp [ne_nil_of_one_le hpos])

theorem ofNat16_unbe16_be16 (e : BitVec 16) :
    BitVec.ofNat 16 (unbe16 (BitVec.ofNat 8 (e.toNat / 256)) (BitVec.ofNat 8 e.toNat)) = e := by
  rw [unbe16_be16 e.isLt, BitVec.ofNat_toNat, BitVec.setWidth_eq]

/-- The two Le bytes that a 16-bit field was read from are its bytes (R75). -/
theorem be16_ofNat16_unbe16 (hi lo : Byte) : be16 (BitVec.ofNat 16 (unbe16 hi lo)).toNat = [hi, lo] := by
  rw [BitVec.toNat_ofNat, Nat.mod_eq_of_lt (unbe16_lt hi lo), be16_unbe16]

/-! ### Unit forms -/

/-- The unit decoder reads back every well-formed unit form. -/
theorem decodeUnit_encodeUnit (i : Instr) (hport : i.port = .unit) (hwf : i.wf = true) :
    decodeUnit (encodeUnit i) = .ok i := by
  cases i with
  | uHdr h => exact decodeUnit_header h
  | uSLe h e => exact decodeUnit_shortLe h e
  | uSLc h d =>
    have hread := decodeUnit_shortPayload h d [] hwf
    simpa [encodeUnit, decodeShort_payload] using hread
  | uSLcLe h d e =>
    have hread := decodeUnit_shortPayload h d [e] hwf
    simpa [encodeUnit, decodeShort_payload_le] using hread
  | uELe h e =>
    have hread := decodeUnit_extLe h (BitVec.ofNat 8 (e.toNat / 256)) (BitVec.ofNat 8 e.toNat)
    rw [ofNat16_unbe16_be16] at hread
    exact hread
  | uELc h d =>
    have hread := decodeUnit_extPayload h d [] hwf
    simpa [encodeUnit, decodeExt_payload] using hread
  | uELcLe h d e =>
    have hread := decodeUnit_extPayload h d (be16 e.toNat) hwf
    have hle : decodeExt h d.length (d ++ be16 e.toNat) = .ok (.uELcLe h d e) :=
      (decodeExt_payload_le h d _ _).trans (by rw [ofNat16_unbe16_be16])
    simpa [encodeUnit] using hread.trans hle
  | _ => cases hport

/-- `i` is a well-formed unit form of which `bs` is the encoding. -/
structure Instr.IsUnit (i : Instr) (bs : List Byte) : Prop where
  port  : i.port = .unit
  wf    : i.wf = true
  bytes : encodeUnit i = bs

theorem isUnit_of_decodeShort (h : Header) (lc : Byte) (body : List Byte) (i : Instr) (hlc : lc ≠ 0#8)
    (hi : decodeShort h lc.toNat body = .ok i) : i.IsUnit (h.bytes ++ lc :: body) := by
  rcases split_at_payload lc.toNat body with hcut | ⟨d, e, rfl, hd⟩
  · rw [decodeShort_cut h hcut] at hi; cases hi
  have hwf : shortPayload d = true := by
    have hpos := Machine.one_le_toNat hlc
    have hlt := lc.isLt
    rw [shortPayload_eq_true]; omega
  have hbyte : BitVec.ofNat 8 d.length = lc := by rw [hd, BitVec.ofNat_toNat, BitVec.setWidth_eq]
  rw [← hd] at hi
  match e with
  | [] =>
    rw [List.append_nil, decodeShort_payload] at hi; cases hi
    exact ⟨rfl, hwf, by simp [encodeUnit, hbyte]⟩
  | [x] =>
    rw [decodeShort_payload_le] at hi; cases hi
    exact ⟨rfl, hwf, by simp [encodeUnit, hbyte]⟩
  | x :: y :: e => rw [decodeShort_excess h d _ (by simp)] at hi; cases hi

theorem isUnit_of_decodeExt (h : Header) (hi lo : Byte) (tail : List Byte) (i : Instr) (hlc : unbe16 hi lo ≠ 0)
    (hdec : decodeExt h (unbe16 hi lo) tail = .ok i) : i.IsUnit (h.bytes ++ 0#8 :: hi :: lo :: tail) := by
  rcases split_at_payload (unbe16 hi lo) tail with hcut | ⟨d, e, rfl, hd⟩
  · rw [decodeExt_cut h hcut] at hdec; cases hdec
  have hwf : extPayload d = true := by
    have hlt := unbe16_lt hi lo
    rw [extPayload_eq_true]; omega
  have hbytes : be16 d.length = [hi, lo] := by rw [hd, be16_unbe16]
  rw [← hd] at hdec
  match e with
  | [] =>
    rw [List.append_nil, decodeExt_payload] at hdec; cases hdec
    exact ⟨rfl, hwf, by simp [encodeUnit, hbytes]⟩
  | [x, y] =>
    rw [decodeExt_payload_le] at hdec; cases hdec
    exact ⟨rfl, hwf, by simp only [encodeUnit, hbytes, be16_ofNat16_unbe16]; simp⟩
  | [x] => rw [decodeExt_excess h d _ (by simp) (by simp)] at hdec; cases hdec
  | x :: y :: z :: e => rw [decodeExt_excess h d _ (by simp) (by simp)] at hdec; cases hdec

/-- Bytes that the unit decoder accepts are the encoding of what it gives, on every layout (R82). -/
theorem isUnit_of_decodeUnit (bs : List Byte) (i : Instr) (hi : decodeUnit bs = .ok i) : i.IsUnit bs := by
  cases unitLayout bs with
  | tooShort _ hlen => rw [decodeUnit_tooShort _ hlen] at hi; cases hi
  | header h => cases hi; exact ⟨rfl, rfl, rfl⟩
  | shortLe h e => cases hi; exact ⟨rfl, rfl, rfl⟩
  | shortLc h lc body hlc hbody =>
    rw [decodeUnit_shortLc h lc body hlc hbody] at hi
    exact isUnit_of_decodeShort h lc body i hlc hi
  | badMarker h x => cases hi
  | extLe h hi' lo =>
    rw [decodeUnit_extLe] at hi; cases hi
    exact ⟨rfl, rfl, by simp only [encodeUnit, be16_ofNat16_unbe16]; simp⟩
  | zeroLc h tail htail => rw [decodeUnit_zeroLc h tail htail] at hi; cases hi
  | extLc h hi' lo tail hlc htail =>
    rw [decodeUnit_extLc h hi' lo tail hlc htail] at hi
    exact isUnit_of_decodeExt h hi' lo tail i hlc hi

theorem encode_of_port_unit {i : Instr} (h : i.port = .unit) : encode i = encodeUnit i := by
  unfold encode; rw [h]

theorem encode_of_port_op {i : Instr} (h : i.port = .op) : encode i = encodeOp i := by
  unfold encode; rw [h]

theorem decode_unit_eq_ok (bs : List Byte) (i : Instr) : decode .unit bs = .ok i ↔ decodeUnit bs = .ok i := by
  simp only [decode]; split <;> simp [*]

theorem decode_unit_eq_error (bs : List Byte) (r : ParseReason) :
    decode .unit bs = .error (.notUnit r) ↔ decodeUnit bs = .error r := by
  simp only [decode]; split <;> simp [*]

/-! ### Numbers in a record have one encoding -/

/-- More fuel than the number needs puts no more groups. -/
theorem putNatFuel_eq_of_le (f g n : Nat) (hf : n ≤ f) (hg : n ≤ g) : putNatFuel f n = putNatFuel g n := by
  induction f generalizing g n with
  | zero =>
    obtain rfl : n = 0 := by omega
    cases g <;> rfl
  | succ f ih =>
    cases g with
    | zero =>
      obtain rfl : n = 0 := by omega
      rfl
    | succ g =>
      simp only [putNatFuel]
      split
      · rfl
      · rw [ih g (n / 128) (by omega) (by omega)]

theorem putNat_of_lt {n : Nat} (h : n < 128) : putNat n = [BitVec.ofNat 8 n] := by
  unfold putNat
  cases n with
  | zero => rfl
  | succ n => exact if_pos h

theorem putNat_of_ge {n : Nat} (h : 128 ≤ n) : putNat n = BitVec.ofNat 8 (128 + n % 128) :: putNat (n / 128) := by
  obtain ⟨m, rfl⟩ : ∃ m, n = m + 1 := ⟨n - 1, by omega⟩
  have hstep : putNat (m + 1) = BitVec.ofNat 8 (128 + (m + 1) % 128) :: putNatFuel m ((m + 1) / 128) :=
    if_neg (by omega)
  rw [hstep, putNatFuel_eq_of_le m ((m + 1) / 128) _ (by omega) (Nat.le_refl _)]
  rfl

theorem putNat_of_takeNat (bs rest : List Byte) (n : Nat) (h : takeNat bs = some (n, rest)) :
    bs = putNat n ++ rest := by
  induction bs generalizing n rest with
  | nil => cases h
  | cons b bs ih =>
    have hb := b.isLt
    have hself : BitVec.ofNat 8 b.toNat = b := by rw [BitVec.ofNat_toNat, BitVec.setWidth_eq]
    rw [takeNat] at h
    split at h
    · rename_i hlast
      cases h
      rw [putNat_of_lt hlast, hself]; rfl
    · rename_i hmore
      split at h
      · rename_i m rest' hm
        split at h
        · cases h
        · cases h
          rw [putNat_of_ge (by omega), ih _ _ hm]
          rw [show 128 + (b.toNat - 128 + 128 * m) % 128 = b.toNat by omega,
            show (b.toNat - 128 + 128 * m) / 128 = m by omega, hself]
          rfl
      · cases h

/-- A number is read exactly from its groups (log entry 1). -/
theorem takeNat_eq_some (bs rest : List Byte) (n : Nat) : takeNat bs = some (n, rest) ↔ bs = putNat n ++ rest :=
  ⟨putNat_of_takeNat bs rest n, fun h => h ▸ takeNat_putNat n rest⟩

/-! ### The other operands have one encoding -/

theorem takeByte_eq_some (bs rest : List Byte) (b : Byte) : takeByte bs = some (b, rest) ↔ bs = b :: rest := by
  cases bs <;> simp [takeByte]

theorem takeBytes_eq_some (n : Nat) (bs d rest : List Byte) :
    takeBytes n bs = some (d, rest) ↔ d.length = n ∧ bs = d ++ rest := by
  constructor
  · intro h
    unfold takeBytes at h
    split at h
    · cases h; exact ⟨by simp; omega, (List.take_append_drop n bs).symm⟩
    · cases h
  · rintro ⟨rfl, rfl⟩; exact takeBytes_append d rest

theorem takeFlag_eq_some (bs rest : List Byte) (f : Bool) : takeFlag bs = some (f, rest) ↔ bs = putFlag f ++ rest := by
  constructor
  · intro h
    cases bs with
    | nil => cases h
    | cons b bs =>
      rw [takeFlag] at h
      split at h
      · cases h; subst b; rfl
      · split at h
        · cases h; subst b; rfl
        · cases h
  · rintro rfl; exact takeFlag_putFlag f rest

theorem takeAnswer_eq_some (bs rest : List Byte) (a : Answer) :
    takeAnswer bs = some (a, rest) ↔ bs = putAnswer a ++ rest := by
  constructor
  · intro h
    simp only [takeAnswer, Option.bind_eq_bind, Option.bind_eq_some_iff, Prod.exists, takeByte_eq_some] at h
    obtain ⟨kind, tail, rfl, h⟩ := h
    split at h
    · simp only [Option.bind_eq_some_iff, Prod.exists, takeNat_eq_some] at h
      obtain ⟨cap, tail, rfl, h⟩ := h
      cases h; subst kind; rfl
    · split at h
      · simp only [Option.bind_eq_some_iff, Prod.exists, takeNat_eq_some] at h
        obtain ⟨k, tail, rfl, h⟩ := h
        cases h; subst kind; rfl
      · split at h
        · simp only [Option.bind_eq_some_iff, Prod.exists, takeNat_eq_some] at h
          obtain ⟨e, tail, rfl, j, tail', rfl, h⟩ := h
          cases h; subst kind; simp [putAnswer]
        · cases h
  · rintro rfl; exact takeAnswer_putAnswer a rest

theorem takeAnswerList_eq_some (n : Nat) (bs rest : List Byte) (as : List Answer) :
    takeAnswerList n bs = some (as, rest) ↔ as.length = n ∧ bs = putAnswerList as ++ rest := by
  constructor
  · intro h
    induction n generalizing bs as with
    | zero => cases h; exact ⟨rfl, rfl⟩
    | succ n ih =>
      simp only [takeAnswerList, Option.bind_eq_bind, Option.bind_eq_some_iff, Prod.exists, takeAnswer_eq_some] at h
      obtain ⟨a, tail, rfl, as', tail', htail, h⟩ := h
      cases h
      obtain ⟨rfl, rfl⟩ := ih _ _ htail
      simp [putAnswerList]
  · rintro ⟨rfl, rfl⟩; exact takeAnswerList_putAnswerList as rest

theorem takeWriter_eq_some (bs rest : List Byte) (w : Writer) :
    takeWriter bs = some (w, rest) ↔ bs = putWriter w ++ rest := by
  constructor
  · intro h
    simp only [takeWriter, Option.bind_eq_bind, Option.bind_eq_some_iff, Prod.exists, takeNat_eq_some,
      takeByte_eq_some] at h
    obtain ⟨j, tail, rfl, kind, tail, rfl, h⟩ := h
    split at h
    · simp only [Option.bind_eq_some_iff, Prod.exists, takeNat_eq_some] at h
      obtain ⟨cap, tail, rfl, h⟩ := h
      cases h; subst kind; simp [putWriter]
    · split at h
      · simp only [Option.bind_eq_some_iff, Prod.exists, takeNat_eq_some] at h
        obtain ⟨n, tail, rfl, h⟩ := h
        cases h; subst kind; simp [putWriter]
      · split at h
        · simp only [Option.bind_eq_some_iff, Prod.exists, takeNat_eq_some, takeAnswerList_eq_some] at h
          obtain ⟨n, tail, rfl, as, tail', ⟨rfl, rfl⟩, h⟩ := h
          cases h; subst kind; simp [putWriter]
        · cases h
  · rintro rfl; exact takeWriter_putWriter w rest

theorem takeCommand_eq_some (bs rest : List Byte) (cmd : LogicalCommand) :
    takeCommand bs = some (cmd, rest) ↔ bs = putCommand cmd ++ rest := by
  constructor
  · intro h
    simp only [takeCommand, Option.bind_eq_bind, Option.bind_eq_some_iff, Prod.exists, takeByte_eq_some,
      takeNat_eq_some, takeBytes_eq_some] at h
    obtain ⟨cla, _, rfl, ins, _, rfl, p1, _, rfl, p2, _, rfl, n, _, rfl, d, _, ⟨rfl, rfl⟩, le, _, rfl, h⟩ := h
    cases h; simp [putCommand, Header.bytes]
  · rintro rfl; exact takeCommand_putCommand cmd rest

/-! ### Operation records -/

/-- What the operands of an OP code are read from, is how the operation would be written (R85). -/
theorem encodeOp_of_takeOperands (op : Byte) (operands : List Byte → Option (Instr × List Byte)) (bs rest : List Byte)
    (i : Instr) (hop : takeOperands op = some operands) (h : operands bs = some (i, rest)) :
    i.port = .op ∧ encodeOp i ++ rest = op :: bs := by
  unfold takeOperands at hop
  split at hop
  · -- SER_START
    cases hop
    simp only [Option.bind_eq_bind, Option.bind_eq_some_iff, Prod.exists, takeNat_eq_some, takeCommand_eq_some,
      takeFlag_eq_some, takeWriter_eq_some] at h
    obtain ⟨c, _, rfl, cmd, _, rfl, ext, _, rfl, w, _, rfl, h⟩ := h
    cases h; exact ⟨rfl, by simp [encodeOp, *]⟩
  split at hop
  · -- SER_RESUME
    cases hop
    simp only [Option.bind_eq_bind, Option.bind_eq_some_iff, Prod.exists, takeNat_eq_some, takeFlag_eq_some,
      takeWriter_eq_some] at h
    obtain ⟨c, _, rfl, ext, _, rfl, w, _, rfl, h⟩ := h
    cases h; exact ⟨rfl, by simp [encodeOp, *]⟩
  split at hop
  · -- SER_CANCEL
    cases hop
    simp only [Option.bind_eq_bind, Option.bind_eq_some_iff, Prod.exists, takeNat_eq_some] at h
    obtain ⟨c, _, rfl, h⟩ := h
    cases h; exact ⟨rfl, by simp [encodeOp, *]⟩
  split at hop
  · -- PARSE
    cases hop
    simp only [Option.bind_eq_bind, Option.bind_eq_some_iff, Prod.exists, takeNat_eq_some] at h
    obtain ⟨v, _, rfl, b, _, rfl, h⟩ := h
    cases h; exact ⟨rfl, by simp [encodeOp, *]⟩
  split at hop
  · -- ACC_NEW
    cases hop
    simp only [Option.bind_eq_bind, Option.bind_eq_some_iff, Prod.exists, takeNat_eq_some] at h
    obtain ⟨a, _, rfl, n, _, rfl, h⟩ := h
    cases h; exact ⟨rfl, by simp [encodeOp, *]⟩
  split at hop
  · -- ACC_EXTEND
    cases hop
    simp only [Option.bind_eq_bind, Option.bind_eq_some_iff, Prod.exists, takeNat_eq_some] at h
    obtain ⟨a, _, rfl, v, _, rfl, h⟩ := h
    cases h; exact ⟨rfl, by simp [encodeOp, *]⟩
  split at hop
  · -- ACC_READ
    cases hop
    simp only [Option.bind_eq_bind, Option.bind_eq_some_iff, Prod.exists, takeNat_eq_some] at h
    obtain ⟨a, _, rfl, h⟩ := h
    cases h; exact ⟨rfl, by simp [encodeOp, *]⟩
  · cases hop

theorem takeOperands_eq_none (op : Byte) (h : op ∉ [0x01#8, 0x02#8, 0x03#8, 0x10#8, 0x20#8, 0x21#8, 0x22#8]) :
    takeOperands op = none := by
  simp only [List.mem_cons, List.not_mem_nil, or_false, not_or] at h
  obtain ⟨h1, h2, h3, h4, h5, h6, h7⟩ := h
  unfold takeOperands
  rw [if_neg h1, if_neg h2, if_neg h3, if_neg h4, if_neg h5, if_neg h6, if_neg h7]

/-- The record decoder reads back every operation (log entry 1). -/
theorem decodeOp_encodeOp (i : Instr) (hport : i.port = .op) : decodeOp (encodeOp i) = .ok i := by
  cases i with
  | serStart c cmd ext w => simp [encodeOp, decodeOp, takeOperands]
  | serResume c ext w => simp [encodeOp, decodeOp, takeOperands]
  | serCancel c => simp [encodeOp, decodeOp, takeOperands]
  | parse v b => simp [encodeOp, decodeOp, takeOperands]
  | accNew a n => simp [encodeOp, decodeOp, takeOperands]
  | accExtend a v => simp [encodeOp, decodeOp, takeOperands]
  | accRead a => simp [encodeOp, decodeOp, takeOperands]
  | _ => cases hport

theorem encodeOp_of_decodeOp (bs : List Byte) (i : Instr) (h : decodeOp bs = .ok i) :
    i.port = .op ∧ encodeOp i = bs := by
  cases bs with
  | nil => cases h
  | cons op bs =>
    rw [decodeOp] at h
    split at h
    · cases h
    · rename_i operands hop
      split at h
      · rename_i i' hi
        cases h
        simpa using encodeOp_of_takeOperands op operands bs [] i hop hi
      · cases h

/-! ### The obligations -/

/-- Settles O1: each port's decoder reads back what its encoder wrote, form by form and operand by operand. -/
theorem decodeOfEncodeGivesInstruction : Obligations.DecodeOfEncodeGivesInstruction := by
  intro i hwf
  cases hport : i.port with
  | op => rw [encode_of_port_op hport]; exact decodeOp_encodeOp i hport
  | unit =>
    rw [encode_of_port_unit hport, decode_unit_eq_ok]
    exact decodeUnit_encodeUnit i hport hwf

/-- Settles O2, by the layout that byte 4 and the length tell. -/
theorem unitBytesHaveOneReading : Obligations.UnitBytesHaveOneReading := by
  intro bs i h
  obtain ⟨hport, hwf, hbytes⟩ := isUnit_of_decodeUnit bs i ((decode_unit_eq_ok bs i).mp h)
  exact ⟨hport, hwf, (encode_of_port_unit hport).trans hbytes⟩

/-- Settles O3, by the OP code and the operands in turn. -/
theorem recordBytesHaveOneReading : Obligations.RecordBytesHaveOneReading := by
  intro bs i h
  obtain ⟨hport, hbytes⟩ := encodeOp_of_decodeOp bs i h
  exact ⟨hport, (encode_of_port_op hport).trans hbytes⟩

/-- Settles O4: each word is one closed evaluation of the decoder. -/
theorem tableWordsDecodeToTheirRows : Obligations.TableWordsDecodeToTheirRows := by
  unfold Obligations.TableWordsDecodeToTheirRows
  exact ⟨rfl, rfl, rfl, rfl, rfl, rfl, rfl, rfl, rfl, rfl⟩

end Sys2Proof

/-! PROOFS. The parser (41_parser.md): PARSE is the unit decoder followed by the view of the form it reads, with the class
check (rule R146) in between. -/

namespace Sys2Proof.Machine

theorem exec_parse (v b : Nat) (s : State) : exec (.parse v b) s = execParse v b s := rfl

/-! ### The view of a form -/

/-- What PARSE makes of the encoding of `i` in receive buffer `b`, the class check aside: the view of a unit form (R141). An
operation has no unit bytes, so that PARSE finds too few. -/
def formView (b : Nat) : Instr → Except ParseReason View
  | .uHdr h => .ok (mkView h b 4 0 0 false)
  | .uSLe h e => .ok (mkView h b 4 0 (shortLe e) false)
  | .uSLc h d => .ok (mkView h b 5 d.length 0 false)
  | .uSLcLe h d e => .ok (mkView h b 5 d.length (shortLe e) false)
  | .uELe h e => .ok (mkView h b 4 0 (extLe e.toNat) true)
  | .uELc h d => .ok (mkView h b 7 d.length 0 true)
  | .uELcLe h d e => .ok (mkView h b 7 d.length (extLe e.toNat) true)
  | .serStart _ _ _ _ => .error .tooShort
  | .serResume _ _ _ => .error .tooShort
  | .serCancel _ => .error .tooShort
  | .parse _ _ => .error .tooShort
  | .accNew _ _ => .error .tooShort
  | .accExtend _ _ => .error .tooShort
  | .accRead _ => .error .tooShort

theorem formView_of_port_unit (b : Nat) {i : Instr} (h : i.port = .unit) : ∃ x, formView b i = .ok x := by
  cases i with
  | uHdr _ | uSLe _ _ | uSLc _ _ | uSLcLe _ _ _ | uELe _ _ | uELc _ _ | uELcLe _ _ _ => exact ⟨_, rfl⟩
  | _ => cases h

/-- A unit begins with the header of its view (R71). -/
theorem encodeUnit_of_formView {b : Nat} {i : Instr} {x : View} (h : formView b i = .ok x) :
    ∃ rest, encodeUnit i = x.hdr.bytes ++ rest := by
  cases i with
  | uHdr _ | uSLe _ _ | uSLc _ _ | uSLcLe _ _ _ | uELe _ _ | uELc _ _ | uELcLe _ _ _ =>
    cases h; simp [encodeUnit, mkView]
  | _ => cases h

/-- The meaning of a well-formed unit form: its view, or INVALID_CLASS where its class is rejected (R141, R146). -/
theorem exec_of_formView {i : Instr} {x : View} {s : State} (hwf : i.wf = true) (hx : formView s.rx.buf i = .ok x) :
    exec i s =
      if rejectsClass x.hdr.cla = true then .next (s.returns (.parseError .invalidClass))
      else .next ((s.setView s.rx.view x).returns (.okView x)) := by
  cases i with
  | uHdr _ | uSLe _ _ | uELe _ _ => cases hx; rfl
  | uSLc _ _ | uSLcLe _ _ _ | uELc _ _ | uELcLe _ _ _ => cases hx; exact if_pos hwf
  | _ => cases hx

/-! ### PARSE on each layout -/

theorem recvRead_length_sub_one (bs : List Byte) (x : Byte) : recvRead (bs ++ [x]) ((bs ++ [x]).length - 1) = x := by
  simp [recvRead]

theorem recvRead_length_sub_two (bs : List Byte) (x y : Byte) :
    recvRead (bs ++ [x, y]) ((bs ++ [x, y]).length - 2) = x := by
  simp [recvRead]

/-- The short length checks agree with the decoder (R140, R82). -/
theorem parseShort_eq_decodeShort (b : Nat) (h : Header) (b4 : Byte) (lc : Nat) (body : List Byte) :
    parseShort b h (h.bytes ++ b4 :: body) lc = (decodeShort h lc body).bind (formView b) := by
  have hlen (rest : List Byte) : (h.bytes ++ b4 :: rest).length = 5 + rest.length := by simp; omega
  rcases split_at_payload lc body with hcut | ⟨d, e, rfl, rfl⟩
  · rw [decodeShort_cut h hcut]
    simp only [parseShort, hlen]
    rw [if_neg (by omega), if_neg (by omega), if_neg (by omega)]; rfl
  match e with
  | [] =>
    rw [List.append_nil, decodeShort_payload]
    exact if_pos (by simp; omega)
  | [x] =>
    have hlast := recvRead_length_sub_one (h.bytes ++ b4 :: d) x
    rw [List.append_assoc, List.cons_append] at hlast
    rw [decodeShort_payload_le]
    simp only [parseShort, hlast]
    simp only [hlen, List.length_append, List.length_singleton]
    rw [if_neg (by omega), if_pos (by omega)]; rfl
  | x :: y :: e =>
    rw [decodeShort_excess h d _ (by simp)]
    simp only [parseShort, hlen, List.length_append, List.length_cons]
    rw [if_neg (by omega), if_neg (by omega)]
    by_cases hmixed : e.length + 1 + 1 = 2
    · rw [if_pos (by omega), if_pos hmixed]; rfl
    · rw [if_neg (by omega), if_neg hmixed]; rfl

/-- The extended length checks agree with the decoder (R140, R82). -/
theorem parseExt_eq_decodeExt (b : Nat) (h : Header) (hi lo : Byte) (tail : List Byte) (hlc : unbe16 hi lo ≠ 0)
    (htail : tail ≠ []) :
    parseExt b h (h.bytes ++ 0#8 :: hi :: lo :: tail) (unbe16 hi lo) =
      (decodeExt h (unbe16 hi lo) tail).bind (formView b) := by
  have hpos := List.length_pos_of_ne_nil htail
  have hlen (rest : List Byte) : (h.bytes ++ 0#8 :: hi :: lo :: rest).length = 7 + rest.length := by simp; omega
  rcases split_at_payload (unbe16 hi lo) tail with hcut | ⟨d, e, rfl, hd⟩
  · rw [decodeExt_cut h hcut]
    simp only [parseExt, hlen]
    rw [if_neg (by omega), if_neg hlc, if_neg (by omega), if_neg (by omega), if_neg (by omega)]; rfl
  rw [← hd] at hlc ⊢
  match e with
  | [] =>
    rw [List.append_nil] at hpos
    rw [List.append_nil, decodeExt_payload]
    simp only [parseExt, hlen]
    rw [if_neg (by omega), if_neg hlc, if_pos trivial]; rfl
  | [x] =>
    rw [decodeExt_excess h d _ (by simp) (by simp)]
    simp only [parseExt, hlen, List.length_append, List.length_singleton]
    rw [if_neg (by omega), if_neg hlc, if_neg (by omega), if_neg (by omega), if_pos (by omega)]; rfl
  | [x, y] =>
    have hfirst := recvRead_length_sub_two (h.bytes ++ 0#8 :: hi :: lo :: d) x y
    have hlast := recvRead_length_sub_one (h.bytes ++ 0#8 :: hi :: lo :: (d ++ [x])) y
    simp only [List.append_assoc, List.cons_append, List.nil_append] at hfirst hlast
    rw [decodeExt_payload_le]
    simp only [parseExt, hfirst, hlast]
    simp only [hlen, List.length_append, List.length_cons, List.length_nil]
    rw [if_neg (by omega), if_neg hlc, if_neg (by omega), if_pos (by omega)]
    simp [Except.bind, formView, Nat.mod_eq_of_lt (unbe16_lt x y)]
  | x :: y :: z :: e =>
    rw [decodeExt_excess h d _ (by simp) (by simp)]
    simp only [parseExt, hlen, List.length_append, List.length_cons]
    rw [if_neg (by omega), if_neg hlc, if_neg (by omega), if_neg (by omega), if_neg (by omega)]
    simp [Except.bind]

theorem parseBytes_tooShort (b : Nat) {bs : List Byte} (hlen : bs.length < 4) :
    parseBytes b bs = .error .tooShort := if_pos hlen

theorem parseBytes_rejected (b : Nat) {bs : List Byte} (hlen : 4 ≤ bs.length)
    (hcla : rejectsClass (recvRead bs 0) = true) : parseBytes b bs = .error .invalidClass := by
  simp only [parseBytes]
  rw [if_neg (by omega), if_pos hcla]

/-- PARSE of a header whose class is not rejected, and a byte 4 (R140). -/
theorem parseBytes_cons (b : Nat) (h : Header) (b4 : Byte) (body : List Byte) (hcla : rejectsClass h.cla = false)
    (hbody : body ≠ []) :
    parseBytes b (h.bytes ++ b4 :: body) =
      if b4 ≠ 0#8 then parseShort b h (h.bytes ++ b4 :: body) b4.toNat
      else if body.length = 1 then .error .badLengthMarker
      else parseExt b h (h.bytes ++ b4 :: body) (unbe16 (recvRead body 0) (recvRead body 1)) := by
  have hpos := List.length_pos_of_ne_nil hbody
  have hlen : (h.bytes ++ b4 :: body).length = 5 + body.length := by simp; omega
  have hcla' : ¬ rejectsClass (recvRead (h.bytes ++ b4 :: body) 0) = true := by
    simpa [recvRead, Header.bytes] using hcla
  simp only [parseBytes]
  rw [if_neg (by omega), if_neg hcla', if_neg (by omega), if_neg (by omega)]
  simp only [hlen, show 5 + body.length = 6 ↔ body.length = 1 by omega]
  rfl

/-- PARSE is the unit decoder followed by the view of the form, unless at least four bytes begin with a rejected class (R140,
R146; the order of the checks is the spec's decision D16). -/
theorem parseBytes_eq (b : Nat) (bs : List Byte) :
    parseBytes b bs =
      if 4 ≤ bs.length ∧ rejectsClass (recvRead bs 0) = true then .error .invalidClass
      else (decodeUnit bs).bind (formView b) := by
  split
  · rename_i hrej; exact parseBytes_rejected b hrej.1 hrej.2
  rename_i haccept
  have hheader (h : Header) (rest : List Byte) (hbs : bs = h.bytes ++ rest) : rejectsClass h.cla = false := by
    subst hbs
    simpa [Header.bytes, recvRead] using haccept
  cases unitLayout bs with
  | tooShort _ hlen => rw [parseBytes_tooShort b hlen, decodeUnit_tooShort _ hlen]; rfl
  | header h =>
    have hcla := hheader h [] (by simp)
    simp [parseBytes, Header.bytes, recvRead, hcla, decodeUnit, Except.bind, formView]
  | shortLe h e =>
    have hcla := hheader h _ rfl
    simp [parseBytes, Header.bytes, recvRead, hcla, decodeUnit, Except.bind, formView]
  | shortLc h lc body hlc hbody =>
    rw [parseBytes_cons b h lc body (hheader h _ rfl) hbody, if_pos hlc, decodeUnit_shortLc h lc body hlc hbody,
      parseShort_eq_decodeShort]
  | badMarker h x => exact parseBytes_cons b h 0#8 [x] (hheader h _ rfl) (List.cons_ne_nil _ _)
  | extLe h hi lo =>
    rw [parseBytes_cons b h 0#8 _ (hheader h _ rfl) (List.cons_ne_nil _ _), decodeUnit_extLe]
    simp [recvRead, parseExt, Except.bind, formView, Nat.mod_eq_of_lt (unbe16_lt hi lo)]
  | zeroLc h tail htail =>
    have hpos := List.length_pos_of_ne_nil htail
    rw [parseBytes_cons b h 0#8 _ (hheader h _ rfl) (List.cons_ne_nil _ _), decodeUnit_zeroLc h tail htail]
    have hlen : ¬ 4 + (tail.length + 1 + 1 + 1) = 7 := by omega
    simp [recvRead, parseExt, htail, unbe16, Except.bind, hlen]
  | extLc h hi lo tail hlc htail =>
    rw [parseBytes_cons b h 0#8 _ (hheader h _ rfl) (List.cons_ne_nil _ _), if_neg (by simp), if_neg (by simp),
      decodeUnit_extLc h hi lo tail hlc htail]
    exact parseExt_eq_decodeExt b h hi lo tail hlc htail

/-! ### PARSE as an operation -/

theorem execParse_of_ok {v b : Nat} {s : State} {x : View} (h : parseBytes b (s.buf b) = .ok x) :
    execParse v b s = .next ((s.setView v x).returns (.okView x)) := by
  unfold execParse; rw [h]

theorem execParse_of_error {v b : Nat} {s : State} {r : ParseReason} (h : parseBytes b (s.buf b) = .error r) :
    execParse v b s = .next (s.returns (.parseError r)) := by
  unfold execParse; rw [h]

theorem rejectsClass_eq_true (cla : Byte) :
    rejectsClass cla = true ↔ cla = 0xEF#8 ∧ Config.parseClaCheck = .rejectEf := by
  simp [rejectsClass]

/-- Bytes that are no unit give the decoder's reason, or INVALID_CLASS (R83, R146). -/
theorem parseBytes_of_decodeUnit_error (b : Nat) {bs : List Byte} {r : ParseReason} (h : decodeUnit bs = .error r) :
    parseBytes b bs =
      .error (if 4 ≤ bs.length ∧ rejectsClass (recvRead bs 0) = true then .invalidClass else r) := by
  rw [parseBytes_eq, h]
  split <;> rfl

/-- PARSE of a unit is the meaning of its form where the receiver has selected the buffer and the view (log entries 4, 5). -/
theorem exec_parse_of_decodeUnit {v b : Nat} {s : State} {i : Instr} (hrx : s.rx = ⟨v, b⟩)
    (hi : decodeUnit (s.buf b) = .ok i) : exec (.parse v b) s = exec i s := by
  obtain ⟨hport, hwf, hbytes⟩ := isUnit_of_decodeUnit _ _ hi
  obtain ⟨x, hx⟩ := formView_of_port_unit b hport
  obtain ⟨rest, hrest⟩ := encodeUnit_of_formView hx
  rw [hbytes] at hrest
  have hlen : 4 ≤ (s.buf b).length := by rw [hrest]; simp
  have hcla : recvRead (s.buf b) 0 = x.hdr.cla := by rw [hrest]; rfl
  have hparse := parseBytes_eq b (s.buf b)
  rw [hi, hcla] at hparse
  rw [exec_parse, exec_of_formView (x := x) hwf (by rw [hrx]; exact hx), hrx]
  split
  · rename_i hrej
    rw [if_pos ⟨hlen, hrej⟩] at hparse
    exact execParse_of_error hparse
  · rename_i hacc
    rw [if_neg (fun h => hacc h.2)] at hparse
    exact execParse_of_ok (hparse.trans hx)

/-- PARSE of bytes that are no unit (R83). -/
theorem exec_parse_of_decodeUnit_error {v b : Nat} {s : State} {r : ParseReason}
    (h : decodeUnit (s.buf b) = .error r) :
    exec (.parse v b) s = .next (s.returns (.parseError
      (if 4 ≤ (s.buf b).length ∧ rejectsClass (recvRead (s.buf b) 0) = true then .invalidClass else r))) :=
  execParse_of_error (parseBytes_of_decodeUnit_error b h)

/-- PARSE of bytes that are no unit and whose class is not rejected gives the decoder's reason (R83). -/
theorem exec_parse_malformed {v b : Nat} {s : State} {h : Header} {rest : List Byte} {r : ParseReason}
    (hcla : rejectsClass h.cla = false) (hbuf : s.buf b = h.bytes ++ rest)
    (hr : decodeUnit (h.bytes ++ rest) = .error r) : exec (.parse v b) s = .next (s.returns (.parseError r)) := by
  have hread : rejectsClass (recvRead (s.buf b) 0) = false := by rw [hbuf]; exact hcla
  rw [exec_parse_of_decodeUnit_error (hbuf ▸ hr), hread, if_neg (by simp)]

/-- The decoder has no class check (R82, R83). -/
theorem decodeUnit_ne_invalidClass (bs : List Byte) : decodeUnit bs ≠ .error .invalidClass := by
  have hshort (h : Header) (lc : Nat) (body : List Byte) : decodeShort h lc body ≠ .error .invalidClass := by
    unfold decodeShort
    split
    · simp
    · split <;> simp
  have hext (h : Header) (lc : Nat) (body : List Byte) : decodeExt h lc body ≠ .error .invalidClass := by
    unfold decodeExt
    split
    · simp
    · split <;> simp
  cases unitLayout bs with
  | tooShort _ hlen => rw [decodeUnit_tooShort _ hlen]; simp
  | shortLc h lc body hlc hbody => rw [decodeUnit_shortLc h lc body hlc hbody]; exact hshort _ _ _
  | zeroLc h tail htail => rw [decodeUnit_zeroLc h tail htail]; simp
  | extLc h hi lo tail hlc htail => rw [decodeUnit_extLc h hi lo tail hlc htail]; exact hext _ _ _
  | _ => exact fun h => by cases h

/-- INVALID_CLASS is the reason for a rejected class alone (R146). -/
theorem parseBytes_eq_invalidClass (b : Nat) (bs : List Byte) :
    parseBytes b bs = .error .invalidClass ↔ 4 ≤ bs.length ∧ rejectsClass (recvRead bs 0) = true := by
  rw [parseBytes_eq]
  split
  · simp [*]
  · rename_i hacc
    simp only [hacc, iff_false]
    cases hdec : decodeUnit bs with
    | error r =>
      have hreason : r ≠ .invalidClass := by
        rintro rfl
        exact decodeUnit_ne_invalidClass bs hdec
      simpa [Except.bind] using hreason
    | ok i =>
      obtain ⟨x, hx⟩ := formView_of_port_unit b (isUnit_of_decodeUnit bs i hdec).port
      simp [Except.bind, hx]

/-- The outcome of PARSE is INVALID_CLASS exactly where that is the reason (R146). -/
theorem execParse_invalidClass (v b : Nat) (s : State) :
    ∃ t, execParse v b s = .next t ∧
      (t.outcome = some (.parseError .invalidClass) ↔ parseBytes b (s.buf b) = .error .invalidClass) := by
  cases hp : parseBytes b (s.buf b) with
  | ok x => exact ⟨_, execParse_of_ok hp, by simp⟩
  | error r => exact ⟨_, execParse_of_error hp, by simp⟩

/-! ### The obligations -/

/-- Settles O29: PARSE has one of its two answers, and a view it gives lies in its buffer (R141, R147). -/
theorem parseIsTotal : Obligations.ParseIsTotal := by
  intro v b s
  cases hp : parseBytes b (s.buf b) with
  | ok x =>
    obtain ⟨hview, -, -⟩ := parseBytes_ok b _ x hp
    exact .inl ⟨x, hview.buf, hview.stale, hview.inBuf, execParse_of_ok hp⟩
  | error r => exact .inr ⟨r, execParse_of_error hp⟩

/-- Settles O30: PARSE and the decoder agree on every layout (R140, R82, R83). -/
theorem parseIsDecodeThenMeaning : Obligations.ParseIsDecodeThenMeaning := by
  intro v b s hrx
  refine ⟨fun i hi => exec_parse_of_decodeUnit hrx ((decode_unit_eq_ok _ _).mp hi), fun r hr => ?_⟩
  rw [exec_parse_of_decodeUnit_error ((decode_unit_eq_error _ _).mp hr)]
  simp only [rejectsClass_eq_true]
  rfl

/-- Settles O33: each clause is a layout that the decoder rejects for that reason (R83, R143 to R145). -/
theorem malformedUnitsGiveTheirReason : Obligations.MalformedUnitsGiveTheirReason := by
  intro v b s h lc d e hcla
  refine ⟨fun hlen => ?_, fun hbuf => ?_, fun hbuf he => ?_, fun hbuf hlc hd hcut => ?_, fun hbuf hlc hd he => ?_,
    fun hbuf hd he hlt => ?_, fun hbuf hd hlt he htwo => ?_⟩
  · exact execParse_of_error (parseBytes_tooShort b hlen)
  · exact exec_parse_malformed hcla hbuf (decodeUnit_badMarker h lc)
  · exact exec_parse_malformed hcla (by simpa using hbuf) (decodeUnit_zeroLc h e he)
  · exact exec_parse_malformed hcla (by simpa using hbuf)
      ((decodeUnit_shortLc h lc d hlc hd).trans (decodeShort_cut h hcut))
  · have hbody : d ++ e ≠ [] := by
      have := List.length_pos_of_ne_nil (l := e) (by rintro rfl; simp at he)
      exact List.append_ne_nil_of_right_ne_nil _ (List.ne_nil_of_length_pos this)
    refine exec_parse_malformed hcla (by simpa using hbuf) ((decodeUnit_shortLc h lc (d ++ e) hlc hbody).trans ?_)
    rw [← hd]
    exact decodeShort_excess h d e he
  · have hdpos := List.length_pos_of_ne_nil hd
    have hepos := List.length_pos_of_ne_nil he
    exact exec_parse_malformed hcla (by simpa using hbuf)
      ((decodeUnit_be16 h (by omega) (by omega) hd).trans (decodeExt_cut h (by omega)))
  · have hdpos := List.length_pos_of_ne_nil hd
    exact exec_parse_malformed hcla (by simpa using hbuf)
      ((decodeUnit_be16 h (by omega) (by omega) (List.append_ne_nil_of_left_ne_nil hd _)).trans
        (decodeExt_excess h d e he htwo))

/-- Settles O34: PARSE gives INVALID_CLASS for a rejected class alone, and 0xEF is rejected under REJECT_EF alone (R146). -/
theorem receivedClassCheckedAsConfigured : Obligations.ReceivedClassCheckedAsConfigured := by
  intro v b s
  obtain ⟨t, hexec, hiff⟩ := execParse_invalidClass v b s
  rw [parseBytes_eq_invalidClass, rejectsClass_eq_true] at hiff
  refine ⟨fun hlen hcla => ⟨t, hexec, by simp [hiff, hlen, hcla]⟩, fun hno t' ht' => ?_⟩
  obtain rfl : t = t' := Host.Outcome.next.inj (hexec.symm.trans ht')
  rw [Ne, hiff]
  rintro ⟨hlen, hcla, -⟩
  rcases hno with hshort | hother
  · omega
  · exact hother hcla

/-- Settles O35: the meaning of a well-formed unit form is its view, or INVALID_CLASS (R141, R146). -/
theorem receivedUnitsBecomeViews : Obligations.ReceivedUnitsBecomeViews := by
  intro h d e e2 s
  have becomes (i : Instr) (doff dlen le : Nat) (ext : Bool) (hwf : i.wf = true)
      (hx : formView s.rx.buf i = .ok (mkView h s.rx.buf doff dlen le ext)) :
      exec i s = .next
        (if h.cla = 0xEF#8 ∧ Config.parseClaCheck = .rejectEf then s.returns (.parseError .invalidClass)
         else (s.setView s.rx.view (mkView h s.rx.buf doff dlen le ext)).returns
            (.okView (mkView h s.rx.buf doff dlen le ext))) := by
    rw [exec_of_formView hwf hx]
    rw [apply_ite Host.Outcome.next]
    simp only [← rejectsClass_eq_true]
    rfl
  have hextLe : extLe e2.toNat = if e2 = 0#16 then 65536 else e2.toNat := by
    simp [extLe, ← BitVec.toNat_inj]
  refine ⟨becomes _ _ _ _ _ rfl rfl, becomes _ _ _ _ _ rfl rfl, becomes _ _ _ _ _ rfl (by rw [← hextLe]; rfl),
    fun hpos hle => ?_, fun hpos hle => ?_⟩
  · have hwf := (shortPayload_eq_true d).mpr ⟨hpos, hle⟩
    exact ⟨becomes _ _ _ _ _ hwf rfl, becomes _ _ _ _ _ hwf rfl⟩
  · have hwf := (extPayload_eq_true d).mpr ⟨hpos, hle⟩
    exact ⟨becomes _ _ _ _ _ hwf rfl, becomes _ _ _ _ _ hwf (by rw [← hextLe]; rfl)⟩

/-- Settles O36: the length check of a unit form with a payload comes first (log entry 24). -/
theorem undeclarablePayloadRefused : Obligations.UndeclarablePayloadRefused := by
  intro h d e e2 s
  have hshort (hd : d = [] ∨ 255 < d.length) : ¬ shortPayload d = true := by
    rw [shortPayload_eq_true]
    rcases hd with rfl | hd
    · simp
    · omega
  have hext (hd : d = [] ∨ 65535 < d.length) : ¬ extPayload d = true := by
    rw [extPayload_eq_true]
    rcases hd with rfl | hd
    · simp
    · omega
  exact ⟨fun hd => ⟨if_neg (hshort hd), if_neg (hshort hd)⟩, fun hd => ⟨if_neg (hext hd), if_neg (hext hd)⟩⟩

end Sys2Proof.Machine

/-! PROOFS. The unit that a context stands for (40_serializer.md rules R102 to R106): its form, its length, and what PARSE
makes of it. -/

namespace Sys2Proof.Machine

/-! ### The derived quantities of a legal context -/

/-- The payload of the current unit: the whole of `CMD_DATA` outside mode CHAINED, the current chunk in it (R28, R51). -/
def Context.chunk (c : Context) : List Byte := c.payload c.chunkBase c.chunkLen

theorem Context.payload_length (c : Context) (off len : Nat) :
    (c.payload off len).length = min len (c.cmdLen - off) := by
  simp [Context.payload, Context.cmdLen]

theorem Context.payload_all (c : Context) : c.payload 0 c.cmdLen = c.data := by
  simp [Context.payload, Context.cmdLen]

theorem Context.chunkLen_of_ne_chained {c : Context} (h : c.mode ≠ .chained) : c.chunkLen = c.cmdLen := by
  unfold Context.chunkLen
  split
  · exact absurd ‹_› h
  · rfl
  · rfl

theorem Context.chunkLen_of_chained {c : Context} (h : c.mode = .chained) :
    c.chunkLen = min 255 (c.cmdLen - c.chunkBase) := by
  simp [Context.chunkLen, h]

theorem Context.isFinal_of_ne_chained {c : Context} (h : c.mode ≠ .chained) : c.isFinal = true := by
  simp [Context.isFinal, h]

theorem Context.isFinal_of_chained {c : Context} (h : c.mode = .chained) :
    c.isFinal = true ↔ c.cmdLen ≤ c.chunkBase + 255 := by
  simp [Context.isFinal, h]

theorem Context.leEff_of_extended {c : Context} (h : c.mode = .extended) : c.leEff = c.le := by
  simp [Context.leEff, h]

theorem Context.leEff_of_ne_extended {c : Context} (h : c.mode ≠ .extended) : c.leEff = min c.le 256 := by
  unfold Context.leEff
  split
  · exact absurd ‹_› h
  · rfl
  · rfl

theorem Context.Legal.chunk_of_ne_chained {c : Context} (hc : c.Legal) (h : c.mode ≠ .chained) : c.chunk = c.data := by
  rw [Context.chunk, hc.oneUnit h, Context.chunkLen_of_ne_chained h, Context.payload_all]

theorem Context.Legal.chunk_length {c : Context} (hc : c.Legal) : c.chunk.length = c.chunkLen := by
  by_cases h : c.mode = .chained
  · rw [Context.chunk, Context.payload_length, Context.chunkLen_of_chained h]; omega
  · rw [hc.chunk_of_ne_chained h, Context.chunkLen_of_ne_chained h]; rfl

/-- No unit of a chain is empty (R101). -/
theorem Context.Legal.chunkLen_of_chained {c : Context} (hc : c.Legal) (h : c.mode = .chained) :
    1 ≤ c.chunkLen ∧ c.chunkLen ≤ 255 := by
  have hchunk := hc.inChain h
  rw [Context.chunkLen_of_chained h]; omega

/-- A unit in mode EXTENDED without a payload has an Le field (R100). -/
theorem Context.Legal.leEff_pos_of_empty {c : Context} (hc : c.Legal) (h : c.mode = .extended) (hlen : c.cmdLen = 0) :
    0 < c.leEff := by
  have hext := hc.extended h
  rw [Context.leEff_of_extended h]; omega

theorem Context.Legal.leEff_le {c : Context} (hc : c.Legal) : c.leEff ≤ 65536 := by
  have hle := hc.le
  by_cases h : c.mode = .extended
  · rw [Context.leEff_of_extended h]; exact hle
  · rw [Context.leEff_of_ne_extended h]; omega

/-! ### The form of the unit -/

theorem Context.unitBytes_of_short {c : Context} (h : c.mode = .short) : c.unitBytes = c.shortUnit := by
  unfold Context.unitBytes; rw [h]

theorem Context.unitBytes_of_extended {c : Context} (h : c.mode = .extended) : c.unitBytes = c.extendedUnit := by
  unfold Context.unitBytes; rw [h]

theorem Context.unitBytes_of_chained {c : Context} (h : c.mode = .chained) : c.unitBytes = c.chainedUnit := by
  unfold Context.unitBytes; rw [h]

theorem Context.unitForm_of_short {c : Context} (h : c.mode = .short) :
    c.unitForm =
      if c.cmdLen = 0 then
        if c.leEff = 0 then .uHdr c.unitHeader else .uSLe c.unitHeader (BitVec.ofNat 8 c.leEff)
      else if c.leEff = 0 then .uSLc c.unitHeader c.data
      else .uSLcLe c.unitHeader c.data (BitVec.ofNat 8 c.leEff) := by
  unfold Context.unitForm; rw [h]

theorem Context.unitForm_of_extended {c : Context} (h : c.mode = .extended) :
    c.unitForm =
      if c.cmdLen = 0 then .uELe c.unitHeader (BitVec.ofNat 16 c.leEff)
      else if c.leEff = 0 then .uELc c.unitHeader c.data
      else .uELcLe c.unitHeader c.data (BitVec.ofNat 16 c.leEff) := by
  unfold Context.unitForm; rw [h]

theorem Context.unitForm_of_chained {c : Context} (h : c.mode = .chained) :
    c.unitForm =
      if c.isFinal = true ∧ 0 < c.leEff then .uSLcLe c.unitHeader c.chunk (BitVec.ofNat 8 c.leEff)
      else .uSLc c.unitHeader c.chunk := by
  unfold Context.unitForm; rw [h]; rfl

theorem Context.unitLen_of_short {c : Context} (h : c.mode = .short) :
    c.unitLen = 4 + (if 0 < c.cmdLen then 1 + c.cmdLen else 0) + (if 0 < c.leEff then 1 else 0) := by
  rw [← Context.chunkLen_of_ne_chained (c := c) (by rw [h]; exact Mode.noConfusion)]
  unfold Context.unitLen; rw [h]

theorem Context.unitLen_of_extended {c : Context} (h : c.mode = .extended) :
    c.unitLen =
      4 + (if 0 < c.cmdLen then 3 + c.cmdLen else 0)
        + (if 0 < c.leEff then (if 0 < c.cmdLen then 2 else 3) else 0) := by
  rw [← Context.chunkLen_of_ne_chained (c := c) (by rw [h]; exact Mode.noConfusion)]
  unfold Context.unitLen; rw [h]

theorem Context.unitLen_of_chained {c : Context} (h : c.mode = .chained) :
    c.unitLen = 4 + 1 + c.chunkLen + (if c.isFinal = true ∧ 0 < c.leEff then 1 else 0) := by
  unfold Context.unitLen; rw [h]

/-- `UNIT_BYTES` is the encoding of the form, mode by mode (R103 to R106). -/
theorem Context.Legal.unitBytes_eq {c : Context} (hc : c.Legal) : c.unitBytes = encodeUnit c.unitForm := by
  have hdata : c.data.length = c.cmdLen := rfl
  cases hmode : c.mode with
  | short =>
    rw [Context.unitBytes_of_short hmode, Context.unitForm_of_short hmode, Context.shortUnit, Context.payload_all]
    by_cases hlen : c.cmdLen = 0
    · by_cases hle : c.leEff = 0 <;> simp [hlen, hle, Nat.pos_of_ne_zero, encodeUnit]
    · by_cases hle : c.leEff = 0 <;> simp [hlen, hle, Nat.pos_of_ne_zero, encodeUnit, hdata]
  | extended =>
    rw [Context.unitBytes_of_extended hmode, Context.unitForm_of_extended hmode, Context.extendedUnit,
      Context.payload_all]
    by_cases hlen : c.cmdLen = 0
    · have hpos := hc.leEff_pos_of_empty hmode hlen
      simp [hlen, hpos, encodeUnit]
    · by_cases hle : c.leEff = 0 <;> simp [hlen, hle, Nat.pos_of_ne_zero, encodeUnit, hdata]
  | chained =>
    rw [Context.unitBytes_of_chained hmode, Context.unitForm_of_chained hmode, Context.chainedUnit,
      show c.payload c.chunkBase c.chunkLen = c.chunk from rfl, ← hc.chunk_length]
    by_cases hle : c.isFinal = true ∧ 0 < c.leEff
    · rw [if_pos hle, if_pos hle]; simp [encodeUnit]
    · rw [if_neg hle, if_neg hle]; simp [encodeUnit]

theorem Context.unitForm_port (c : Context) : c.unitForm.port = .unit := by
  cases hmode : c.mode with
  | short =>
    rw [Context.unitForm_of_short hmode]
    repeat' split
    all_goals rfl
  | extended =>
    rw [Context.unitForm_of_extended hmode]
    repeat' split
    all_goals rfl
  | chained => rw [Context.unitForm_of_chained hmode]; split <;> rfl

theorem Context.Legal.unitForm_wf {c : Context} (hc : c.Legal) : c.unitForm.wf = true := by
  cases hmode : c.mode with
  | short =>
    have hshort (hne : ¬c.cmdLen = 0) : shortPayload c.data = true :=
      (shortPayload_eq_true c.data).mpr ⟨Nat.pos_of_ne_zero hne, hc.short hmode⟩
    rw [Context.unitForm_of_short hmode]
    repeat' split
    · rfl
    · rfl
    · exact hshort ‹_›
    · exact hshort ‹_›
  | extended =>
    have hext (hne : ¬c.cmdLen = 0) : extPayload c.data = true :=
      (extPayload_eq_true c.data).mpr ⟨Nat.pos_of_ne_zero hne, hc.len⟩
    rw [Context.unitForm_of_extended hmode]
    repeat' split
    · rfl
    · exact hext ‹_›
    · exact hext ‹_›
  | chained =>
    have hchunk : shortPayload c.chunk = true := by
      rw [shortPayload_eq_true, hc.chunk_length]; exact hc.chunkLen_of_chained hmode
    rw [Context.unitForm_of_chained hmode]
    split
    · exact hchunk
    · exact hchunk

/-! ### The length of the unit -/

/-- `UNIT_LEN` (R81) is the length of `UNIT_BYTES`, mode by mode. -/
theorem Context.Legal.unitBytes_length {c : Context} (hc : c.Legal) : c.unitBytes.length = c.unitLen := by
  have hdata : c.data.length = c.cmdLen := rfl
  cases hmode : c.mode with
  | short =>
    rw [Context.unitBytes_of_short hmode, Context.unitLen_of_short hmode, Context.shortUnit, Context.payload_all]
    by_cases hlen : 0 < c.cmdLen <;> by_cases hle : 0 < c.leEff <;>
      simp only [hlen, hle, hdata, if_true, if_false, List.length_append, List.length_cons, List.length_nil,
        Header.bytes_length] <;> omega
  | extended =>
    rw [Context.unitBytes_of_extended hmode, Context.unitLen_of_extended hmode, Context.extendedUnit,
      Context.payload_all]
    by_cases hlen : 0 < c.cmdLen <;> by_cases hle : 0 < c.leEff <;>
      simp only [hlen, hle, hdata, if_true, if_false, List.length_append, List.length_cons, List.length_nil,
        Header.bytes_length, be16_length] <;> omega
  | chained =>
    have hlength : (c.payload c.chunkBase c.chunkLen).length = c.chunkLen := hc.chunk_length
    rw [Context.unitBytes_of_chained hmode, Context.unitLen_of_chained hmode, Context.chainedUnit]
    by_cases hle : c.isFinal = true ∧ 0 < c.leEff
    · rw [if_pos hle, if_pos hle]
      simp only [List.length_append, List.length_cons, List.length_nil, Header.bytes_length, hlength]
      omega
    · rw [if_neg hle, if_neg hle]
      simp only [List.length_append, List.length_cons, List.length_nil, Header.bytes_length, hlength]
      omega

/-- The shortest unit is a header, the longest an extended unit of 65535 bytes with an Le (R81). -/
theorem Context.Legal.unitLen_bounds {c : Context} (hc : c.Legal) : 4 ≤ c.unitLen ∧ c.unitLen ≤ 65544 := by
  have hlen := hc.len
  cases hmode : c.mode with
  | short =>
    rw [Context.unitLen_of_short hmode]
    repeat' split
    all_goals omega
  | extended =>
    rw [Context.unitLen_of_extended hmode]
    repeat' split
    all_goals omega
  | chained =>
    have hchunk := hc.chunkLen_of_chained hmode
    rw [Context.unitLen_of_chained hmode]
    split <;> omega

/-! ### PARSE of the unit -/

theorem chainBitOf_withoutChainBit (cla : Byte) : chainBitOf (withoutChainBit cla) = false := by
  simp only [chainBitOf, withoutChainBit, BitVec.and_assoc]
  rw [show (0xEF#8 &&& 0x10#8 : Byte) = 0#8 from rfl]
  simp

theorem chainBitOf_withChainBit (cla : Byte) : chainBitOf (withChainBit cla) = true := by
  have hbit : (withChainBit cla &&& 0x10#8).getLsbD 4 = true := by simp [withChainBit]
  have hne : withChainBit cla &&& 0x10#8 ≠ 0#8 := by
    intro h
    rw [h] at hbit
    simp at hbit
  simpa [chainBitOf] using hne

/-- The chaining bit of a unit says whether more units follow (R30, R78). -/
theorem Context.chainBitOf_unitHeader (c : Context) : chainBitOf c.unitHeader.cla = !c.isFinal := by
  unfold Context.unitHeader Context.unitCla
  cases hfinal : c.isFinal with
  | true => exact chainBitOf_withoutChainBit _
  | false => exact chainBitOf_withChainBit _

/-- A short Le byte stands for the expected length it was made from, 256 as 0x00 (R74). -/
theorem shortLe_ofNat {n : Nat} (hpos : 0 < n) (hle : n ≤ 256) : shortLe (BitVec.ofNat 8 n) = n := by
  unfold shortLe
  by_cases h : n = 256
  · subst h; rfl
  · rw [if_neg (ofNat8_ne_zero hpos (by omega)), toNat_ofNat_of_lt (by omega)]

/-- An extended Le field stands for the expected length it was made from, 65536 as 0x0000 (R75). -/
theorem extLe_mod {n : Nat} (hpos : 0 < n) (hle : n ≤ 65536) : extLe (n % 65536) = n := by
  unfold extLe
  simp only [Config.extLeMax]
  split <;> omega

/-- The view that a unit is to give has the flag and the buffer that PARSE gives it (R141, R149). -/
theorem Context.unitView_eq (c : Context) (b : Nat) :
    c.unitView b =
      mkView c.unitHeader b (if c.chunkLen = 0 then 4 else if c.mode = .extended then 7 else 5) c.chunkLen
        (if c.isFinal then c.leEff else 0) (decide (c.mode = .extended)) := by
  unfold Context.unitView mkView
  rw [c.chainBitOf_unitHeader]

theorem Context.unitView_of_short {c : Context} (b : Nat) (h : c.mode = .short) :
    c.unitView b = mkView c.unitHeader b (if c.cmdLen = 0 then 4 else 5) c.cmdLen c.leEff false := by
  have hne : c.mode ≠ .chained := by rw [h]; exact Mode.noConfusion
  have hext : c.mode ≠ .extended := by rw [h]; exact Mode.noConfusion
  rw [Context.unitView_eq, Context.chunkLen_of_ne_chained hne, Context.isFinal_of_ne_chained hne, if_neg hext,
    decide_eq_false hext, if_pos rfl]

theorem Context.unitView_of_extended {c : Context} (b : Nat) (h : c.mode = .extended) :
    c.unitView b = mkView c.unitHeader b (if c.cmdLen = 0 then 4 else 7) c.cmdLen c.leEff true := by
  have hne : c.mode ≠ .chained := by rw [h]; exact Mode.noConfusion
  rw [Context.unitView_eq, Context.chunkLen_of_ne_chained hne, Context.isFinal_of_ne_chained hne, if_pos h,
    decide_eq_true h, if_pos rfl]

theorem Context.Legal.unitView_of_chained {c : Context} (hc : c.Legal) (b : Nat) (h : c.mode = .chained) :
    c.unitView b = mkView c.unitHeader b 5 c.chunk.length (if c.isFinal then c.leEff else 0) false := by
  have hchunk := hc.chunkLen_of_chained h
  have hext : c.mode ≠ .extended := by rw [h]; exact Mode.noConfusion
  rw [Context.unitView_eq, hc.chunk_length, if_neg (by omega), if_neg hext, decide_eq_false hext]

/-- The view of the unit's form is the view that the unit is to give (R149). -/
theorem Context.Legal.formView_unitForm {c : Context} (hc : c.Legal) (b : Nat) :
    formView b c.unitForm = .ok (c.unitView b) := by
  have hdata : c.data.length = c.cmdLen := rfl
  cases hmode : c.mode with
  | short =>
    have hle : c.leEff ≤ 256 := by
      rw [Context.leEff_of_ne_extended (by rw [hmode]; exact Mode.noConfusion)]; omega
    have hshortLe (hne : ¬c.leEff = 0) := shortLe_ofNat (Nat.pos_of_ne_zero hne) hle
    rw [Context.unitForm_of_short hmode, Context.unitView_of_short b hmode]
    by_cases hlen : c.cmdLen = 0
    · rw [if_pos hlen, if_pos hlen, hlen]
      by_cases hzero : c.leEff = 0
      · rw [if_pos hzero, hzero]; rfl
      · rw [if_neg hzero, formView, hshortLe hzero]
    · rw [if_neg hlen, if_neg hlen]
      by_cases hzero : c.leEff = 0
      · rw [if_pos hzero, hzero, formView, hdata]
      · rw [if_neg hzero, formView, hshortLe hzero, hdata]
  | extended =>
    have hextLe (hpos : 0 < c.leEff) : extLe (BitVec.ofNat 16 c.leEff).toNat = c.leEff := by
      rw [BitVec.toNat_ofNat]; exact extLe_mod hpos hc.leEff_le
    rw [Context.unitForm_of_extended hmode, Context.unitView_of_extended b hmode]
    by_cases hlen : c.cmdLen = 0
    · rw [if_pos hlen, if_pos hlen, hlen, formView, hextLe (hc.leEff_pos_of_empty hmode hlen)]
    · rw [if_neg hlen, if_neg hlen]
      by_cases hzero : c.leEff = 0
      · rw [if_pos hzero, hzero, formView, hdata]
      · rw [if_neg hzero, formView, hextLe (Nat.pos_of_ne_zero hzero), hdata]
  | chained =>
    have hle : c.leEff ≤ 256 := by
      rw [Context.leEff_of_ne_extended (by rw [hmode]; exact Mode.noConfusion)]; omega
    rw [Context.unitForm_of_chained hmode, hc.unitView_of_chained b hmode]
    by_cases hlast : c.isFinal = true ∧ 0 < c.leEff
    · rw [if_pos hlast, if_pos hlast.1, formView, shortLe_ofNat hlast.2 hle]
    · have hzero : (if c.isFinal = true then c.leEff else 0) = 0 := by
        split
        · rename_i hfinal
          exact Nat.eq_zero_of_not_pos fun hpos => hlast ⟨hfinal, hpos⟩
        · rfl
      rw [if_neg hlast, hzero, formView]

/-- The decoder reads the unit of a legal context as its form. -/
theorem Context.Legal.decodeUnit_unitBytes {c : Context} (hc : c.Legal) : decodeUnit c.unitBytes = .ok c.unitForm := by
  rw [hc.unitBytes_eq]
  exact decodeUnit_encodeUnit _ c.unitForm_port hc.unitForm_wf

theorem Context.unitBytes_eq_append (c : Context) : ∃ rest, c.unitBytes = c.unitHeader.bytes ++ rest := by
  unfold Context.unitBytes
  split <;> simp [Context.shortUnit, Context.extendedUnit, Context.chainedUnit]

/-- PARSE of the unit of a legal context, whose class is not rejected, is the view it is to give (R149). -/
theorem Context.Legal.parseBytes_unitBytes {c : Context} (hc : c.Legal) (b : Nat)
    (hcla : rejectsClass c.unitCla = false) : parseBytes b c.unitBytes = .ok (c.unitView b) := by
  have hread : recvRead c.unitBytes 0 = c.unitCla := by
    obtain ⟨rest, hrest⟩ := c.unitBytes_eq_append
    rw [hrest]; rfl
  rw [parseBytes_eq, hread, hcla, if_neg (by simp), hc.decodeUnit_unitBytes]
  exact hc.formView_unitForm b

theorem recvSlice_append (p d q : List Byte) : recvSlice (p ++ (d ++ q)) p.length d.length = some d := by
  rw [recvSlice_eq_some]; simp

/-- The payload slice of the view is the payload of the unit (R141, R149). -/
theorem Context.Legal.recvSlice_unitBytes {c : Context} (hc : c.Legal) (b : Nat) :
    recvSlice c.unitBytes (c.unitView b).doff (c.unitView b).dlen = some c.chunk := by
  have hlength := hc.chunk_length
  by_cases hempty : c.chunkLen = 0
  · have hfour := c.four_le_unitBytes
    have hnil : c.chunk = [] := List.eq_nil_of_length_eq_zero (by omega)
    simp [recvSlice, Context.unitView, hempty, hnil, hfour]
  · have hdata : c.mode ≠ .chained → c.chunk = c.data := hc.chunk_of_ne_chained
    have hslice (p q : List Byte) (hbytes : c.unitBytes = p ++ (c.chunk ++ q)) (hp : p.length = (c.unitView b).doff) :
        recvSlice c.unitBytes (c.unitView b).doff (c.unitView b).dlen = some c.chunk := by
      rw [hbytes, ← hp, show (c.unitView b).dlen = c.chunk.length from hlength.symm]
      exact recvSlice_append p c.chunk q
    cases hmode : c.mode with
    | short =>
      have hlen : c.chunkLen = c.cmdLen := Context.chunkLen_of_ne_chained (by simp [hmode])
      refine hslice (c.unitHeader.bytes ++ [BitVec.ofNat 8 c.cmdLen])
        (if 0 < c.leEff then [BitVec.ofNat 8 c.leEff] else []) ?_ (by simp [Context.unitView, hempty, hmode])
      simp [Context.unitBytes_of_short hmode, Context.shortUnit, Context.payload_all, hdata (by simp [hmode]),
        show 0 < c.cmdLen by omega]
    | extended =>
      have hlen : c.chunkLen = c.cmdLen := Context.chunkLen_of_ne_chained (by simp [hmode])
      refine hslice (c.unitHeader.bytes ++ 0#8 :: be16 c.cmdLen) (if 0 < c.leEff then be16 (c.leEff % 65536) else [])
        ?_ (by simp [Context.unitView, hempty, hmode])
      simp [Context.unitBytes_of_extended hmode, Context.extendedUnit, Context.payload_all, hdata (by simp [hmode]),
        show 0 < c.cmdLen by omega]
    | chained =>
      refine hslice (c.unitHeader.bytes ++ [BitVec.ofNat 8 c.chunkLen])
        (if c.isFinal = true ∧ 0 < c.leEff then [BitVec.ofNat 8 c.leEff] else []) ?_
        (by simp [Context.unitView, hempty, hmode])
      simp [Context.unitBytes_of_chained hmode, Context.chainedUnit, Context.chunk]

/-! ### The obligations -/

/-- Settles O5, mode by mode (R103 to R106). -/
theorem unitBytesAreATableForm : Obligations.UnitBytesAreATableForm := by
  intro c hc
  exact ⟨hc.unitForm_wf, c.unitForm_port, by rw [encode_of_port_unit c.unitForm_port, hc.unitBytes_eq]⟩

/-- Settles O6, mode by mode (R81). -/
theorem unitLengthFormulaHolds : Obligations.UnitLengthFormulaHolds := by
  intro c hc
  obtain ⟨hlo, hhi⟩ := hc.unitLen_bounds
  exact ⟨hc.unitBytes_length, hlo, hhi⟩

/-- Settles O31: PARSE decodes the unit to its form (O1, O5), whose view is the one wanted (R149). -/
theorem parseOfEmittedUnit : Obligations.ParseOfEmittedUnit := by
  intro c v b s hc hbuf hcla
  exact ⟨execParse_of_ok (by rw [hbuf]; exact hc.parseBytes_unitBytes b hcla), hc.recvSlice_unitBytes b⟩

end Sys2Proof.Machine

/-! PROOFS. The moves of the caller and the transport (60_exceptions.md rule R193): what one step makes of each. -/

namespace Sys2Proof.Machine

/-! ### A step takes the next move -/

theorem step_of_inputs {s : State} {m : Input} {rest : List Input} (h : s.inputs = m :: rest) :
    step s = accept m { s with inputs := rest } := by
  unfold step; rw [h]

theorem step_of_no_inputs {s : State} (h : s.inputs = []) : step s = .next s := by
  unfold step; rw [h]

theorem issue_of_ok {bs : List Byte} {i : Instr} (s : State) (h : decode .op bs = .ok i) : issue bs s = exec i s := by
  unfold issue; rw [h]

theorem issue_of_error {bs : List Byte} {e : DecodeError} (s : State) (h : decode .op bs = .error e) :
    issue bs s = .refused (refuseBytes e) := by
  unfold issue; rw [h]

theorem decode_op_of_unknown (op : Byte) (bs : List Byte)
    (h : op ∉ [0x01#8, 0x02#8, 0x03#8, 0x10#8, 0x20#8, 0x21#8, 0x22#8]) :
    decode .op (op :: bs) = .error (.badOp op) := by
  simp only [decode, decodeOp, takeOperands_eq_none op h]

/-! ### A delivery -/

theorem State.arrive_rx (s : State) (v b : Nat) (bs : List Byte) : (s.arrive v b bs).rx = ⟨v, b⟩ := rfl

@[simp] theorem State.arrive_buf_self (s : State) (v b : Nat) (bs : List Byte) : (s.arrive v b bs).buf b = bs := by
  rw [show (s.arrive v b bs).buf b = (s.fillBuf b bs).buf b from rfl, State.fillBuf_buf, if_pos rfl]

theorem deliver_of_ok {v b : Nat} {bs : List Byte} {i : Instr} (s : State) (h : decode .unit bs = .ok i) :
    deliver v b bs s = exec i (s.arrive v b bs) := by
  unfold deliver; rw [h]

/-- The delivery of a unit is PARSE of the buffer that it comes into, whether its bytes are a unit or not (log entry 4). -/
theorem deliver_eq (v b : Nat) (bs : List Byte) (s : State) :
    deliver v b bs s = exec (.parse v b) (s.arrive v b bs) := by
  unfold deliver
  split
  · rename_i i hi
    have hdec : decodeUnit ((s.arrive v b bs).buf b) = .ok i := by
      rw [State.arrive_buf_self]; exact (decode_unit_eq_ok bs i).mp hi
    exact (exec_parse_of_decodeUnit (s.arrive_rx v b bs) hdec).symm
  · rfl

theorem State.arrive_filledTo (s : State) (v b : Nat) (bs : List Byte) (rest : List Input) :
    s.FilledTo b bs rest (State.arrive { s with inputs := rest } v b bs) :=
  s.fillBuf_filledTo b bs rest ⟨v, b⟩

/-! ### The other moves -/

theorem writeCommand_of_unchanged {c : Nat} {cmd : LogicalCommand} {s : State}
    (h : ∀ x, s.ctx c = some x → cmd = x.command) : writeCommand c cmd s = .next s := by
  unfold writeCommand
  split
  · rfl
  · rename_i x hx; exact if_pos (h x hx).symm

theorem writeCommand_of_changed {c : Nat} {cmd : LogicalCommand} {x : Context} {s : State} (hx : s.ctx c = some x)
    (hne : cmd ≠ x.command) : writeCommand c cmd s = .refused .staleInput := by
  unfold writeCommand
  rw [hx]
  exact if_neg (Ne.symm hne)

/-! ### The obligations -/

/-- Settles O7: the step takes the record, and its decoding is run (log entry 3). -/
theorem stepRunsDecodedOperation : Obligations.StepRunsDecodedOperation := by
  intro s bs rest i hs hi
  rw [step_of_inputs hs]
  exact issue_of_ok _ hi

/-- Settles O8: the step takes the unit, which arrives in its buffer before its form is run (log entries 3 to 5). -/
theorem stepRunsDecodedUnit : Obligations.StepRunsDecodedUnit := by
  intro s v b bs rest i hs hi
  refine ⟨_, s.arrive_filledTo v b bs rest, rfl, ?_⟩
  rw [step_of_inputs hs]
  exact deliver_of_ok _ hi

/-- Settles O9 (R212). -/
theorem stepWaitsWithoutInput : Obligations.StepWaitsWithoutInput := fun _ h => step_of_no_inputs h

/-- Settles O10: no operands belong to such a code, so that the decoder names it (R87). -/
theorem unknownOperationCodeRefused : Obligations.UnknownOperationCodeRefused := by
  intro s op bs rest hop hs
  rw [step_of_inputs hs]
  exact issue_of_error _ (decode_op_of_unknown op bs hop)

/-- Settles O48: the write is compared with the live command (R64). -/
theorem changeOfALiveCommandRefused : Obligations.ChangeOfALiveCommandRefused := by
  intro c cmd x rest s hs hx hne
  rw [step_of_inputs hs]
  exact writeCommand_of_changed hx hne

/-- Settles O49: the reset drops the stores of contexts, views and accumulators (R210, R211). -/
theorem resetAbandonsEverything : Obligations.ResetAbandonsEverything := by
  intro rest s hs
  refine ⟨State.restart { s with inputs := rest }, step_of_inputs hs, rfl, ?_, ?_, ?_, rfl, rfl⟩
  · exact State.restart_ctx _
  · exact State.restart_view _
  · exact State.restart_acc _

/-- Settles O55: the delivery is PARSE of its buffer, which gives the decoder's reason or INVALID_CLASS (R83, R146). -/
theorem deliveredNonUnitGivesItsReason : Obligations.DeliveredNonUnitGivesItsReason := by
  intro s v b bs rest r hs hr
  refine ⟨_, s.arrive_filledTo v b bs rest, rfl, ?_⟩
  have hdec : decodeUnit ((State.arrive { s with inputs := rest } v b bs).buf b) = .error r := by
    rw [State.arrive_buf_self]; exact (decode_unit_eq_error bs r).mp hr
  rw [step_of_inputs hs, show accept (.unit v b bs) { s with inputs := rest } = deliver v b bs _ from rfl, deliver_eq,
    exec_parse_of_decodeUnit_error hdec, State.arrive_buf_self]
  simp only [rejectsClass_eq_true]
  rfl

/-- Settles O56 (R50, R65). -/
theorem stepFillsAReceiveBuffer : Obligations.StepFillsAReceiveBuffer := by
  intro s b bs rest hs
  exact ⟨_, s.fillBuf_filledTo b bs rest (State.fillBuf { s with inputs := rest } b bs).rx, State.fillBuf_rx _ _ _,
    step_of_inputs hs⟩

/-- Settles O57: the write is compared with the command of the context if that is live (R64). -/
theorem unchangedCommandIsNoHazard : Obligations.UnchangedCommandIsNoHazard := by
  intro c cmd rest s hs h
  rw [step_of_inputs hs]
  exact writeCommand_of_unchanged h

end Sys2Proof.Machine

/-! PROOFS. The accumulator (42_accumulator.md): the states in which ACC_EXTEND and ACC_READ stop before the view is looked
at, the header check (rule R163), and what is read back (rule R170). -/

namespace Sys2Proof.Machine

theorem exec_accNew (a n : Nat) (s : State) : exec (.accNew a n) s = execAccNew a n s := rfl

theorem exec_accRead (a : Nat) (s : State) : exec (.accRead a) s = execAccRead a s := rfl

/-! ### ACC_EXTEND before the capacity check -/

theorem execAccExtend_of_complete {a : Nat} (v : Nat) {s : State} (h : (s.acc a).state = .complete) :
    execAccExtend a v s = .next (s.returns .alreadyComplete) := by
  unfold execAccExtend; rw [h]

theorem execAccExtend_of_failed {a : Nat} (v : Nat) {s : State} (h : (s.acc a).state = .failed) :
    execAccExtend a v s = .refused .accFailed := by
  unfold execAccExtend; rw [h]

/-- An accumulator that is neither COMPLETE nor FAILED looks at its view (R161). -/
theorem execAccExtend_of_open {a : Nat} (v : Nat) {s : State}
    (h : (s.acc a).state = .empty ∨ (s.acc a).state = .continuing) :
    execAccExtend a v s = withView v s fun x => foldView a (s.acc a) x s := by
  unfold execAccExtend
  rcases h with h | h <;> rw [h]

theorem withView_of_stale {v : Nat} {x : View} {s : State} (k : View → Host.Outcome State Fault Refusal)
    (hx : s.view v = some x) (hstale : x.stale = true) : withView v s k = .refused .staleInput := by
  unfold withView
  rw [hx]
  exact if_pos hstale

theorem foldView_of_mismatch (a : Nat) {x : Acc} {v : View} {h : Header} (s : State) (hcont : x.state = .continuing)
    (hh : x.hdr = some h) (hne : unchained v.hdr ≠ h) :
    foldView a x v s = .next ((s.setAcc a x.discard).returns .headerMismatch) := by
  unfold foldView
  rw [if_pos hcont, hh]
  exact if_pos hne

/-! ### ACC_READ -/

theorem execAccRead_of_failed {a : Nat} {s : State} (h : (s.acc a).state = .failed) :
    execAccRead a s = .refused .accFailed := by
  unfold execAccRead; rw [h]

theorem execAccRead_of_empty {a : Nat} {s : State} (h : (s.acc a).state = .empty) :
    execAccRead a s = .next (s.returns (.okRead .empty)) := by
  unfold execAccRead; rw [h]

theorem execAccRead_of_readable {a : Nat} {s : State}
    (h : (s.acc a).state = .continuing ∨ (s.acc a).state = .complete) : execAccRead a s = readFields (s.acc a) s := by
  unfold execAccRead
  rcases h with h | h <;> rw [h]

theorem readFields_eq {x : Acc} {h : Header} {le : Nat} {ds : List Byte} (s : State) (hh : x.hdr = some h)
    (hle : x.le = some le) (hds : Memory.readRun x.buf 0 x.len = some ds) :
    readFields x s = .next (s.returns (.okRead (.fields x.state h ds le))) := by
  unfold readFields; rw [hh, hle, hds]

/-- A run of which every byte holds a value can be read. -/
theorem Memory.readRun_isSome (m : Memory) (i n : Nat) (h : ∀ j, j < n → (Memory.read m (i + j)).isSome = true) :
    ∃ ds, Memory.readRun m i n = some ds := by
  induction n generalizing i with
  | zero => exact ⟨[], rfl⟩
  | succ n ih =>
    obtain ⟨b, hb⟩ := Option.isSome_iff_exists.mp (h 0 (by omega))
    obtain ⟨ds, hds⟩ := ih (i + 1) fun j hj => by
      have hnext := h (j + 1) (by omega)
      rwa [show i + (j + 1) = i + 1 + j by omega] at hnext
    exact ⟨b :: ds, by simp only [Memory.readRun, hds]; rw [show Memory.read m i = some b from hb]⟩

/-! ### The obligations -/

/-- Settles O37 (R160). -/
theorem newAccumulatorIsEmpty : Obligations.NewAccumulatorIsEmpty := by
  intro a n s
  refine ⟨_, exec_accNew a n s, rfl, State.setAcc_acc_self s a _, fun k hk => ?_, rfl, rfl, rfl, rfl, rfl, rfl⟩
  exact (State.setAcc_acc s a k _).trans (if_neg hk)

/-- Settles O39: of what ACC_EXTEND can do, only the append returns CONTINUING or COMPLETE, and it writes its run alone (R53,
R165). -/
theorem foldWritesOnlyItsRun : Obligations.FoldWritesOnlyItsRun := by
  intro a v x ds s t hx hds h ho
  cases execAccExtend_eq_next a v s t h with
  | already _ => simp at ho
  | mismatch _ _ _ _ _ _ _ => simp at ho
  | folded y t hy _ _ ht =>
    obtain rfl : x = y := Option.some.inj (hx.symm.trans hy)
    cases ht with
    | exceeds _ => simp at ho
    | fits bs hfit hbs =>
      obtain rfl : ds = bs := Option.some.inj (hds.symm.trans hbs)
      have hlen := recvSlice_length hds
      simp only [State.returns_acc, State.setAcc_acc_self]
      exact ⟨fun i hi => Acc.append_read_inside _ _ x ds i (by omega),
        fun i hi => Acc.append_read_outside _ _ x ds i (by omega)⟩

/-- Settles O40: the header check stands before the capacity check (R163). -/
theorem differentHeaderFails : Obligations.DifferentHeaderFails := by
  intro a v x h s hx hfresh hcont hh hdiff
  have hne : unchained x.hdr ≠ h := by
    rintro rfl
    simp [unchained, withoutChainBit] at hdiff
  rw [exec_accExtend, execAccExtend_of_open v (.inr hcont), withView_of_fresh _ hx hfresh,
    foldView_of_mismatch a s hcont hh hne]
  rfl

/-- Settles O42 (R162). -/
theorem completeAccumulatorStays : Obligations.CompleteAccumulatorStays :=
  fun _ v _ h => execAccExtend_of_complete v h

/-- Settles O43 (R169, R160). -/
theorem failureIsFinalUntilNew : Obligations.FailureIsFinalUntilNew := by
  intro a v n s h
  refine ⟨execAccExtend_of_failed v h, execAccRead_of_failed h, _, rfl, ?_⟩
  exact congrArg Acc.state (State.setAcc_acc_self s a _)

/-- Settles O44: in a legal accumulator every field that ACC_READ asks for holds a value (R46, R170, R171). -/
theorem accReadReturnsWhatIsHeld : Obligations.AccReadReturnsWhatIsHeld := by
  intro a s hlegal
  refine ⟨execAccRead_of_empty, fun hstate => ?_⟩
  obtain ⟨hhdr, hle⟩ := hlegal.seeded hstate
  obtain ⟨h, hh⟩ := Option.isSome_iff_exists.mp hhdr
  obtain ⟨le, hle⟩ := Option.isSome_iff_exists.mp hle
  obtain ⟨ds, hds⟩ := Memory.readRun_isSome (s.acc a).buf 0 (s.acc a).len fun j hj =>
    (hlegal.holds (0 + j)).mpr (by omega)
  obtain ⟨hlength, hread⟩ := (Memory.readRun_eq_some _ _ _ _).mp hds
  refine ⟨h, ds, le, hh, hle, hlength, fun i hi => by simpa using hread i hi, ?_⟩
  rw [exec_accRead, execAccRead_of_readable hstate, readFields_eq s hh hle hds]
  rfl

/-- Settles O47: a write that changes the buffer marks its views, and one that does not changes nothing (R65). -/
theorem viewOfAChangedBufferRefused : Obligations.ViewOfAChangedBufferRefused := by
  intro a v x bs s hx
  refine ⟨fun hchange hopen => ?_, fun hsame => ?_⟩
  · have hview : (s.fillBuf x.buf bs).view v = some { x with stale := true } := by
      rw [State.fillBuf_view, if_neg (Ne.symm hchange), hx]
      simp [View.spoil]
    rw [exec_accExtend, execAccExtend_of_open v (by simpa using hopen), withView_of_stale _ hview rfl]
  · rw [State.fillBuf_view, if_pos hsame.symm, hx]

end Sys2Proof.Machine

/-! PROOFS. SER_STEP (40_serializer.md rule R110), pass by pass: what it leaves in the state, which writers it completes with
(30_encoding.md rule R86), and what it appends. -/

namespace Sys2Proof.Machine

theorem exec_serCancel (c : Nat) (s : State) : exec (.serCancel c) s = execSerCancel c s := rfl

/-! ### A number of a store given something, or nothing -/

/-- The store in which number `k` holds `v`, or nothing where there is no `v`. -/
def Slots.assign {α : Type} (m : Slots α) (k : Nat) : Option α → Slots α
  | some v => Slots.set m k v
  | none => Slots.erase m k

theorem Slots.get_assign {α : Type} (m : Slots α) (k k' : Nat) (v : Option α) :
    Slots.get (Slots.assign m k v) k' = if k' = k then v else Slots.get m k' := by
  cases v with
  | some v => exact Slots.get_set m k k' v
  | none => exact Slots.get_erase m k k'

theorem Slots.assign_sorted {α : Type} (m : Slots α) (k : Nat) (v : Option α) (h : Slots.sorted m = true) :
    Slots.sorted (Slots.assign m k v) = true := by
  cases v with
  | some v => exact Slots.set_sorted m k v h
  | none => exact Slots.erase_sorted m k h

/-- Two different numbers can be given what they are to hold in either order. -/
theorem Slots.assign_comm {α : Type} (m : Slots α) {k k' : Nat} (v v' : Option α) (h : Slots.sorted m = true)
    (hne : k ≠ k') : Slots.assign (Slots.assign m k v) k' v' = Slots.assign (Slots.assign m k' v') k v := by
  refine Slots.ext_of_sorted _ _ (Slots.assign_sorted _ _ _ (Slots.assign_sorted _ _ _ h))
    (Slots.assign_sorted _ _ _ (Slots.assign_sorted _ _ _ h)) fun n => ?_
  simp only [Slots.get_assign]
  by_cases hn : n = k
  · subst hn; simp [hne]
  · simp [hn]

/-- What a writer's number is given: a writer at its default is not listed (log entry 11). -/
def WriterState.listed (w : WriterState) : Option WriterState := if w = {} then none else some w

theorem State.setWriter_writers_eq (s : State) (j : Nat) (w : WriterState) :
    (s.setWriter j w).writers = Slots.assign s.writers j w.listed := by
  rw [State.setWriter_writers]
  unfold WriterState.listed
  split <;> rfl

/-! ### What SER_STEP leaves -/

/-- The context that an end of the loop leaves live, if it leaves one (R112 to R115). -/
def SerEnd.left : SerEnd → Option Context
  | .done => none
  | .pending c => some c
  | .failed _ => none

/-- The outcome that an end of the loop returns (R112 to R115). -/
def SerEnd.outcome : SerEnd → OpOutcome
  | .done => .done
  | .pending c => .pending c
  | .failed e => .writerError e

/-- An end of the loop touches one context, one writer and the outcome. -/
theorem SerEnd.apply_eq (e : SerEnd) (n j : Nat) (k : WriterState) (s : State) :
    e.apply n j k s =
      { s with
        ctxs := Slots.assign s.ctxs n e.left
        writers := Slots.assign s.writers j k.listed
        outcome := some e.outcome } := by
  rw [← State.setWriter_writers_eq]
  cases e <;> rfl

@[simp] theorem SerEnd.apply_outcome (e : SerEnd) (n j : Nat) (k : WriterState) (s : State) :
    (e.apply n j k s).outcome = some e.outcome := by
  rw [SerEnd.apply_eq]

theorem SerEnd.apply_ctx (e : SerEnd) (n j d : Nat) (k : WriterState) (s : State) :
    (e.apply n j k s).ctx d = if d = n then e.left else s.ctx d := by
  rw [SerEnd.apply_eq]
  exact Slots.get_assign s.ctxs n d e.left

@[simp] theorem SerEnd.apply_ctx_self (e : SerEnd) (n j : Nat) (k : WriterState) (s : State) :
    (e.apply n j k s).ctx n = e.left := by
  rw [SerEnd.apply_ctx, if_pos rfl]

theorem SerEnd.apply_writer (e : SerEnd) (n j i : Nat) (k : WriterState) (s : State) :
    (e.apply n j k s).writer i = if i = j then k else s.writer i := by
  rw [← State.setWriter_writer]
  cases e <;> rfl

@[simp] theorem SerEnd.apply_writer_self (e : SerEnd) (n j : Nat) (k : WriterState) (s : State) :
    (e.apply n j k s).writer j = k := by
  rw [SerEnd.apply_writer, if_pos rfl]

/-- Ends of operations on two contexts and two writers can be applied in either order, the outcome last returned aside. -/
theorem SerEnd.apply_comm (e e' : SerEnd) {n n' j j' : Nat} (k k' : WriterState) {s : State} (hs : s.Inv)
    (hn : n ≠ n') (hj : j ≠ j') :
    { e.apply n j k (e'.apply n' j' k' s) with outcome := some e'.outcome } =
      e'.apply n' j' k' (e.apply n j k s) := by
  simp only [SerEnd.apply_eq, Slots.assign_comm _ _ _ hs.ctxsSorted hn, Slots.assign_comm _ _ _ hs.writersSorted hj]

theorem serStep_of_next {n : Nat} {c : Context} {w : Writer} {s : State} {e : SerEnd} {k : Sink}
    (h : serLoop c.passes c ⟨w.id, w.answers, s.writer w.id⟩ = .next (e, k)) :
    serStep n c w s = .next (e.apply n w.id k.st s) :=
  (serStep_eq_next n c w s _).mpr ⟨e, k, h, rfl⟩

theorem serStep_of_refused {n : Nat} {c : Context} {w : Writer} {s : State} {r : Refusal}
    (h : serLoop c.passes c ⟨w.id, w.answers, s.writer w.id⟩ = .refused r) : serStep n c w s = .refused r := by
  unfold serStep; rw [h]

/-- SER_START completes with INVALID_CLASS alone, or runs SER_STEP (R107, R108). -/
theorem execSerStart_eq_next {c : Nat} {cmd : LogicalCommand} {ext : Bool} {w : Writer} {s t : State}
    (h : execSerStart c cmd ext w s = .next t) :
    cmd.inRange = true ∧ (cmd.hdr.cla = Config.invalidCla ∧ t = s.returns .invalidClass ∨
      cmd.hdr.cla ≠ Config.invalidCla ∧ serStep c (startContext cmd ext) w s = .next t) := by
  unfold execSerStart at h
  split at h
  · cases h
  · rename_i hrange
    refine ⟨by simpa using hrange, ?_⟩
    split at h
    · rename_i hcla; cases h; exact .inl ⟨hcla, rfl⟩
    · rename_i hcla; exact .inr ⟨hcla, h⟩

theorem execSerStart_of_inRange {c : Nat} {cmd : LogicalCommand} (ext : Bool) (w : Writer) (s : State)
    (hrange : cmd.inRange = true) (hcla : cmd.hdr.cla ≠ Config.invalidCla) :
    execSerStart c cmd ext w s = serStep c (startContext cmd ext) w s := by
  unfold execSerStart
  rw [if_neg (by simp [hrange]), if_neg hcla]

theorem execSerResume_of_dead {c : Nat} (ext : Bool) (w : Writer) {s : State} (h : s.ctx c = none) :
    execSerResume c ext w s = .refused .resumeNotLive := by
  unfold execSerResume; rw [h]

/-- SER_RESUME completes only where its context is live, and is then SER_STEP (R116, R118). -/
theorem execSerResume_eq_next {c : Nat} (ext : Bool) {w : Writer} {s t : State}
    (h : execSerResume c ext w s = .next t) : ∃ x, s.ctx c = some x ∧ serStep c x w s = .next t := by
  cases hx : s.ctx c with
  | none => rw [execSerResume_of_dead ext w hx] at h; cases h
  | some x => rw [execSerResume_of_live c x ext w s hx] at h; exact ⟨x, rfl, h⟩

/-! ### One pass of the loop -/

theorem Context.unitBytes_pos (c : Context) : 0 < c.unitBytes.length :=
  Nat.lt_of_lt_of_le (by decide) c.four_le_unitBytes

theorem length_of_chooseMode_chained {len le : Nat} {ext : Bool} (h : chooseMode len le ext = .chained) :
    255 < len := by
  simp only [chooseMode, Config.shortLcMax] at h
  split at h
  · cases h
  · split at h
    · assumption
    · cases h

/-- The end of a complete unit (R112, R113). -/
def Context.unitEnd (c : Context) : SerEnd := if c.isFinal = true then .done else .pending c.nextUnit

section Pass

variable {fuel cap k : Nat} {c : Context} {w w₁ w₂ : Sink}

theorem serLoop_of_complete (hfull : c.unitOff = c.unitBytes.length) :
    serLoop (fuel + 1) c w = .next (c.unitEnd, w) := by
  rw [serLoop, if_pos hfull, Context.goesOn_eq, Context.unitEnd]
  cases c.isFinal <;> rfl

theorem serLoop_of_no_answer (hmore : c.unitOff ≠ c.unitBytes.length) (hask : w.remaining = none) :
    serLoop (fuel + 1) c w = .refused .writerContract := by
  rw [serLoop, if_neg hmore, hask]

theorem serLoop_of_full (hmore : c.unitOff ≠ c.unitBytes.length) (hask : w.remaining = some (0, w₁)) :
    serLoop (fuel + 1) c w = .next (.pending c.stopped, w₁) := by
  rw [serLoop, if_neg hmore, hask]
  exact if_pos rfl

theorem serLoop_of_no_reply (hmore : c.unitOff ≠ c.unitBytes.length) (hask : w.remaining = some (cap, w₁))
    (hcap : cap ≠ 0) (hwrite : w₁.write (c.offer cap) = none) :
    serLoop (fuel + 1) c w = .refused .writerContract := by
  simp only [serLoop, if_neg hmore, hask, if_neg hcap, hwrite]

theorem serLoop_of_err {e : WErr} (hmore : c.unitOff ≠ c.unitBytes.length) (hask : w.remaining = some (cap, w₁))
    (hcap : cap ≠ 0) (hwrite : w₁.write (c.offer cap) = some (.err e, w₂)) :
    serLoop (fuel + 1) c w = .next (.failed e, w₂) := by
  simp only [serLoop, if_neg hmore, hask, if_neg hcap, hwrite]

theorem serLoop_of_ok_zero (hmore : c.unitOff ≠ c.unitBytes.length) (hask : w.remaining = some (cap, w₁))
    (hcap : cap ≠ 0) (hwrite : w₁.write (c.offer cap) = some (.ok 0, w₂)) :
    serLoop (fuel + 1) c w = .next (.pending c.stopped, w₂) := by
  simp only [serLoop, if_neg hmore, hask, if_neg hcap, hwrite, if_true]

theorem serLoop_of_ok (hmore : c.unitOff ≠ c.unitBytes.length) (hask : w.remaining = some (cap, w₁))
    (hcap : cap ≠ 0) (hwrite : w₁.write (c.offer cap) = some (.ok k, w₂)) (hk : k ≠ 0) :
    serLoop (fuel + 1) c w = serLoop fuel (c.advance k) w₂ := by
  simp only [serLoop, if_neg hmore, hask, if_neg hcap, hwrite, if_neg hk]

end Pass

/-! ### The reference writer `buf(cap)` (R89) -/

theorem Sink.remaining_buf (j cap : Nat) (st : WriterState) :
    Sink.remaining ⟨j, .buf cap, st⟩ =
      some (cap - st.stream.length, ⟨j, .buf cap, ⟨st.stream, st.asks + 1, st.writes⟩⟩) := rfl

theorem Sink.write_buf (j cap : Nat) (st : WriterState) (bs : List Byte) :
    Sink.write ⟨j, .buf cap, st⟩ bs =
      some (.ok (min bs.length (cap - st.stream.length)),
        ⟨j, .buf cap, ⟨st.stream ++ bs.take (min bs.length (cap - st.stream.length)), st.asks, st.writes + 1⟩⟩) := rfl

/-- The first pass with a `buf` writer that is not full: it takes what it has room for. -/
theorem serLoop_buf (fuel j cap : Nat) (c : Context) (st : WriterState) (hmore : c.unitOff < c.unitBytes.length)
    (hroom : st.stream.length < cap) :
    let k := min (cap - st.stream.length) (c.unitBytes.length - c.unitOff)
    serLoop (fuel + 1) c ⟨j, .buf cap, st⟩ = serLoop fuel (c.advance k)
      ⟨j, .buf cap, ⟨st.stream ++ (c.unitBytes.drop c.unitOff).take k, st.asks + 1, st.writes + 1⟩⟩ := by
  intro k
  have hk : min (c.offer (cap - st.stream.length)).length (cap - st.stream.length) = k := by
    rw [Context.offer_length]; omega
  have hwrite := Sink.write_buf j cap ⟨st.stream, st.asks + 1, st.writes⟩ (c.offer (cap - st.stream.length))
  rw [hk, Context.offer_take c _ k (by rw [Context.offer_length])] at hwrite
  exact serLoop_of_ok (by omega) (Sink.remaining_buf j cap st) (by omega) hwrite (by omega)

/-- A `buf` writer with room takes the rest of the unit in one write, and the unit is complete (R112, R113). -/
theorem serLoop_buf_of_room (fuel j cap : Nat) (c : Context) (st : WriterState) (hmore : c.unitOff < c.unitBytes.length)
    (hroom : st.stream.length + (c.unitBytes.length - c.unitOff) ≤ cap) :
    serLoop (fuel + 2) c ⟨j, .buf cap, st⟩ =
      .next (c.unitEnd, ⟨j, .buf cap, ⟨st.stream ++ c.unitBytes.drop c.unitOff, st.asks + 1, st.writes + 1⟩⟩) := by
  have hall : min (cap - st.stream.length) (c.unitBytes.length - c.unitOff) = c.unitBytes.length - c.unitOff := by omega
  have htake : (c.unitBytes.drop c.unitOff).take (c.unitBytes.length - c.unitOff) = c.unitBytes.drop c.unitOff :=
    List.take_of_length_le (by simp)
  rw [serLoop_buf _ j cap c st hmore (by omega), hall, htake]
  exact serLoop_of_complete (by simp only [Context.advance_unitOff, Context.advance_unitBytes]; omega)

/-- A `buf` writer that has less room than the rest of the unit takes what it has room for, and is then full (R115). -/
theorem serLoop_buf_of_less (fuel j cap : Nat) (c : Context) (st : WriterState) (hroom : st.stream.length < cap)
    (hless : cap < st.stream.length + (c.unitBytes.length - c.unitOff)) :
    let k := cap - st.stream.length
    serLoop (fuel + 2) c ⟨j, .buf cap, st⟩ = .next (.pending (c.advance k).stopped,
      ⟨j, .buf cap, ⟨st.stream ++ (c.unitBytes.drop c.unitOff).take k, st.asks + 2, st.writes + 1⟩⟩) := by
  intro k
  have hk : min (cap - st.stream.length) (c.unitBytes.length - c.unitOff) = k := by omega
  rw [serLoop_buf _ j cap c st (by omega) hroom, hk]
  refine serLoop_of_full (by simp only [Context.advance_unitOff, Context.advance_unitBytes]; omega) ?_
  rw [Sink.remaining_buf, show cap - (st.stream ++ (c.unitBytes.drop c.unitOff).take k).length = 0 by simp; omega]

/-- A context inside its unit has two passes at least (R121). -/
theorem Context.two_le_passes {c : Context} (hmore : c.unitOff < c.unitBytes.length) :
    ∃ fuel, c.passes = fuel + 2 := ⟨c.unitBytes.length - c.unitOff - 1, by unfold Context.passes; omega⟩

/-- SER_STEP with a `buf` writer that has room for the rest of the unit. -/
theorem serStep_buf_of_room (n j cap : Nat) (c : Context) (s : State) (hmore : c.unitOff < c.unitBytes.length)
    (hroom : (s.writer j).stream.length + (c.unitBytes.length - c.unitOff) ≤ cap) :
    serStep n c ⟨j, .buf cap⟩ s = .next (c.unitEnd.apply n j
      ⟨(s.writer j).stream ++ c.unitBytes.drop c.unitOff, (s.writer j).asks + 1, (s.writer j).writes + 1⟩ s) := by
  obtain ⟨fuel, hfuel⟩ := Context.two_le_passes hmore
  exact serStep_of_next (w := ⟨j, .buf cap⟩) (hfuel ▸ serLoop_buf_of_room fuel j cap c (s.writer j) hmore hroom)

/-! ### Writers within their contract (R86) -/

/-- Whether the loop goes on within the contract where `left` bytes were to come and a write was answered so. -/
def conformReply (left : Nat) : Option (Reply × Sink) → Bool
  | none => false
  | some (.err _, _) => true
  | some (.ok k, w) => decide (k = 0) || decide (k = left) || conform (left - k) w.answers

/-- Past the end of the listed answers every answer is within the contract. -/
theorem conform_given_nil (left : Nat) : conform left (.given []) = true := rfl

theorem conformList_full (left : Nat) (as : List Answer) : conformList left (.remaining 0 :: as) = true := by
  unfold conformList; rfl

theorem conform_of_no_answer {left : Nat} {w : Sink} (h : w.remaining = none) : conform left w.answers = false := by
  obtain ⟨j, answers, st⟩ := w
  match answers with
  | .buf _ | .fail _ | .given [] | .given (.remaining _ :: _) => cases h
  | .given (.ok _ :: _) | .given (.err _ _ :: _) => rfl

theorem conform_of_full {left : Nat} {w w₁ : Sink} (h : w.remaining = some (0, w₁)) :
    conform left w.answers = true := by
  obtain ⟨j, answers, st⟩ := w
  match answers with
  | .buf _ | .fail _ | .given [] => rfl
  | .given (.remaining _ :: as) => cases h; exact conformList_full left as
  | .given (.ok _ :: _) | .given (.err _ _ :: _) => cases h

/-- A writer with free draws stays within its contract. -/
theorem conformReply_draws (left j : Nat) (st : WriterState) (bs : List Byte) :
    conformReply left (Sink.write ⟨j, .given [], st⟩ bs) = true := by
  simp only [Sink.write]
  split
  · rfl
  · simp [conformReply, Sink.wrote, conform_given_nil]

/-- One pass of the loop within the contract: the answers are where what comes after this pass is (R110). -/
theorem conform_of_write {left cap : Nat} {w w₁ : Sink} (bs : List Byte) (hask : w.remaining = some (cap, w₁))
    (hcap : cap ≠ 0) (hlen : bs.length = min cap left) : conform left w.answers = conformReply left (w₁.write bs) := by
  obtain ⟨j, answers, st⟩ := w
  match answers with
  | .buf cap' =>
    cases hask
    simp [Sink.write, Sink.asked, Sink.wrote, conformReply, conform]
  | .fail j' =>
    cases hask
    rfl
  | .given [] =>
    cases hask
    exact (conformReply_draws left j _ bs).symm
  | .given (.ok _ :: _) => cases hask
  | .given (.err _ _ :: _) => cases hask
  | .given (.remaining cap' :: as) =>
    cases hask
    match as with
    | [] =>
      simp only [Sink.asked, conformReply_draws]
      simp [conform, conformList]
    | .remaining _ :: _ => simp [Sink.write, Sink.asked, conformReply, conform, conformList, hcap]
    | .err e k :: _ =>
      simp only [Sink.write, Sink.asked, conform, conformList, hcap, hlen]
      split <;> simp_all [conformReply]
    | .ok k :: rest =>
      simp only [Sink.write, Sink.asked, conform, conformList, hcap, hlen]
      split <;> simp_all [conformReply, Sink.wrote, conform]

/-- The loop ends where the answers are within the contract, and is refused where one it meets is not (R86, R121). -/
theorem serLoop_of_conform (fuel : Nat) (c : Context) (w : Sink) (hmore : c.unitOff ≠ c.unitBytes.length)
    (hfuel : c.unitBytes.length - c.unitOff < fuel) :
    if conform (c.unitBytes.length - c.unitOff) w.answers = true then ∃ r, serLoop fuel c w = .next r
    else serLoop fuel c w = .refused .writerContract := by
  induction fuel generalizing c w with
  | zero => omega
  | succ fuel ih =>
    cases hask : w.remaining with
    | none =>
      rw [conform_of_no_answer hask, serLoop_of_no_answer hmore hask]; rfl
    | some answer =>
      obtain ⟨cap, w₁⟩ := answer
      by_cases hcap : cap = 0
      · subst hcap
        rw [conform_of_full hask, if_pos rfl, serLoop_of_full hmore hask]
        exact ⟨_, rfl⟩
      rw [conform_of_write (c.offer cap) hask hcap (Context.offer_length c cap)]
      cases hwrite : w₁.write (c.offer cap) with
      | none => rw [serLoop_of_no_reply hmore hask hcap hwrite]; rfl
      | some reply =>
        match reply with
        | (.err e, w₂) => exact ⟨_, serLoop_of_err hmore hask hcap hwrite⟩
        | (.ok 0, w₂) => exact ⟨_, serLoop_of_ok_zero hmore hask hcap hwrite⟩
        | (.ok (k + 1), w₂) =>
          obtain ⟨-, k', hk', hkk', -⟩ := Sink.write_spec _ _ _ _ hwrite
          obtain rfl := hkk' _ rfl
          rw [Context.offer_length] at hk'
          rw [serLoop_of_ok hmore hask hcap hwrite (by omega)]
          by_cases hlast : c.unitOff + (k + 1) = c.unitBytes.length
          · have hleft : k + 1 = c.unitBytes.length - c.unitOff := by omega
            obtain ⟨fuel, rfl⟩ : ∃ f, fuel = f + 1 := ⟨fuel - 1, by omega⟩
            rw [if_pos (by simp [conformReply, ← hleft])]
            exact ⟨_, serLoop_of_complete hlast⟩
          · have hleft : k + 1 ≠ c.unitBytes.length - c.unitOff := by omega
            have hrest := ih (c.advance (k + 1)) w₂ hlast
              (by simp only [Context.advance_unitBytes, Context.advance_unitOff]; omega)
            simpa [conformReply, hleft, Nat.sub_sub] using hrest

/-- SER_STEP completes with every writer within its contract (R86, R121). -/
theorem serStep_of_conform (n : Nat) (c : Context) (w : Writer) (s : State)
    (h : conform (c.unitBytes.length - c.unitOff) w.answers = true) : ∃ t, serStep n c w s = .next t := by
  by_cases hmore : c.unitOff = c.unitBytes.length
  · exact ⟨_, serStep_of_next (serLoop_of_complete hmore)⟩
  · have hloop := serLoop_of_conform c.passes c ⟨w.id, w.answers, s.writer w.id⟩ hmore (by unfold Context.passes; omega)
    obtain ⟨⟨e, k⟩, hr⟩ := (if_pos h).mp hloop
    exact ⟨_, serStep_of_next hr⟩

/-! ### Listed answers that take bytes and then err -/

/-- One pass with a listed answer of each kind. -/
theorem serLoop_given_ok {fuel j cap k : Nat} {c : Context} {st : WriterState} {rest : List Answer}
    (hmore : c.unitOff < c.unitBytes.length) (hk : 0 < k) (hcap : k ≤ cap)
    (hle : c.unitOff + k ≤ c.unitBytes.length) :
    serLoop (fuel + 1) c ⟨j, .given (.remaining cap :: .ok k :: rest), st⟩ = serLoop fuel (c.advance k)
      ⟨j, .given rest, ⟨st.stream ++ (c.unitBytes.drop c.unitOff).take k, st.asks + 1, st.writes + 1⟩⟩ := by
  have hoffer : k ≤ (c.offer cap).length := by rw [Context.offer_length]; omega
  refine serLoop_of_ok (by omega) (cap := cap) rfl (by omega) ?_ (by omega)
  rw [← Context.offer_take c cap k hoffer]
  exact if_pos hoffer

/-- One pass in which the listed answer to `write` is an error (R114). -/
theorem serLoop_given_err {fuel j cap k : Nat} {e : WErr} {c : Context} {st : WriterState} {rest : List Answer}
    (hmore : c.unitOff < c.unitBytes.length) (hpos : 0 < cap) (hcap : k ≤ cap)
    (hle : c.unitOff + k ≤ c.unitBytes.length) :
    serLoop (fuel + 1) c ⟨j, .given (.remaining cap :: .err e k :: rest), st⟩ = .next (.failed e,
      ⟨j, .given rest, ⟨st.stream ++ (c.unitBytes.drop c.unitOff).take k, st.asks + 1, st.writes + 1⟩⟩) := by
  have hoffer : k ≤ (c.offer cap).length := by rw [Context.offer_length]; omega
  refine serLoop_of_err (by omega) (cap := cap) rfl (by omega) ?_
  rw [← Context.offer_take c cap k hoffer]
  exact if_pos hoffer

/-- The answers of writes that took bytes: pairs of what `remaining` answered and what was taken. -/
abbrev takenAnswers (taken : List (Nat × Nat)) : List Answer := taken.flatMap fun p => [.remaining p.1, .ok p.2]

/-- Writes that take bytes and then one that errs: the loop ends there (R111, R114). -/
theorem serLoop_given_taken_err (taken : List (Nat × Nat)) (fuel j cap k : Nat) (e : WErr) (c : Context)
    (st : WriterState) (rest : List Answer) (htaken : ∀ p ∈ taken, 0 < p.2 ∧ p.2 ≤ p.1) (hpos : 0 < cap) (hcap : k ≤ cap)
    (hmore : c.unitOff + (taken.map Prod.snd).sum < c.unitBytes.length)
    (hle : c.unitOff + (taken.map Prod.snd).sum + k ≤ c.unitBytes.length)
    (hfuel : c.unitBytes.length - c.unitOff < fuel) :
    serLoop fuel c ⟨j, .given (takenAnswers taken ++ .remaining cap :: .err e k :: rest), st⟩ = .next (.failed e,
      ⟨j, .given rest, ⟨st.stream ++ (c.unitBytes.drop c.unitOff).take ((taken.map Prod.snd).sum + k),
        st.asks + (taken.length + 1), st.writes + (taken.length + 1)⟩⟩) := by
  induction taken generalizing fuel c st with
  | nil =>
    obtain ⟨fuel, rfl⟩ : ∃ f, fuel = f + 1 := ⟨fuel - 1, by omega⟩
    simpa using serLoop_given_err (fuel := fuel) (j := j) (e := e) (st := st) (rest := rest) hmore hpos hcap hle
  | cons p taken ih =>
    obtain ⟨fuel, rfl⟩ : ∃ f, fuel = f + 1 := ⟨fuel - 1, by omega⟩
    obtain ⟨⟨hp, hpc⟩, htail⟩ := List.forall_mem_cons.mp htaken
    simp only [List.map_cons, List.sum_cons] at hmore hle ⊢
    simp only [takenAnswers, List.flatMap_cons, List.cons_append, List.nil_append]
    rw [serLoop_given_ok (by omega) hp hpc (by omega),
      ih fuel (c.advance p.2) _ htail (by simp only [Context.advance_unitBytes, Context.advance_unitOff]; omega)
        (by simp only [Context.advance_unitBytes, Context.advance_unitOff]; omega)
        (by simp only [Context.advance_unitBytes, Context.advance_unitOff]; omega)]
    simp only [Context.advance_unitBytes, Context.advance_unitOff, List.append_assoc, ← List.drop_drop, ← List.take_add,
      List.length_cons, Nat.add_assoc, Nat.add_comm 1]

/-! ### Nothing faults -/

theorem receiveUnit_ne_fault (h : Header) (doff dlen le : Nat) (ext : Bool) (s : State) (f : Fault) :
    receiveUnit h doff dlen le ext s ≠ .fault f := by
  unfold receiveUnit
  split <;> simp

theorem receivePayload_ne_fault (fits : Bool) (h : Header) (doff dlen le : Nat) (ext : Bool) (s : State) (f : Fault) :
    receivePayload fits h doff dlen le ext s ≠ .fault f := by
  unfold receivePayload
  split
  · exact receiveUnit_ne_fault h doff dlen le ext s f
  · simp

theorem foldPayload_ne_fault (a : Nat) (x : Acc) (v : View) (s : State) (f : Fault) :
    foldPayload a x v s ≠ .fault f := by
  unfold foldPayload
  split
  · simp
  · split <;> simp

theorem foldView_ne_fault (a : Nat) (x : Acc) (v : View) (s : State) (f : Fault) : foldView a x v s ≠ .fault f := by
  unfold foldView
  split
  · split
    · simp
    · split
      · simp
      · exact foldPayload_ne_fault a x v s f
  · exact foldPayload_ne_fault a x v s f

theorem withView_ne_fault (v : Nat) (s : State) (k : View → Host.Outcome State Fault Refusal) (f : Fault)
    (hk : ∀ x, k x ≠ .fault f) : withView v s k ≠ .fault f := by
  unfold withView
  split
  · simp
  · split
    · simp
    · exact hk _

theorem readFields_ne_fault (x : Acc) (s : State) (f : Fault) : readFields x s ≠ .fault f := by
  unfold readFields
  split <;> simp

/-- No instruction has a fault: the loop of SER_STEP has passes enough, and nothing else can fault (R121, R187). -/
theorem exec_ne_fault (i : Instr) (s : State) (f : Fault) : exec i s ≠ .fault f := by
  cases i with
  | serStart c cmd ext w =>
    simp only [exec, execSerStart]
    split
    · simp
    · split
      · simp
      · exact serStep_ne_fault _ _ _ _ _
  | serResume c ext w =>
    simp only [exec, execSerResume]
    split
    · simp
    · exact serStep_ne_fault _ _ _ _ _
  | serCancel c => simp [exec, execSerCancel]
  | parse v b =>
    simp only [exec, execParse]
    split <;> simp
  | accNew a n => simp [exec, execAccNew]
  | accExtend a v =>
    simp only [exec, execAccExtend]
    split
    · simp
    · simp
    · exact withView_ne_fault _ _ _ _ fun x => foldView_ne_fault _ _ _ _ _
    · exact withView_ne_fault _ _ _ _ fun x => foldView_ne_fault _ _ _ _ _
  | accRead a =>
    simp only [exec, execAccRead]
    split
    · simp
    · simp
    · exact readFields_ne_fault _ _ _
    · exact readFields_ne_fault _ _ _
  | uHdr _ | uSLe _ _ | uELe _ _ => exact receiveUnit_ne_fault _ _ _ _ _ _ _
  | uSLc _ _ | uSLcLe _ _ _ | uELc _ _ | uELcLe _ _ _ => exact receivePayload_ne_fault _ _ _ _ _ _ _ _

theorem accept_ne_fault (m : Input) (s : State) (f : Fault) : accept m s ≠ .fault f := by
  cases m with
  | op bs =>
    simp only [accept, issue]
    split
    · exact exec_ne_fault _ _ _
    · simp
  | unit v b bs =>
    rw [show accept (.unit v b bs) s = deliver v b bs s from rfl, deliver_eq]
    exact exec_ne_fault _ _ _
  | fillBuf b bs => simp [accept]
  | setCommand c cmd =>
    simp only [accept, writeCommand]
    split
    · simp
    · split <;> simp
  | reset => simp [accept]

/-! ### The obligations -/

/-- Settles O11: each move is one operation, and none faults (R121, R187). -/
theorem noStepFaults : Obligations.NoStepFaults := by
  intro s f
  cases hs : s.inputs with
  | nil => simp [step_of_no_inputs hs]
  | cons m rest => rw [step_of_inputs hs]; exact accept_ne_fault _ _ _

/-- Settles O13: the range check comes first (R48, R107). -/
theorem commandOutOfRangeRefused : Obligations.CommandOutOfRangeRefused := by
  intro c cmd ext w s hout
  have hrange : cmd.inRange = false := by
    rw [← Bool.not_eq_true]
    simp only [LogicalCommand.inRange, Config.cmdLenMax, Config.cmdLeMax, Bool.and_eq_true, decide_eq_true_eq]
    omega
  exact if_pos hrange

/-- Settles O14: one write takes the whole unit, which is final unless the mode is CHAINED (R110 to R113). -/
theorem serStartWritesItsFirstUnit : Obligations.SerStartWritesItsFirstUnit := by
  intro c cmd ext j cap s hrange hcla hroom
  have hmore : (startContext cmd ext).unitOff < (startContext cmd ext).unitBytes.length := Context.unitBytes_pos _
  rw [exec_serStart, execSerStart_of_inRange ext _ s hrange hcla, serStep_buf_of_room c j cap _ s hmore hroom]
  by_cases hmode : chooseMode cmd.data.length cmd.le ext = .chained
  · have hlong := length_of_chooseMode_chained hmode
    have hnotFinal : (startContext cmd ext).isFinal = false := by
      rw [← Bool.not_eq_true, Context.isFinal_of_chained (c := startContext cmd ext) hmode]
      exact Nat.not_le.mpr (by simpa [startContext, Context.cmdLen] using hlong)
    simp only [Context.unitEnd, hnotFinal, hmode]
    rfl
  · have hfinal : (startContext cmd ext).isFinal = true := Context.isFinal_of_ne_chained hmode
    simp only [Context.unitEnd, hfinal, hmode]
    rfl

/-- Settles O15: one write takes the rest of the unit (R110 to R113). -/
theorem serResumeFinishesItsUnit : Obligations.SerResumeFinishesItsUnit := by
  intro c x ext j cap s hx hlegal hroom
  rw [exec_serResume, execSerResume_of_live c x ext _ s hx, serStep_buf_of_room c j cap x s hlegal.inUnit hroom]
  cases hfinal : x.isFinal <;> simp only [Context.unitEnd, hfinal] <;> rfl

/-- Settles O16: `remaining` answers 0, and the loop stops at that (R115). -/
theorem serResumeWithoutCapacityStops : Obligations.SerResumeWithoutCapacityStops := by
  intro c x j as i s hruns hfull
  have hask : ∃ as', Sink.remaining ⟨j, as, s.writer j⟩ =
      some (0, ⟨j, as', { s.writer j with asks := (s.writer j).asks + 1 }⟩) := by
    rcases hfull with ⟨rest, rfl⟩ | ⟨cap, rfl, hcap⟩
    · exact ⟨_, rfl⟩
    · exact ⟨_, by rw [Sink.remaining_buf, show cap - (s.writer j).stream.length = 0 by omega]⟩
  obtain ⟨as', hask⟩ := hask
  rw [hruns.exec_eq, serStep_of_next (serLoop_of_full (Nat.ne_of_lt hruns.inUnit) hask)]
  rfl

/-- Settles O17 (R118). -/
theorem resumeOfDeadContextRefused : Obligations.ResumeOfDeadContextRefused :=
  fun _ ext w _ h => execSerResume_of_dead ext w h

/-- Settles O19: the loop appends the next bytes of the unit, and its end answers to how many (R111 to R115). -/
theorem serResumeAccountsForItsBytes : Obligations.SerResumeAccountsForItsBytes := by
  intro c x w i s t hruns h
  rw [hruns.exec_eq] at h
  obtain ⟨e, sink, hloop, rfl⟩ := (serStep_eq_next c x w s t).mp h
  obtain ⟨k, hend, -, hstream, -, -⟩ := serLoop_spec _ _ _ _ _ (Nat.le_of_lt hruns.inUnit) hloop
  simp only [SerEnd.apply_writer_self, SerEnd.apply_outcome, SerEnd.apply_ctx_self]
  cases e with
  | done =>
    obtain ⟨hfull, hlast⟩ := hend
    rw [Context.goesOn_eq] at hlast
    exact ⟨k, by omega, hstream, .inl ⟨rfl, rfl, by simpa using hlast, hfull⟩⟩
  | pending y =>
    rcases hend with ⟨hfull, hmore, rfl⟩ | ⟨hpart, rfl⟩
    · rw [Context.goesOn_eq] at hmore
      exact ⟨k, by omega, hstream, .inr (.inl ⟨_, rfl, rfl, by simpa using hmore, hfull, rfl⟩)⟩
    · exact ⟨k, by omega, hstream, .inr (.inr (.inl ⟨_, rfl, rfl, hpart, rfl⟩))⟩
  | failed err => exact ⟨k, hend, hstream, .inr (.inr (.inr ⟨err, rfl, rfl⟩))⟩

/-- Settles O20: each pass of the loop asks once and writes once at most (R121). -/
theorem writerQueriesAreBounded : Obligations.WriterQueriesAreBounded := by
  intro c x w i s t hruns h
  rw [hruns.exec_eq] at h
  obtain ⟨e, sink, hloop, rfl⟩ := (serStep_eq_next c x w s t).mp h
  obtain ⟨-, -, -, -, hasks, hwrites⟩ := serLoop_spec _ _ _ _ _ (Nat.le_of_lt hruns.inUnit) hloop
  rw [SerEnd.apply_writer_self]
  exact ⟨hasks, hwrites⟩

/-- Settles O21: the loop is refused only for an answer outside the contract (R86, R121). -/
theorem serCompletesWithEveryConformingWriter : Obligations.SerCompletesWithEveryConformingWriter := by
  intro c cmd ext w s
  refine ⟨fun hrange hconform => ?_, fun x hx hconform => ?_⟩
  · rw [exec_serStart]
    by_cases hcla : cmd.hdr.cla = Config.invalidCla
    · exact ⟨_, execSerStart_of_invalidCla c cmd ext w s hrange hcla⟩
    · rw [execSerStart_of_inRange ext w s hrange hcla]
      exact serStep_of_conform c (startContext cmd ext) w s hconform
  · rw [exec_serResume, execSerResume_of_live c x ext w s hx]
    exact serStep_of_conform c x w s hconform

/-- Settles O22, by induction on the writes before the one that errs (R111, R114). -/
theorem writerErrorAbandonsTheCommand : Obligations.WriterErrorAbandonsTheCommand := by
  intro c x j cap k e taken rest i s hruns htaken hpos hcap before hmore hle
  have hloop := serLoop_given_taken_err taken x.passes j cap k e x (s.writer j) rest htaken hpos hcap hmore hle
    (by unfold Context.passes; omega)
  rw [hruns.exec_eq, serStep_of_next hloop]
  rfl

/-- Settles O23: the loop is refused for every answer it meets outside the contract (R86). -/
theorem answerOutsideContractRefused : Obligations.AnswerOutsideContractRefused := by
  intro c x w i s hruns hbad
  have hloop := serLoop_of_conform x.passes x ⟨w.id, w.answers, s.writer w.id⟩ (Nat.ne_of_lt hruns.inUnit)
    (by unfold Context.passes; omega)
  rw [if_neg (by simp [hbad])] at hloop
  rw [hruns.exec_eq, serStep_of_refused hloop]

/-- Settles O24: SER_STEP touches one context, one writer and the outcome, and INVALID_CLASS the outcome alone (R14). -/
theorem serTouchesOnlyWhatItNames : Obligations.SerTouchesOnlyWhatItNames := by
  intro c cmd ext w s t h
  have hstep (x : Context) (hx : serStep c x w s = .next t) :
      t.views = s.views ∧ t.accs = s.accs ∧ t.bufs = s.bufs ∧ t.inputs = s.inputs ∧ t.rx = s.rx ∧
        (∀ d, d ≠ c → t.ctx d = s.ctx d) ∧ (∀ j, j ≠ w.id → t.writer j = s.writer j) := by
    obtain ⟨e, k, -, rfl⟩ := (serStep_eq_next c x w s t).mp hx
    refine ⟨?_, ?_, ?_, ?_, ?_, fun d hd => ?_, fun j hj => ?_⟩
    · rw [SerEnd.apply_eq]
    · rw [SerEnd.apply_eq]
    · rw [SerEnd.apply_eq]
    · rw [SerEnd.apply_eq]
    · rw [SerEnd.apply_eq]
    · rw [SerEnd.apply_ctx, if_neg hd]
    · rw [SerEnd.apply_writer, if_neg hj]
  rcases h with h | h
  · rcases (execSerStart_eq_next h).2 with ⟨-, rfl⟩ | ⟨-, hx⟩
    · simp
    · exact hstep _ hx
  · obtain ⟨x, -, hx⟩ := execSerResume_eq_next ext h
    exact hstep x hx

/-- Settles O25 (R120). -/
theorem cancelAbandonsItsContext : Obligations.CancelAbandonsItsContext := by
  intro c s
  refine ⟨_, exec_serCancel c s, rfl, State.dropCtx_ctx_self s c, fun d hd => ?_, rfl, rfl, rfl, rfl, rfl, rfl⟩
  exact (State.dropCtx_ctx s c d).trans (if_neg hd)

/-- Settles O28: neither resume sees what the other changes, and what they change is put in place in either order (R14). -/
theorem resumesOfDifferentContextsCommute : Obligations.ResumesOfDifferentContextsCommute := by
  intro c d e f w v s s1 s2 hinv hcd hwv h1 h2
  obtain ⟨x, hx, hstep1⟩ := execSerResume_eq_next e h1
  obtain ⟨e1, k1, hloop1, rfl⟩ := (serStep_eq_next c x w s s1).mp hstep1
  obtain ⟨y, hy, hstep2⟩ := execSerResume_eq_next f h2
  obtain ⟨e2, k2, hloop2, rfl⟩ := (serStep_eq_next d y v _ s2).mp hstep2
  rw [SerEnd.apply_ctx, if_neg (Ne.symm hcd)] at hy
  rw [SerEnd.apply_writer, if_neg (Ne.symm hwv)] at hloop2
  have hx' : (e2.apply d v.id k2.st s).ctx c = some x := by rw [SerEnd.apply_ctx, if_neg hcd, hx]
  have hloop1' : serLoop x.passes x ⟨w.id, w.answers, (e2.apply d v.id k2.st s).writer w.id⟩ = .next (e1, k1) := by
    rw [SerEnd.apply_writer, if_neg hwv, hloop1]
  refine ⟨e2.apply d v.id k2.st s, e1.apply c w.id k1.st (e2.apply d v.id k2.st s), ?_, ?_, ?_⟩
  · rw [exec_serResume, execSerResume_of_live d y f v s hy, serStep_of_next hloop2]
  · rw [exec_serResume, execSerResume_of_live c x e w _ hx', serStep_of_next hloop1']
  · rw [SerEnd.apply_outcome]
    exact SerEnd.apply_comm e1 e2 k1.st k2.st hinv hcd hwv

end Sys2Proof.Machine

/-! PROOFS. Whole commands (40_serializer.md section 5): what a sequence of calls has put out and has still to put out, for any
writers (the stream law) and for fresh `buf(cap)` writers (the counted calls). -/

namespace Sys2Proof.Machine

/-! ### The units of a command -/

theorem unitsOf_length (cmd : LogicalCommand) (ext : Bool) : (unitsOf cmd ext).length = unitCount cmd ext := by
  simp [unitsOf]

theorem unitsOf_drop {cmd : LogicalCommand} {ext : Bool} {i : Nat} (hi : i < unitCount cmd ext) :
    (unitsOf cmd ext).drop i = (unitContext cmd ext i).unitBytes :: (unitsOf cmd ext).drop (i + 1) := by
  rw [List.drop_eq_getElem_cons (by rwa [unitsOf_length])]
  simp [unitsOf]

theorem unitCount_of_chained {cmd : LogicalCommand} {ext : Bool}
    (h : chooseMode cmd.data.length cmd.le ext = .chained) : unitCount cmd ext = (cmd.data.length + 254) / 255 := by
  unfold unitCount; rw [h]

theorem unitCount_of_ne_chained {cmd : LogicalCommand} {ext : Bool}
    (h : chooseMode cmd.data.length cmd.le ext ≠ .chained) : unitCount cmd ext = 1 := by
  unfold unitCount
  split
  · exact absurd ‹_› h
  · rfl
  · rfl

theorem unitCount_pos (cmd : LogicalCommand) (ext : Bool) : 0 < unitCount cmd ext := by
  by_cases h : chooseMode cmd.data.length cmd.le ext = .chained
  · have hlen := length_of_chooseMode_chained h
    rw [unitCount_of_chained h]; omega
  · rw [unitCount_of_ne_chained h]; decide

/-- The last unit is the final one (R28, R101). -/
theorem unitContext_isFinal (cmd : LogicalCommand) (ext : Bool) (i : Nat) :
    (unitContext cmd ext i).isFinal = true ↔ unitCount cmd ext ≤ i + 1 := by
  by_cases h : chooseMode cmd.data.length cmd.le ext = .chained
  · rw [Context.isFinal_of_chained (c := unitContext cmd ext i) h, unitCount_of_chained h]
    simp only [unitContext, startContext, Context.cmdLen, Config.chunkMax]
    omega
  · rw [Context.isFinal_of_ne_chained (c := unitContext cmd ext i) h, unitCount_of_ne_chained h]
    simp

/-! ### A resume point of a command -/

/-- The context of unit `i` of a command after `off` of its bytes (R101, R122). -/
def resumePoint (cmd : LogicalCommand) (ext : Bool) (i off : Nat) (kind : ResumeKind) : Context :=
  { unitContext cmd ext i with unitOff := off, resumeKind := kind }

section ResumePoint

variable (cmd : LogicalCommand) (ext : Bool) (i off k : Nat) (kind : ResumeKind)

@[simp] theorem resumePoint_unitBytes :
    (resumePoint cmd ext i off kind).unitBytes = (unitContext cmd ext i).unitBytes := rfl

@[simp] theorem resumePoint_unitOff : (resumePoint cmd ext i off kind).unitOff = off := rfl

@[simp] theorem resumePoint_isFinal :
    (resumePoint cmd ext i off kind).isFinal = (unitContext cmd ext i).isFinal := rfl

theorem resumePoint_advance_stopped :
    ((resumePoint cmd ext i off kind).advance k).stopped = resumePoint cmd ext i (off + k) .midUnit := rfl

theorem resumePoint_nextUnit :
    (resumePoint cmd ext i off kind).nextUnit = resumePoint cmd ext (i + 1) 0 .chainBoundary := rfl

theorem startContext_eq_resumePoint : startContext cmd ext = resumePoint cmd ext 0 0 .midUnit := rfl

end ResumePoint

/-! ### How far a command has been sent -/

/-- In state `s` the units of the command still to be put out by context `c` are `us`, the first of them without the bytes that
have been put out: none are left and the last outcome was DONE, or the context stands inside the first and the last outcome
was PENDING (R110). -/
inductive Sending (c : Nat) (cmd : LogicalCommand) (ext : Bool) : List (List Byte) → State → Prop
  | done {s : State} (hout : s.outcome = some .done) (hctx : s.ctx c = none) : Sending c cmd ext [] s
  | pending {s : State} (i off : Nat) (kind : ResumeKind) (hi : i < unitCount cmd ext)
      (hoff : off < (unitContext cmd ext i).unitBytes.length)
      (hout : s.outcome = some (.pending (resumePoint cmd ext i off kind)))
      (hctx : s.ctx c = some (resumePoint cmd ext i off kind)) :
      Sending c cmd ext ((unitContext cmd ext i).unitBytes.drop off :: (unitsOf cmd ext).drop (i + 1)) s

section Steps

variable {c i off j : Nat} {cmd : LogicalCommand} {ext : Bool} {kind : ResumeKind} (k : WriterState) (s : State)

/-- After a complete unit the later ones are still to come (R112, R113). -/
theorem sending_of_unitEnd :
    Sending c cmd ext ((unitsOf cmd ext).drop (i + 1)) ((resumePoint cmd ext i off kind).unitEnd.apply c j k s) := by
  by_cases hlast : unitCount cmd ext ≤ i + 1
  · rw [Context.unitEnd, resumePoint_isFinal, if_pos ((unitContext_isFinal cmd ext i).mpr hlast),
      List.drop_of_length_le (by rwa [unitsOf_length])]
    exact .done (SerEnd.apply_outcome _ _ _ _ _) (SerEnd.apply_ctx_self _ _ _ _ _)
  · rw [Context.unitEnd, resumePoint_isFinal, if_neg (fun h => hlast ((unitContext_isFinal cmd ext i).mp h)),
      resumePoint_nextUnit, unitsOf_drop (by omega : i + 1 < unitCount cmd ext)]
    exact .pending (i + 1) 0 .chainBoundary (by omega) (Context.unitBytes_pos _) (SerEnd.apply_outcome _ _ _ _ _)
      (SerEnd.apply_ctx_self _ _ _ _ _)

/-- After a stop inside its unit the rest of that unit is still to come, and the later ones (R115). -/
theorem sending_of_stopped (hi : i < unitCount cmd ext) (hoff : off < (unitContext cmd ext i).unitBytes.length) :
    Sending c cmd ext ((unitContext cmd ext i).unitBytes.drop off :: (unitsOf cmd ext).drop (i + 1))
      ((SerEnd.pending (resumePoint cmd ext i off kind)).apply c j k s) :=
  .pending i off kind hi hoff (SerEnd.apply_outcome _ _ _ _ _) (SerEnd.apply_ctx_self _ _ _ _ _)

end Steps

/-- A byte string from `off` on is its next `k` bytes and then what follows them. -/
theorem take_append_drop_add (bs : List Byte) (off k : Nat) :
    (bs.drop off).take k ++ bs.drop (off + k) = bs.drop off := by
  rw [← List.drop_drop, List.take_append_drop]

theorem appendedBy_of_stream {w : Writer} {s t : State} {bs : List Byte}
    (h : (t.writer w.id).stream = (s.writer w.id).stream ++ bs) : appendedBy w s t = bs := by
  unfold appendedBy
  rw [h, List.drop_left]

/-- SER_STEP with any writer puts out the next bytes of what is to come, or the command is abandoned (R111 to R115). -/
theorem serStep_sends {c i off : Nat} {cmd : LogicalCommand} {ext : Bool} {kind : ResumeKind} {w : Writer} {s t : State}
    (hi : i < unitCount cmd ext) (hoff : off < (unitContext cmd ext i).unitBytes.length)
    (h : serStep c (resumePoint cmd ext i off kind) w s = .next t) :
    (∃ us, Sending c cmd ext us t ∧
      ((unitContext cmd ext i).unitBytes.drop off :: (unitsOf cmd ext).drop (i + 1)).flatten
        = appendedBy w s t ++ us.flatten) ∨
    (t.ctx c = none ∧ t.outcome ≠ some .done) := by
  obtain ⟨e, sink, hloop, rfl⟩ := (serStep_eq_next _ _ w s t).mp h
  obtain ⟨k, hend, -, hstream, -, -⟩ := serLoop_spec _ _ _ _ _ (Nat.le_of_lt hoff) hloop
  have hout : appendedBy w s (e.apply c w.id sink.st s) = ((unitContext cmd ext i).unitBytes.drop off).take k :=
    appendedBy_of_stream (by rw [SerEnd.apply_writer_self]; exact hstream)
  rw [hout]
  have hcomplete (hfull : off + k = (unitContext cmd ext i).unitBytes.length)
      (he : e = (resumePoint cmd ext i off kind).unitEnd) :
      ∃ us, Sending c cmd ext us (e.apply c w.id sink.st s) ∧
        ((unitContext cmd ext i).unitBytes.drop off :: (unitsOf cmd ext).drop (i + 1)).flatten
          = ((unitContext cmd ext i).unitBytes.drop off).take k ++ us.flatten := by
    refine ⟨_, he ▸ sending_of_unitEnd sink.st s, ?_⟩
    rw [List.flatten_cons, List.take_of_length_le (by simp; omega)]
  cases e with
  | done =>
    obtain ⟨hfull, hlast⟩ := hend
    rw [Context.goesOn_eq] at hlast
    exact .inl (hcomplete hfull (by simp only [Context.unitEnd]; rw [if_pos (by simpa using hlast)]))
  | pending y =>
    rcases hend with ⟨hfull, hmore, rfl⟩ | ⟨hpart, rfl⟩
    · rw [Context.goesOn_eq] at hmore
      exact .inl (hcomplete hfull (by simp only [Context.unitEnd]; rw [if_neg (by simpa using hmore)]))
    · rw [resumePoint_advance_stopped]
      refine .inl ⟨_, sending_of_stopped sink.st s hi hpart, ?_⟩
      rw [List.flatten_cons, List.flatten_cons, ← List.append_assoc, take_append_drop_add]
  | failed err => exact .inr ⟨by rw [SerEnd.apply_ctx_self]; rfl, by simp [SerEnd.outcome]⟩

/-! ### The stream law -/

/-- Once the context is not live no resume completes (R118). -/
theorem resumeAll_of_dead {c : Nat} {ext : Bool} {ws : List Writer} {s t : State} {bs : List Byte} (hctx : s.ctx c = none)
    (h : resumeAll c ext ws s = .next (t, bs)) : t = s ∧ bs = [] := by
  cases ws with
  | nil => cases h; exact ⟨rfl, rfl⟩
  | cons w ws =>
    obtain ⟨t', bs', hcall, -, -⟩ := (collect_eq_next _ _ _ _ _ _).mp h
    rw [exec_serResume, execSerResume_of_dead ext w hctx] at hcall
    cases hcall

/-- Resumes that end in DONE have put out what was still to come (R122). -/
theorem resumeAll_puts_out {c : Nat} {cmd : LogicalCommand} {ext flag : Bool} (ws : List Writer) {us : List (List Byte)}
    {s t : State} {bs : List Byte} (hs : Sending c cmd ext us s) (h : resumeAll c flag ws s = .next (t, bs))
    (hdone : t.outcome = some .done) : bs = us.flatten := by
  induction ws generalizing us s bs with
  | nil =>
    cases h
    cases hs with
    | done _ _ => rfl
    | pending i off kind hi hoff hout hctx => rw [hout] at hdone; cases hdone
  | cons w ws ih =>
    cases hs with
    | done hout hctx => exact (resumeAll_of_dead hctx h).2
    | pending i off kind hi hoff hout hctx =>
      obtain ⟨t', bs', hcall, hrest, rfl⟩ := (collect_eq_next _ _ _ _ _ _).mp h
      rw [exec_serResume, execSerResume_of_live c _ flag w s hctx] at hcall
      rcases serStep_sends hi hoff hcall with ⟨us, hus, hflat⟩ | ⟨hdead, hne⟩
      · rw [ih hus hrest, hflat]
      · obtain ⟨rfl, -⟩ := resumeAll_of_dead hdead hrest
        exact absurd hdone hne

/-- The first call of a command starts with all its units to come. -/
theorem sendAll_puts_out {c : Nat} {cmd : LogicalCommand} {ext : Bool} {w : Writer} {ws : List Writer} {s t : State}
    {bs : List Byte} (hcla : cmd.hdr.cla ≠ Config.invalidCla) (h : sendAll c cmd ext w ws s = .next (t, bs))
    (hdone : t.outcome = some .done) : bs = (unitsOf cmd ext).flatten := by
  obtain ⟨t', bs', hcall, hrest, rfl⟩ := (collect_eq_next _ _ _ _ _ _).mp h
  rcases (execSerStart_eq_next hcall).2 with ⟨hbad, -⟩ | ⟨-, hstep⟩
  · exact absurd hbad hcla
  have hpos := unitCount_pos cmd ext
  have hoff := (unitContext cmd ext 0).unitBytes_pos
  rw [startContext_eq_resumePoint] at hstep
  rcases serStep_sends hpos hoff hstep with ⟨us, hus, hflat⟩ | ⟨hdead, hne⟩
  · rw [List.drop_zero, ← unitsOf_drop hpos, List.drop_zero] at hflat
    rw [hflat, resumeAll_puts_out ws hus hrest hdone]
  · obtain ⟨rfl, -⟩ := resumeAll_of_dead hdead hrest
    exact absurd hdone hne

/-- The resumes of SEND are resumes with the writers that it comes to use (R89). -/
theorem resumeAll_of_resumePending {c n : Nat} {ext : Bool} {last : Writer} {ws : List Writer} {s t : State}
    {bs : List Byte} (h : resumePending c ext last n ws s = .next (t, bs)) :
    ∃ used, resumeAll c ext used s = .next (t, bs) := by
  induction n generalizing ws s bs with
  | zero => exact ⟨[], h⟩
  | succ n ih =>
    by_cases hp : ∃ x, s.outcome = some (.pending x)
    · obtain ⟨x, hx⟩ := hp
      rw [resumePending_of_pending c n ext last ws s x hx] at h
      obtain ⟨t', bs', hcall, hrest, rfl⟩ := (collect_eq_next _ _ _ _ _ _).mp h
      obtain ⟨used, hused⟩ := ih hrest
      exact ⟨_ :: used, (collect_eq_next _ _ _ _ _ _).mpr ⟨t', bs', hcall, hused, rfl⟩⟩
    · rw [resumePending_of_not_pending c _ ext last ws s (fun x hx => hp ⟨x, hx⟩)] at h
      exact ⟨[], h⟩

theorem sendAll_of_send {n c : Nat} {cmd : LogicalCommand} {ext : Bool} {w : Writer} {ws : List Writer} {s t : State}
    {bs : List Byte} (h : send n c cmd ext w ws s = .next (t, bs)) :
    ∃ used, sendAll c cmd ext w used s = .next (t, bs) := by
  obtain ⟨t', bs', hcall, hrest, rfl⟩ := (collect_eq_next _ _ _ _ _ _).mp h
  obtain ⟨used, hused⟩ := resumeAll_of_resumePending hrest
  exact ⟨used, (collect_eq_next _ _ _ _ _ _).mpr ⟨t', bs', hcall, hused, rfl⟩⟩

/-! ### The counted calls -/

/-- The calls that byte strings take with a fresh `buf(cap)` for every call: the length of each over `cap`, rounded up
(R123). -/
def callsFor (cap : Nat) (us : List (List Byte)) : Nat := (us.map fun u => (u.length + cap - 1) / cap).sum

theorem callsNeeded_eq (cmd : LogicalCommand) (ext : Bool) (cap : Nat) :
    callsNeeded cmd ext cap = callsFor cap (unitsOf cmd ext) := rfl

/-- A call that takes all of the first byte string is one call. -/
theorem callsFor_cons_of_le {cap : Nat} {u : List Byte} (us : List (List Byte)) (hpos : 0 < u.length)
    (hle : u.length ≤ cap) : callsFor cap (u :: us) = callsFor cap us + 1 := by
  have hone : (u.length + cap - 1) / cap = 1 := by
    rw [show u.length + cap - 1 = (u.length - 1) + cap by omega, Nat.add_div_right _ (by omega),
      Nat.div_eq_of_lt (by omega)]
  simp only [callsFor, List.map_cons, List.sum_cons, hone]
  omega

/-- A call that takes `cap` bytes of a longer byte string is one call. -/
theorem callsFor_cons_of_lt {cap : Nat} {u : List Byte} (us : List (List Byte)) (hpos : 0 < cap)
    (hlt : cap < u.length) : callsFor cap (u :: us) = callsFor cap (u.drop cap :: us) + 1 := by
  have hstep : (u.length + cap - 1) / cap = ((u.drop cap).length + cap - 1) / cap + 1 := by
    rw [List.length_drop, show u.length + cap - 1 = (u.length - cap + cap - 1) + cap by omega,
      Nat.add_div_right _ hpos]
  simp only [callsFor, List.map_cons, List.sum_cons, hstep]
  omega

/-- What is to come takes no calls only where nothing is to come. -/
theorem Sending.eq_nil_of_no_calls {c cap : Nat} {cmd : LogicalCommand} {ext : Bool} {us : List (List Byte)} {s : State}
    (hs : Sending c cmd ext us s) (hcap : 0 < cap) (h : callsFor cap us = 0) : us = [] := by
  cases hs with
  | done hout hctx => rfl
  | pending i off kind hi hoff hout hctx =>
    have hpos : 0 < ((unitContext cmd ext i).unitBytes.drop off).length := by rw [List.length_drop]; omega
    by_cases hroom : ((unitContext cmd ext i).unitBytes.drop off).length ≤ cap
    · rw [callsFor_cons_of_le _ hpos hroom] at h; cases h
    · rw [callsFor_cons_of_lt _ hcap (by omega)] at h; cases h

/-- SER_STEP with a fresh `buf(cap)` writer is one of the counted calls (R123; decision D10). -/
theorem serStep_fresh_buf {c i off cap : Nat} {cmd : LogicalCommand} {ext : Bool} (kind : ResumeKind) {w : Writer}
    {s : State} (hi : i < unitCount cmd ext) (hoff : off < (unitContext cmd ext i).unitBytes.length) (hcap : 0 < cap)
    (hbuf : w.answers = .buf cap) (hfresh : (s.writer w.id).stream = []) :
    ∃ t us, serStep c (resumePoint cmd ext i off kind) w s = .next t ∧ Sending c cmd ext us t ∧
      ((unitContext cmd ext i).unitBytes.drop off :: (unitsOf cmd ext).drop (i + 1)).flatten
        = appendedBy w s t ++ us.flatten ∧
      callsFor cap ((unitContext cmd ext i).unitBytes.drop off :: (unitsOf cmd ext).drop (i + 1)) = callsFor cap us + 1 ∧
      ∀ j, j ≠ w.id → t.writer j = s.writer j := by
  obtain ⟨j, answers⟩ := w
  obtain rfl : answers = .buf cap := hbuf
  have hlen : ((unitContext cmd ext i).unitBytes.drop off).length = (unitContext cmd ext i).unitBytes.length - off :=
    List.length_drop
  have hmore : (resumePoint cmd ext i off kind).unitOff < (resumePoint cmd ext i off kind).unitBytes.length := hoff
  obtain ⟨fuel, hfuel⟩ := Context.two_le_passes hmore
  have hframe (e : SerEnd) (k : WriterState) (j' : Nat) (hj : j' ≠ j) : (e.apply c j k s).writer j' = s.writer j' := by
    rw [SerEnd.apply_writer, if_neg hj]
  by_cases hroom : (unitContext cmd ext i).unitBytes.length - off ≤ cap
  · have hloop := serLoop_buf_of_room fuel j cap _ (s.writer j) hmore (by rw [hfresh]; simpa using hroom)
    refine ⟨_, _, serStep_of_next (w := ⟨j, .buf cap⟩) (hfuel ▸ hloop), sending_of_unitEnd _ s, ?_,
      callsFor_cons_of_le _ (by omega) (by omega), hframe _ _⟩
    rw [appendedBy_of_stream (w := ⟨j, .buf cap⟩) (by rw [SerEnd.apply_writer_self]), List.flatten_cons]
    rfl
  · have hloop := serLoop_buf_of_less fuel j cap (resumePoint cmd ext i off kind) (s.writer j)
      (by rw [hfresh]; exact hcap) (by
        rw [hfresh, List.length_nil, resumePoint_unitOff, resumePoint_unitBytes]; omega)
    rw [hfresh, List.length_nil, Nat.sub_zero] at hloop
    refine ⟨_, _, serStep_of_next (w := ⟨j, .buf cap⟩) (hfuel ▸ hloop),
      sending_of_stopped (off := off + cap) _ s hi (by omega), ?_, ?_, hframe _ _⟩
    · rw [appendedBy_of_stream (w := ⟨j, .buf cap⟩) (by rw [SerEnd.apply_writer_self, hfresh]), List.flatten_cons,
        List.flatten_cons, ← List.append_assoc]
      exact congrArg (· ++ _) (take_append_drop_add _ off cap).symm
    · rw [← List.drop_drop (j := off)]
      exact callsFor_cons_of_lt _ hcap (by omega)

/-- One of the counted calls by SER_RESUME, while the command is being sent. -/
theorem serResume_fresh_buf {c cap : Nat} {cmd : LogicalCommand} {ext : Bool} (flag : Bool) {w : Writer} {u : List Byte}
    {us : List (List Byte)} {s : State} (hs : Sending c cmd ext (u :: us) s) (hcap : 0 < cap)
    (hbuf : w.answers = .buf cap) (hfresh : (s.writer w.id).stream = []) :
    ∃ t us', exec (.serResume c flag w) s = .next t ∧ Sending c cmd ext us' t ∧
      (u :: us).flatten = appendedBy w s t ++ us'.flatten ∧ callsFor cap (u :: us) = callsFor cap us' + 1 ∧
      ∀ j, j ≠ w.id → t.writer j = s.writer j := by
  cases hs with
  | pending i off kind hi hoff hout hctx =>
    rw [exec_serResume, execSerResume_of_live c _ flag w s hctx]
    exact serStep_fresh_buf kind hi hoff hcap hbuf hfresh

/-- The first of the counted calls. -/
theorem serStart_fresh_buf (c : Nat) {cap : Nat} {cmd : LogicalCommand} (ext : Bool) {w : Writer} {s : State}
    (hrange : cmd.inRange = true) (hcla : cmd.hdr.cla ≠ Config.invalidCla) (hcap : 0 < cap)
    (hbuf : w.answers = .buf cap) (hfresh : (s.writer w.id).stream = []) :
    ∃ t us, exec (.serStart c cmd ext w) s = .next t ∧ Sending c cmd ext us t ∧
      (unitsOf cmd ext).flatten = appendedBy w s t ++ us.flatten ∧ callsNeeded cmd ext cap = callsFor cap us + 1 ∧
      ∀ j, j ≠ w.id → t.writer j = s.writer j := by
  have hpos := unitCount_pos cmd ext
  have hoff := (unitContext cmd ext 0).unitBytes_pos
  have hall : unitsOf cmd ext = (unitContext cmd ext 0).unitBytes.drop 0 :: (unitsOf cmd ext).drop (0 + 1) := by
    rw [List.drop_zero, ← unitsOf_drop hpos, List.drop_zero]
  have hcall := serStep_fresh_buf .midUnit (c := c) (s := s) hpos hoff hcap hbuf hfresh
  rw [← hall, ← startContext_eq_resumePoint] at hcall
  rw [exec_serStart, execSerStart_of_inRange ext w s hrange hcla, callsNeeded_eq]
  exact hcall

/-- With as many fresh `buf(cap)` writers as the calls that what is to come takes, the resumes put it all out (R123). -/
theorem resumeAll_fresh_bufs {c cap : Nat} {cmd : LogicalCommand} {ext : Bool} (flag : Bool) (ws : List Writer)
    {us : List (List Byte)} {s : State} (hs : Sending c cmd ext us s) (hcap : 0 < cap)
    (hws : ∀ w ∈ ws, w.answers = .buf cap ∧ (s.writer w.id).stream = []) (hnodup : (ws.map Writer.id).Nodup)
    (hlen : ws.length = callsFor cap us) :
    ∃ t, resumeAll c flag ws s = .next (t, us.flatten) ∧ Sending c cmd ext [] t := by
  induction ws generalizing us s with
  | nil =>
    obtain rfl := hs.eq_nil_of_no_calls hcap hlen.symm
    exact ⟨s, rfl, hs⟩
  | cons w ws ih =>
    cases us with
    | nil => simp [callsFor] at hlen
    | cons u us =>
      obtain ⟨⟨hbuf, hfresh⟩, htail⟩ := List.forall_mem_cons.mp hws
      rw [List.map_cons, List.nodup_cons] at hnodup
      obtain ⟨hnot, hnodup⟩ := hnodup
      obtain ⟨t, us', hcall, hsend, hflat, hcount, hframe⟩ := serResume_fresh_buf flag hs hcap hbuf hfresh
      have htail' : ∀ v ∈ ws, v.answers = .buf cap ∧ (t.writer v.id).stream = [] := fun v hv => by
        have hne : v.id ≠ w.id := fun h => hnot (h ▸ List.mem_map_of_mem hv)
        rw [hframe v.id hne]
        exact htail v hv
      obtain ⟨t', hrest, hend⟩ := ih hsend htail' hnodup (by simpa [hcount] using hlen)
      exact ⟨t', (collect_eq_next _ _ _ _ _ _).mpr ⟨t, us'.flatten, hcall, hrest, hflat⟩, hend⟩

/-- SEND goes on with fresh `buf(cap)` writers until everything is put out, where it may make the calls (R89, R123). -/
theorem resumePending_fresh_bufs {c cap : Nat} {cmd : LogicalCommand} {ext : Bool} (flag : Bool) {last : Writer}
    (n : Nat) {us : List (List Byte)} {s : State} (hs : Sending c cmd ext us s) (hcap : 0 < cap) (hlast : last.answers = .buf cap)
    (hcalls : callsFor cap us ≤ n) :
    ∃ t, resumePending c flag last n [] s = .next (t, us.flatten) ∧ Sending c cmd ext [] t := by
  induction n generalizing us s with
  | zero =>
    obtain rfl := hs.eq_nil_of_no_calls hcap (Nat.le_zero.mp hcalls)
    exact ⟨s, rfl, hs⟩
  | succ n ih =>
    cases us with
    | nil =>
      cases hs with
      | done hout hctx =>
        exact ⟨s, resumePending_of_not_pending c _ flag last [] s (by simp [hout]), .done hout hctx⟩
    | cons u us =>
      obtain ⟨x, hx⟩ : ∃ x, s.outcome = some (.pending x) := by
        cases hs with
        | pending i off kind hi hoff hout hctx => exact ⟨_, hout⟩
      obtain ⟨t, us', hcall, hsend, hflat, hcount, -⟩ :=
        serResume_fresh_buf (w := s.freshWriter last) flag hs hcap hlast (by simp)
      obtain ⟨t', hrest, hend⟩ := ih hsend (by omega)
      refine ⟨t', ?_, hend⟩
      rw [resumePending_of_pending c n flag last [] s x hx]
      exact (collect_eq_next _ _ _ _ _ _).mpr ⟨t, us'.flatten, hcall, hrest, hflat⟩

/-! ### Where SEND stops -/

/-- Resumes that have stopped within the listed writers stop there with more writers and more calls (R89). -/
theorem resumePending_stopped {c n : Nat} {ext : Bool} {last : Writer} {ws : List Writer} {s t : State} {bs : List Byte}
    (last' : Writer) (m : Nat) (vs : List Writer) (hn : n ≤ ws.length)
    (h : resumePending c ext last n ws s = .next (t, bs)) (hstop : ∀ x, t.outcome ≠ some (.pending x)) :
    resumePending c ext last' (n + m) (ws ++ vs) s = .next (t, bs) := by
  by_cases hp : ∃ x, s.outcome = some (.pending x)
  · obtain ⟨x, hx⟩ := hp
    induction n generalizing ws s bs x with
    | zero => cases h; exact absurd hx (hstop x)
    | succ n ih =>
      cases ws with
      | nil => simp at hn
      | cons w ws =>
        rw [resumePending_of_pending c n ext last _ s x hx] at h
        obtain ⟨t', bs', hcall, hrest, rfl⟩ := (collect_eq_next _ _ _ _ _ _).mp h
        rw [Nat.add_right_comm, resumePending_of_pending c (n + m) ext last' _ s x hx]
        refine (collect_eq_next _ _ _ _ _ _).mpr ⟨t', bs', hcall, ?_, rfl⟩
        by_cases hp' : ∃ y, t'.outcome = some (.pending y)
        · obtain ⟨y, hy⟩ := hp'
          exact ih (by simpa using hn) hrest y hy
        · rw [resumePending_of_not_pending c _ ext last _ t' (fun y hy => hp' ⟨y, hy⟩)] at hrest
          rw [← hrest]
          exact resumePending_of_not_pending c _ ext last' _ t' (fun y hy => hp' ⟨y, hy⟩)
  · rw [resumePending_of_not_pending c _ ext last ws s (fun x hx => hp ⟨x, hx⟩)] at h
    rw [← h]
    exact resumePending_of_not_pending c _ ext last' _ s (fun x hx => hp ⟨x, hx⟩)

/-! ### The obligations -/

/-- Settles O26: each call puts out the next bytes of what is to come, and DONE leaves none to come (R122). -/
theorem bytesSentAreTheUnitsInOrder : Obligations.BytesSentAreTheUnitsInOrder := by
  intro c cmd ext w ws s t bs hcla h hdone
  exact sendAll_puts_out hcla h hdone

/-- Settles O27, by induction on the writers: each call is one of the counted ones (R123; decision D10). -/
theorem commandIsSentInTheCountedCalls : Obligations.CommandIsSentInTheCountedCalls := by
  intro c cmd ext cap w ws s hrange hcla hcap hws hnodup hlen
  obtain ⟨⟨hbuf, hfresh⟩, htail⟩ := List.forall_mem_cons.mp hws
  rw [List.map_cons, List.nodup_cons] at hnodup
  obtain ⟨hnot, hnodup⟩ := hnodup
  obtain ⟨t, us, hcall, hsend, hflat, hcount, hframe⟩ := serStart_fresh_buf c ext hrange hcla hcap hbuf hfresh
  have htail' : ∀ v ∈ ws, v.answers = .buf cap ∧ (t.writer v.id).stream = [] := fun v hv => by
    have hne : v.id ≠ w.id := fun h => hnot (h ▸ List.mem_map_of_mem hv)
    rw [hframe v.id hne]
    exact htail v hv
  obtain ⟨t', hrest, hend⟩ := resumeAll_fresh_bufs ext ws hsend hcap htail' hnodup (by simpa [hcount] using hlen)
  cases hend with
  | done hout hctx =>
    exact ⟨t', (collect_eq_next _ _ _ _ _ _).mpr ⟨t, us.flatten, hcall, hrest, hflat⟩, hout, hctx⟩

/-- Settles O52: a SEND is a sequence of calls with the writers that it comes to use (R89, R122). -/
theorem sendPutsOutTheUnitsInOrder : Obligations.SendPutsOutTheUnitsInOrder := by
  intro n c cmd ext w ws s t bs hcla h hdone
  obtain ⟨used, hused⟩ := sendAll_of_send h
  exact sendAll_puts_out hcla hused hdone

/-- Settles O53, by induction on the calls that SEND may make (R89, R123; decision D10). -/
theorem sendOfOneDeclarationCompletes : Obligations.SendOfOneDeclarationCompletes := by
  intro n c cmd ext j cap s hrange hcla hcap hfresh hcalls
  obtain ⟨t, us, hcall, hsend, hflat, hcount, -⟩ :=
    serStart_fresh_buf (w := ⟨j, .buf cap⟩) c ext hrange hcla hcap rfl hfresh
  obtain ⟨t', hrest, hend⟩ := resumePending_fresh_bufs (last := ⟨j, .buf cap⟩) ext n hsend hcap rfl (by omega)
  cases hend with
  | done hout hctx =>
    exact ⟨t', (collect_eq_next _ _ _ _ _ _).mpr ⟨t, us.flatten, hcall, hrest, hflat⟩, hout, hctx⟩

/-- Settles O54: the calls are the same up to where SEND stops, within the listed writers (R89). -/
theorem sendStopsWhenNotPending : Obligations.SendStopsWhenNotPending := by
  intro n m c cmd ext w ws vs s t bs hn h hstop
  obtain ⟨t', bs', hcall, hrest, rfl⟩ := (collect_eq_next _ _ _ _ _ _).mp h
  exact (collect_eq_next _ _ _ _ _ _).mpr ⟨t', bs', hcall, resumePending_stopped _ m vs hn hrest hstop, rfl⟩

end Sys2Proof.Machine

/-! PROOFS. The legal states (10_state.md): each store keeps its part of the invariant under each update of the state, so every
instruction and every move keeps the whole. -/

namespace Sys2Proof.Machine

/-! ### Contexts -/

theorem chooseMode_short {len le : Nat} {ext : Bool} (h : chooseMode len le ext = .short) : len ≤ 255 := by
  simp only [chooseMode, Config.shortLcMax] at h
  split at h
  · cases h
  · split at h
    · cases h
    · omega

theorem chooseMode_extended {len le : Nat} {ext : Bool} (h : chooseMode len le ext = .extended) :
    255 < len ∨ 256 < le := by
  simp only [chooseMode, Config.shortLcMax, Config.shortLeMax] at h
  split at h
  · rename_i hlong; exact hlong.2
  · split at h <;> cases h

theorem inRange_eq_true (cmd : LogicalCommand) :
    cmd.inRange = true ↔ cmd.data.length ≤ 65535 ∧ cmd.le ≤ 65536 := by
  simp [LogicalCommand.inRange]

/-- The context of a unit of a command in range is legal (R100, R101). -/
theorem unitContext_legal {cmd : LogicalCommand} {ext : Bool} {i : Nat} (hrange : cmd.inRange = true)
    (hcla : cmd.hdr.cla ≠ Config.invalidCla) (hi : i < unitCount cmd ext) : (unitContext cmd ext i).Legal := by
  obtain ⟨hlen, hle⟩ := (inRange_eq_true cmd).mp hrange
  have hmode : (unitContext cmd ext i).mode = chooseMode cmd.data.length cmd.le ext := rfl
  refine ⟨hcla, hlen, hle, fun h => chooseMode_short h, fun h => chooseMode_extended h,
    fun h => length_of_chooseMode_chained h, fun h => ?_, fun h => ?_, Context.unitBytes_pos _, fun h => by cases h⟩
  · rw [unitCount_of_ne_chained h] at hi
    simp [unitContext, show i = 0 by omega]
  · rw [unitCount_of_chained h] at hi
    simp only [unitContext, Config.chunkMax, Context.cmdLen, startContext]
    omega

theorem startContext_legal {cmd : LogicalCommand} (ext : Bool) (hrange : cmd.inRange = true)
    (hcla : cmd.hdr.cla ≠ Config.invalidCla) : (startContext cmd ext).Legal :=
  unitContext_legal hrange hcla (unitCount_pos cmd ext)

/-- Inside its unit a context may stop anywhere (R26, R27). -/
theorem Context.Legal.advance_stopped {c : Context} (hc : c.Legal) {k : Nat} (hk : c.unitOff + k < c.unitBytes.length) :
    (c.advance k).stopped.Legal where
  cla := hc.cla
  len := hc.len
  le := hc.le
  short := hc.short
  extended := hc.extended
  chained := hc.chained
  oneUnit := hc.oneUnit
  inChain := hc.inChain
  inUnit := hk
  boundary := fun h => by cases h

/-- After a unit that is not final the next one begins inside the command (R25, R112). -/
theorem Context.Legal.nextUnit {c : Context} (hc : c.Legal) (hmore : c.isFinal = false) : c.nextUnit.Legal := by
  have hmode : c.mode = .chained := by
    by_contra h
    rw [Context.isFinal_of_ne_chained h] at hmore
    cases hmore
  have hlt : c.chunkBase + 255 < c.cmdLen := by
    rw [← Bool.not_eq_true, Context.isFinal_of_chained hmode] at hmore
    omega
  obtain ⟨hmod, -⟩ := hc.inChain hmode
  exact
    { cla := hc.cla, len := hc.len, le := hc.le, short := hc.short, extended := hc.extended, chained := hc.chained
      oneUnit := fun h => absurd hmode h
      inChain := fun _ => ⟨by simp only [Context.nextUnit, Config.chunkMax]; omega, hlt⟩
      inUnit := Context.unitBytes_pos _
      boundary := fun _ => ⟨hmode, rfl, by simp [Context.nextUnit]⟩ }

/-- What the loop leaves live is legal (R111 to R115). -/
theorem serLoop_left_legal {fuel : Nat} {c y : Context} {w w' : Sink} {e : SerEnd} (hc : c.Legal)
    (h : serLoop fuel c w = .next (e, w')) (hy : e.left = some y) : y.Legal := by
  obtain ⟨k, hend, -, -, -, -⟩ := serLoop_spec _ _ _ _ _ (Nat.le_of_lt hc.inUnit) h
  cases e with
  | done => cases hy
  | failed _ => cases hy
  | pending c' =>
    cases hy
    rcases hend with ⟨-, hmore, rfl⟩ | ⟨hpart, rfl⟩
    · rw [Context.goesOn_eq] at hmore
      exact hc.nextUnit (by simpa using hmore)
    · exact hc.advance_stopped hpart

/-! ### Accumulators -/

theorem Acc.fresh_legal (n : Nat) : (Acc.fresh n).Legal where
  cap := Nat.zero_le n
  bufWf := rfl
  holds := fun i => by simp [Acc.fresh, Memory.read]
  empty := fun _ => ⟨rfl, rfl, rfl⟩
  seeded := fun h => by simp [Acc.fresh] at h
  cla := fun h hh => by cases hh
  le := fun n hn => by cases hn

theorem Acc.Legal.discard {x : Acc} (hx : x.Legal) : x.discard.Legal where
  cap := hx.cap
  bufWf := hx.bufWf
  holds := hx.holds
  empty := fun h => by cases h
  seeded := fun h => by rcases h with h | h <;> cases h
  cla := hx.cla
  le := hx.le

/-- A fold of a view that passes both checks (R165 to R168). -/
theorem Acc.Legal.append {x : Acc} {v : View} {bs : List Byte} (hx : x.Legal) (hv : v.le ≤ 65536)
    (hadmits : x.Admits (unchained v.hdr)) (hlen : bs.length = v.dlen) (hfit : x.len + v.dlen ≤ x.cap) :
    (x.append (unchained v.hdr) v bs).Legal := by
  rw [Acc.append_of_admits v bs hadmits]
  refine ⟨hfit, Memory.writeRun_wf bs _ _ hx.bufWf, fun i => ?_, fun h => ?_, fun _ => ⟨rfl, rfl⟩, fun h hh => ?_,
    fun n hn => ?_⟩
  · rw [Memory.read_writeRun]
    split
    · rename_i hin
      rw [Option.isSome_iff_ne_none, ne_eq, List.getElem?_eq_none_iff]
      simp only; omega
    · rename_i hout
      rw [hx.holds i]
      simp only; omega
  · simp only [stateAfterFold] at h
    split at h <;> cases h
  · cases hh; exact chainBitOf_withoutChainBit v.hdr.cla
  · cases hn; exact hv

/-! ### Views -/

/-- A view that PARSE returns is legal (R141). -/
theorem parseBytes_legal {b : Nat} {bs : List Byte} {x : View} (h : parseBytes b bs = .ok x) : x.Legal := by
  obtain ⟨hof, -, -⟩ := parseBytes_ok b bs x h
  exact ⟨hof.slice, hof.le, by rw [hof.chained, hof.hdr]⟩

theorem View.spoil_of_buf {b : Nat} {x : View} (h : x.buf = b) : x.spoil b = { x with stale := true } := if_pos h

theorem View.spoil_of_buf_ne {b : Nat} {x : View} (h : x.buf ≠ b) : x.spoil b = x := if_neg h

theorem View.Legal.spoil {x : View} (hx : x.Legal) (b : Nat) : (x.spoil b).Legal := by
  by_cases h : x.buf = b
  · rw [View.spoil_of_buf h]; exact ⟨hx.slice, hx.le, hx.flag⟩
  · rw [View.spoil_of_buf_ne h]; exact hx

/-! ### The updates of the state -/

section Updates

variable {s : State}

theorem State.Inv.returns (hs : s.Inv) (o : OpOutcome) : (s.returns o).Inv :=
  { hs with ctxs := hs.ctxs, views := hs.views, fresh := hs.fresh, accs := hs.accs }

theorem State.Inv.with_inputs (hs : s.Inv) (rest : List Input) : State.Inv { s with inputs := rest } :=
  { hs with ctxs := hs.ctxs, views := hs.views, fresh := hs.fresh, accs := hs.accs }

theorem State.Inv.with_rx (hs : s.Inv) (r : Receiver) : State.Inv { s with rx := r } :=
  { hs with ctxs := hs.ctxs, views := hs.views, fresh := hs.fresh, accs := hs.accs }

theorem State.Inv.setCtx (hs : s.Inv) (c : Nat) {x : Context} (hx : x.Legal) : (s.setCtx c x).Inv :=
  { hs with
    ctxsSorted := Slots.set_sorted _ _ _ hs.ctxsSorted
    ctxs := fun k y hy => by
      rw [State.setCtx_ctx] at hy
      split at hy
      · cases hy; exact hx
      · exact hs.ctxs k y hy
    views := hs.views
    fresh := hs.fresh
    accs := hs.accs }

theorem State.Inv.dropCtx (hs : s.Inv) (c : Nat) : (s.dropCtx c).Inv :=
  { hs with
    ctxsSorted := Slots.erase_sorted _ _ hs.ctxsSorted
    ctxs := fun k y hy => by
      rw [State.dropCtx_ctx] at hy
      split at hy
      · cases hy
      · exact hs.ctxs k y hy
    views := hs.views
    fresh := hs.fresh
    accs := hs.accs }

theorem State.Inv.setWriter (hs : s.Inv) (j : Nat) (w : WriterState) : (s.setWriter j w).Inv :=
  { hs with
    writersSorted := by
      rw [State.setWriter_writers_eq]; exact Slots.assign_sorted _ _ _ hs.writersSorted
    writersListed := fun i hi => by
      rw [State.setWriter_writers_eq, Slots.get_assign] at hi
      split at hi
      · unfold WriterState.listed at hi
        split at hi
        · cases hi
        · rename_i hne; exact hne (Option.some.inj hi)
      · exact hs.writersListed i hi
    ctxs := hs.ctxs
    views := hs.views
    fresh := hs.fresh
    accs := hs.accs }

theorem State.Inv.setAcc (hs : s.Inv) (a : Nat) {x : Acc} (hx : x.Legal) : (s.setAcc a x).Inv :=
  { hs with
    accsSorted := Slots.set_sorted _ _ _ hs.accsSorted
    accs := fun k => by
      rw [State.setAcc_acc]
      split
      · exact hx
      · exact hs.accs k
    ctxs := hs.ctxs
    views := hs.views
    fresh := hs.fresh }

/-- A view that PARSE has just made of its buffer (R34). -/
theorem State.Inv.setView (hs : s.Inv) (v : Nat) {x : View} (hx : parseBytes x.buf (s.buf x.buf) = .ok x) :
    (s.setView v x).Inv :=
  { hs with
    viewsSorted := Slots.set_sorted _ _ _ hs.viewsSorted
    views := fun k y hy => by
      rw [State.setView_view] at hy
      split at hy
      · cases hy; exact parseBytes_legal hx
      · exact hs.views k y hy
    fresh := fun k y hy hf => by
      rw [State.setView_view] at hy
      split at hy
      · cases hy; exact hx
      · exact hs.fresh k y hy hf
    ctxs := hs.ctxs
    accs := hs.accs }

theorem State.fillBuf_bufs_sorted (hs : s.Inv) (b : Nat) (bs : List Byte) :
    Slots.sorted (s.fillBuf b bs).bufs = true := by
  unfold State.fillBuf
  split
  · exact hs.bufsSorted
  · change Slots.sorted (s.putBuf b bs).bufs = true
    rw [State.putBuf_bufs]
    split
    · exact Slots.erase_sorted _ _ hs.bufsSorted
    · exact Slots.set_sorted _ _ _ hs.bufsSorted

theorem State.fillBuf_bufs_listed (hs : s.Inv) (b : Nat) (bs : List Byte) (k : Nat) :
    Slots.get (s.fillBuf b bs).bufs k ≠ some [] := by
  unfold State.fillBuf
  split
  · exact hs.bufsListed k
  · change Slots.get (s.putBuf b bs).bufs k ≠ some []
    rw [State.putBuf_bufs]
    split
    · rw [Slots.get_erase]
      split
      · simp
      · exact hs.bufsListed k
    · rename_i hne
      rw [Slots.get_set]
      split
      · simpa using hne
      · exact hs.bufsListed k

theorem State.fillBuf_views_sorted (hs : s.Inv) (b : Nat) (bs : List Byte) :
    Slots.sorted (s.fillBuf b bs).views = true := by
  unfold State.fillBuf
  split
  · exact hs.viewsSorted
  · exact Slots.map_sorted _ _ hs.viewsSorted

/-- A view after a buffer is written is a view from before, marked stale if the buffer is its own and has changed (R65). -/
theorem State.view_of_fillBuf {b k : Nat} {bs : List Byte} {y : View} (h : (s.fillBuf b bs).view k = some y) :
    ∃ x, s.view k = some x ∧ (s.buf b = bs ∧ y = x ∨ s.buf b ≠ bs ∧ y = x.spoil b) := by
  rw [State.fillBuf_view] at h
  split at h
  · rename_i hsame; exact ⟨y, h, .inl ⟨hsame, rfl⟩⟩
  · rename_i hchange
    obtain ⟨x, hx, rfl⟩ := Option.map_eq_some_iff.mp h
    exact ⟨x, hx, .inr ⟨hchange, rfl⟩⟩

theorem State.Inv.fillBuf (hs : s.Inv) (b : Nat) (bs : List Byte) : (s.fillBuf b bs).Inv where
  ctxsSorted := by rw [State.fillBuf_ctxs]; exact hs.ctxsSorted
  accsSorted := by rw [State.fillBuf_accs]; exact hs.accsSorted
  writersSorted := by rw [State.fillBuf_writers]; exact hs.writersSorted
  viewsSorted := State.fillBuf_views_sorted hs b bs
  bufsSorted := State.fillBuf_bufs_sorted hs b bs
  bufsListed := State.fillBuf_bufs_listed hs b bs
  writersListed := fun j => by rw [State.fillBuf_writers]; exact hs.writersListed j
  ctxs := fun c x hx => hs.ctxs c x (by rwa [State.fillBuf_ctx] at hx)
  accs := fun a => by rw [State.fillBuf_acc]; exact hs.accs a
  views := fun k y hy => by
    obtain ⟨x, hx, ⟨-, rfl⟩ | ⟨-, rfl⟩⟩ := State.view_of_fillBuf hy
    · exact hs.views k _ hx
    · exact (hs.views k x hx).spoil b
  fresh := fun k y hy hf => by
    obtain ⟨x, hx, ⟨hsame, rfl⟩ | ⟨-, rfl⟩⟩ := State.view_of_fillBuf hy
    · rw [State.fillBuf, if_pos hsame]; exact hs.fresh k _ hx hf
    · by_cases hb : x.buf = b
      · rw [View.spoil_of_buf hb] at hf; cases hf
      · rw [View.spoil_of_buf_ne hb] at hf ⊢
        rw [State.fillBuf_buf, if_neg hb]
        exact hs.fresh k x hx hf

theorem State.Inv.restart (hs : s.Inv) : s.restart.Inv where
  ctxsSorted := rfl
  viewsSorted := rfl
  accsSorted := rfl
  bufsSorted := hs.bufsSorted
  writersSorted := hs.writersSorted
  bufsListed := hs.bufsListed
  writersListed := hs.writersListed
  ctxs := fun c x hx => by cases hx
  views := fun v x hx => by cases hx
  fresh := fun v x hx => by cases hx
  accs := fun a => Acc.fresh_legal _

end Updates

/-! ### The operations -/

section Operations

variable {s t : State}

theorem State.Inv.apply (hs : s.Inv) {e : SerEnd} (n j : Nat) (k : WriterState) (he : ∀ y, e.left = some y → y.Legal) :
    (e.apply n j k s).Inv := by
  cases e with
  | done => exact ((hs.setWriter j k).dropCtx n).returns _
  | pending y => exact ((hs.setWriter j k).setCtx n (he y rfl)).returns _
  | failed err => exact ((hs.setWriter j k).dropCtx n).returns _

theorem serStep_keeps_inv {n : Nat} {c : Context} {w : Writer} (hs : s.Inv) (hc : c.Legal)
    (h : serStep n c w s = .next t) : t.Inv := by
  obtain ⟨e, k, hloop, rfl⟩ := (serStep_eq_next n c w s t).mp h
  exact hs.apply n w.id k.st fun y hy => serLoop_left_legal hc hloop hy

theorem execSerStart_keeps_inv {c : Nat} {cmd : LogicalCommand} {ext : Bool} {w : Writer} (hs : s.Inv)
    (h : execSerStart c cmd ext w s = .next t) : t.Inv := by
  obtain ⟨hrange, ⟨-, rfl⟩ | ⟨hcla, hstep⟩⟩ := execSerStart_eq_next h
  · exact hs.returns _
  · exact serStep_keeps_inv hs (startContext_legal ext hrange hcla) hstep

theorem execSerResume_keeps_inv {c : Nat} (ext : Bool) {w : Writer} (hs : s.Inv)
    (h : execSerResume c ext w s = .next t) : t.Inv := by
  obtain ⟨x, hx, hstep⟩ := execSerResume_eq_next ext h
  exact serStep_keeps_inv hs (hs.ctxs c x hx) hstep

theorem execParse_keeps_inv {v b : Nat} (hs : s.Inv) (h : execParse v b s = .next t) : t.Inv := by
  cases hp : parseBytes b (s.buf b) with
  | ok x =>
    rw [execParse_of_ok hp] at h
    cases h
    obtain ⟨hof, -, -⟩ := parseBytes_ok b _ x hp
    exact (hs.setView v (by rw [hof.buf]; exact hp)).returns _
  | error r =>
    rw [execParse_of_error hp] at h
    cases h
    exact hs.returns _

theorem execAccExtend_keeps_inv {a v : Nat} (hs : s.Inv) (h : execAccExtend a v s = .next t) : t.Inv := by
  have hacc := hs.accs a
  cases execAccExtend_eq_next a v s t h with
  | already _ => exact hs.returns _
  | mismatch _ _ _ _ _ _ _ => exact (hs.setAcc a hacc.discard).returns _
  | folded x t hx _ hadmits ht =>
    cases ht with
    | exceeds _ => exact (hs.setAcc a hacc.discard).returns _
    | fits bs hfit hbs =>
      have hview := hs.views v x hx
      exact (hs.setAcc a (hacc.append hview.le hadmits (recvSlice_length hbs) hfit)).returns _

/-- Every operation keeps the state legal. -/
theorem exec_keeps_inv {i : Instr} (hport : i.port = .op) (hs : s.Inv) (h : exec i s = .next t) : t.Inv := by
  cases i with
  | serStart c cmd ext w => exact execSerStart_keeps_inv hs h
  | serResume c ext w => exact execSerResume_keeps_inv ext hs h
  | serCancel c => cases h; exact (hs.dropCtx c).returns _
  | parse v b => exact execParse_keeps_inv hs h
  | accNew a n => cases h; exact (hs.setAcc a (Acc.fresh_legal n)).returns _
  | accExtend a v => exact execAccExtend_keeps_inv hs h
  | accRead a =>
    obtain ⟨f, rfl⟩ := execAccRead_eq_next a s t h
    exact hs.returns _
  | _ => cases hport

/-- Every move keeps the state legal. A delivery is PARSE of the buffer that the unit comes into. -/
theorem accept_keeps_inv {m : Input} (hs : s.Inv) (h : accept m s = .next t) : t.Inv := by
  cases m with
  | op bs =>
    rw [show accept (.op bs) s = issue bs s from rfl] at h
    cases hdec : decode .op bs with
    | ok i =>
      rw [issue_of_ok s hdec] at h
      exact exec_keeps_inv (encodeOp_of_decodeOp bs i hdec).1 hs h
    | error e => rw [issue_of_error s hdec] at h; cases h
  | unit v b bs =>
    rw [show accept (.unit v b bs) s = deliver v b bs s from rfl, deliver_eq] at h
    exact exec_keeps_inv rfl ((hs.fillBuf b bs).with_rx ⟨v, b⟩) h
  | fillBuf b bs => cases h; exact hs.fillBuf b bs
  | setCommand c cmd =>
    simp only [accept, writeCommand] at h
    split at h
    · cases h; exact hs
    · split at h
      · cases h; exact hs
      · cases h
  | reset => cases h; exact hs.restart

end Operations

/-! ### The obligations -/

/-- Settles O50: every store is empty, and every accumulator as at first (R45). -/
theorem resetIsLegal : Obligations.ResetIsLegal where
  ctxsSorted := rfl
  viewsSorted := rfl
  accsSorted := rfl
  bufsSorted := rfl
  writersSorted := rfl
  bufsListed := fun b hb => by cases hb
  writersListed := fun j hj => by cases hj
  ctxs := fun c x hx => by cases hx
  views := fun v x hx => by cases hx
  fresh := fun v x hx => by cases hx
  accs := fun a => Acc.fresh_legal _

/-- Settles O51: a step takes one move, and every move keeps the state legal. -/
theorem everyStepKeepsStateLegal : Obligations.EveryStepKeepsStateLegal := by
  intro s t hs h
  cases hin : s.inputs with
  | nil => rw [step_of_no_inputs hin] at h; cases h; exact hs
  | cons m rest =>
    rw [step_of_inputs hin] at h
    exact accept_keeps_inv (hs.with_inputs rest) h

end Sys2Proof.Machine

/-! PROOFS. The round trips (40_serializer.md section 5): what SER emits, parsed, is the command again where it is one unit, and
folded in order where it is a chain (42_accumulator.md sections 2 and 4). -/

namespace Sys2Proof.Machine

/-! ### The class of a unit -/

theorem withoutChainBit_of_clear {cla : Byte} (h : cla &&& 0x10#8 = 0#8) : withoutChainBit cla = cla := by
  calc cla &&& 0xEF#8
      = cla &&& 0xEF#8 ||| cla &&& 0x10#8 := by rw [h, BitVec.or_zero]
    _ = cla &&& (0xEF#8 ||| 0x10#8) := BitVec.and_or_distrib_left.symm
    _ = cla := BitVec.and_allOnes

theorem withoutChainBit_withChainBit (cla : Byte) : withoutChainBit (withChainBit cla) = withoutChainBit cla := by
  calc (cla ||| 0x10#8) &&& 0xEF#8
      = cla &&& 0xEF#8 ||| 0x10#8 &&& 0xEF#8 := BitVec.and_or_distrib_right
    _ = cla &&& 0xEF#8 := BitVec.or_zero

theorem withoutChainBit_withoutChainBit (cla : Byte) :
    withoutChainBit (withoutChainBit cla) = withoutChainBit cla := by
  rw [withoutChainBit, withoutChainBit, BitVec.and_assoc, BitVec.and_self]

theorem wfCmd_eq_true (cmd : LogicalCommand) :
    cmd.wfCmd = true ↔ cmd.inRange = true ∧ cmd.hdr.cla &&& 0x10#8 = 0#8 := by
  simp [LogicalCommand.wfCmd]

section Unit

variable {c : Context}

theorem Context.unitHeader_of_final (hfinal : c.isFinal = true) (hclear : c.hdr.cla &&& 0x10#8 = 0#8) :
    c.unitHeader = c.hdr := by
  simp only [Context.unitHeader, Context.unitCla, hfinal, if_true, withoutChainBit_of_clear hclear]

/-- The header that the accumulator compares is the command's, for every unit of a chain (R102, R163). -/
theorem Context.unchained_unitHeader (hclear : c.hdr.cla &&& 0x10#8 = 0#8) : unchained c.unitHeader = c.hdr := by
  have hcla : withoutChainBit c.unitCla = c.hdr.cla := by
    unfold Context.unitCla
    split
    · rw [withoutChainBit_withoutChainBit, withoutChainBit_of_clear hclear]
    · rw [withoutChainBit_withChainBit, withoutChainBit_of_clear hclear]
  simp only [unchained, Context.unitHeader, hcla]

/-- No unit of a command of a class that is not reserved is rejected for its class (R79, R146). -/
theorem Context.rejectsClass_unitCla (hclear : c.hdr.cla &&& 0x10#8 = 0#8) (hcla : c.hdr.cla ≠ 0xEF#8) :
    rejectsClass c.unitCla = false := by
  rw [← Bool.not_eq_true, rejectsClass_eq_true]
  rintro ⟨hef, -⟩
  unfold Context.unitCla at hef
  split at hef
  · rw [withoutChainBit_of_clear hclear] at hef
    exact hcla hef
  · have hbit := chainBitOf_withChainBit c.hdr.cla
    rw [hef] at hbit
    exact absurd hbit (by decide)

end Unit

/-! ### A command that is one unit -/

theorem chooseMode_eq_extended (len le : Nat) (ext : Bool) :
    chooseMode len le ext = .extended ↔ ext = true ∧ (255 < len ∨ 256 < le) := by
  simp only [chooseMode, Config.shortLcMax, Config.shortLeMax]
  split
  · rename_i hext; exact iff_of_true rfl hext
  · rename_i hext; exact iff_of_false (by split <;> simp) hext

theorem chooseMode_ne_chained {len : Nat} (le : Nat) {ext : Bool} (h : ext = true ∨ len ≤ 255) :
    chooseMode len le ext ≠ .chained := by
  intro hmode
  have hlong := length_of_chooseMode_chained hmode
  obtain rfl : ext = true := h.resolve_right (by omega)
  have hext := (chooseMode_eq_extended len le true).mpr ⟨rfl, .inl hlong⟩
  rw [hmode] at hext
  cases hext

/-- The expected length is clamped only where the extended form is not asked for (R29, R100). -/
theorem startContext_leEff (cmd : LogicalCommand) (ext : Bool) :
    (startContext cmd ext).leEff = if ext = true then cmd.le else min cmd.le 256 := by
  by_cases hmode : chooseMode cmd.data.length cmd.le ext = .extended
  · obtain ⟨hext, -⟩ := (chooseMode_eq_extended _ _ _).mp hmode
    rw [Context.leEff_of_extended (c := startContext cmd ext) hmode, if_pos hext]
    rfl
  · rw [Context.leEff_of_ne_extended (c := startContext cmd ext) hmode]
    split
    · rename_i hext
      rw [chooseMode_eq_extended] at hmode
      have hle : cmd.le ≤ 256 := by
        by_contra hlong
        exact hmode ⟨hext, .inr (by omega)⟩
      exact Nat.min_eq_left hle
    · rfl

/-! ### FOLD of one unit -/

/-- The state in which PARSE has made view `v` of the unit of `c` in receive buffer `b`. -/
def State.parsedUnit (s : State) (v b : Nat) (c : Context) : State :=
  ((s.fillBuf b c.unitBytes).setView v (c.unitView b)).returns (.okView (c.unitView b))

section ParsedUnit

variable (s : State) (v b : Nat) (c : Context)

@[simp] theorem State.parsedUnit_view : (s.parsedUnit v b c).view v = some (c.unitView b) := State.setView_view_self _ _ _

@[simp] theorem State.parsedUnit_acc (a : Nat) : (s.parsedUnit v b c).acc a = s.acc a := State.fillBuf_acc s b _ a

@[simp] theorem State.parsedUnit_buf : (s.parsedUnit v b c).buf b = c.unitBytes :=
  (State.fillBuf_buf s b b _).trans (if_pos rfl)

end ParsedUnit

/-- FOLD of the unit of a legal context is ACC_EXTEND with its view (R89, R149). -/
theorem foldUnit_unitBytes {c : Context} (a v b : Nat) (s : State) (hc : c.Legal)
    (hcla : rejectsClass c.unitCla = false) : foldUnit a v b c.unitBytes s = execAccExtend a v (s.parsedUnit v b c) := by
  have hbuf : (s.fillBuf b c.unitBytes).buf b = c.unitBytes := (State.fillBuf_buf s b b _).trans (if_pos rfl)
  have hparse : execParse v b (s.fillBuf b c.unitBytes) = .next (s.parsedUnit v b c) :=
    execParse_of_ok (by rw [hbuf]; exact hc.parseBytes_unitBytes b hcla)
  unfold foldUnit
  rw [exec_parse, hparse]
  rfl

/-- FOLD of a unit whose header is admitted and whose payload fits (R165 to R168). -/
theorem foldUnit_of_fits {c : Context} {a : Nat} (v b : Nat) {s : State} (hc : c.Legal)
    (hcla : rejectsClass c.unitCla = false) (hadmits : (s.acc a).Admits (unchained c.unitHeader))
    (hfit : (s.acc a).len + c.chunkLen ≤ (s.acc a).cap) :
    ∃ t, foldUnit a v b c.unitBytes s = .next t ∧
      t.acc a = (s.acc a).append (unchained c.unitHeader) (c.unitView b) c.chunk ∧
      t.outcome = some (outcomeAfterFold (!c.isFinal)) := by
  have hslice : recvSlice ((s.parsedUnit v b c).buf (c.unitView b).buf) (c.unitView b).doff (c.unitView b).dlen
      = some c.chunk := by
    rw [show (c.unitView b).buf = b from rfl, State.parsedUnit_buf]
    exact hc.recvSlice_unitBytes b
  refine ⟨((s.parsedUnit v b c).setAcc a _).returns (outcomeAfterFold (!c.isFinal)), ?_,
    State.setAcc_acc_self _ _ _, rfl⟩
  rw [foldUnit_unitBytes a v b s hc hcla,
    execAccExtend_of_admits (State.parsedUnit_view s v b c) rfl (by rw [State.parsedUnit_acc]; exact hadmits),
    State.parsedUnit_acc, foldPayload_of_fits a hfit hslice]
  rfl

/-- FOLD of a unit whose header is admitted and whose payload does not fit (R164). -/
theorem foldUnit_of_exceeds {c : Context} {a : Nat} (v b : Nat) {s : State} (hc : c.Legal)
    (hcla : rejectsClass c.unitCla = false) (hadmits : (s.acc a).Admits (unchained c.unitHeader))
    (hexceeds : (s.acc a).cap < (s.acc a).len + c.chunkLen) :
    ∃ t, foldUnit a v b c.unitBytes s = .next t ∧ t.acc a = (s.acc a).discard ∧
      t.outcome = some .capacityExceeded := by
  refine ⟨((s.parsedUnit v b c).setAcc a _).returns .capacityExceeded, ?_, State.setAcc_acc_self _ _ _, rfl⟩
  rw [foldUnit_unitBytes a v b s hc hcla,
    execAccExtend_of_admits (State.parsedUnit_view s v b c) rfl (by rw [State.parsedUnit_acc]; exact hadmits),
    State.parsedUnit_acc, foldPayload_of_exceeds a _ hexceeds]

theorem foldUnits_append {a v b : Nat} (us vs : List (List Byte)) {s t : State}
    (h : foldUnits a v b us s = .next t) : foldUnits a v b (us ++ vs) s = foldUnits a v b vs t := by
  induction us generalizing s with
  | nil => cases h; rfl
  | cons u us ih =>
    rw [foldUnits] at h
    rw [List.cons_append, foldUnits]
    split at h
    · exact ih h
    · cases h
    · cases h

theorem foldUnits_singleton {a v b : Nat} {u : List Byte} {s t : State} (h : foldUnit a v b u s = .next t) :
    foldUnits a v b [u] s = .next t := by
  simp only [foldUnits, h]

/-! ### A chain folded in order -/

/-- The accumulator `x`, of capacity `n`, holds the first `i` units of the chain of `cmd` (R165 to R168). -/
structure Acc.HoldsUnits (cmd : LogicalCommand) (n i : Nat) (x : Acc) : Prop where
  cap   : x.cap = n
  state : x.state = if i = 0 then .empty else stateAfterFold (decide (i < unitCount cmd false))
  hdr   : i ≠ 0 → x.hdr = some cmd.hdr
  len   : x.len = min (255 * i) cmd.data.length
  le    : i ≠ 0 → x.le = some (if i < unitCount cmd false then 0 else min cmd.le 256)
  data  : ∀ j, j < x.len → Memory.read x.buf j = cmd.data[j]?

theorem Acc.fresh_holdsUnits (cmd : LogicalCommand) (n : Nat) : (Acc.fresh n).HoldsUnits cmd n 0 where
  cap := rfl
  state := rfl
  hdr := fun h => absurd rfl h
  len := by simp [Acc.fresh]
  le := fun h => absurd rfl h
  data := fun j hj => by simp [Acc.fresh] at hj

/-- The hypotheses of the chained family: a command that is well formed, of a class that is not reserved, and longer than one
short unit (R21, R79, R100). -/
structure Chains (cmd : LogicalCommand) : Prop where
  wf   : cmd.wfCmd = true
  cla  : cmd.hdr.cla ≠ 0xEF#8
  long : 255 < cmd.data.length

section Chain

variable {cmd : LogicalCommand} {n i : Nat}

theorem Chains.mode (h : Chains cmd) : chooseMode cmd.data.length cmd.le false = .chained := by
  simp [chooseMode, h.long]

theorem Chains.clear (h : Chains cmd) : cmd.hdr.cla &&& 0x10#8 = 0#8 := ((wfCmd_eq_true cmd).mp h.wf).2

theorem Chains.unitCount_eq (h : Chains cmd) : unitCount cmd false = (cmd.data.length + 254) / 255 :=
  unitCount_of_chained h.mode

theorem Chains.legal (h : Chains cmd) (hi : i < unitCount cmd false) : (unitContext cmd false i).Legal :=
  unitContext_legal ((wfCmd_eq_true cmd).mp h.wf).1 h.cla hi

theorem Chains.chunkLen_eq (h : Chains cmd) :
    (unitContext cmd false i).chunkLen = min 255 (cmd.data.length - 255 * i) :=
  Context.chunkLen_of_chained (c := unitContext cmd false i) h.mode

theorem Chains.rejectsClass_eq (h : Chains cmd) : rejectsClass (unitContext cmd false i).unitCla = false :=
  Context.rejectsClass_unitCla (c := unitContext cmd false i) h.clear h.cla

theorem Chains.unchained_eq (h : Chains cmd) : unchained (unitContext cmd false i).unitHeader = cmd.hdr :=
  Context.unchained_unitHeader (c := unitContext cmd false i) h.clear

theorem Chains.leEff_eq (h : Chains cmd) : (unitContext cmd false i).leEff = min cmd.le 256 :=
  Context.leEff_of_ne_extended (c := unitContext cmd false i) (by
    rw [show (unitContext cmd false i).mode = .chained from h.mode]; simp)

/-- The chaining flag of a unit says whether more units follow. -/
theorem unitContext_not_isFinal (cmd : LogicalCommand) (i : Nat) :
    (!(unitContext cmd false i).isFinal) = decide (i + 1 < unitCount cmd false) := by
  rw [Bool.eq_iff_iff, Bool.not_eq_true', ← Bool.not_eq_true, unitContext_isFinal, decide_eq_true_eq, Nat.not_le]

/-- While units are still to come the accumulator admits the next one (R163). -/
theorem Acc.HoldsUnits.admits {x : Acc} (hx : x.HoldsUnits cmd n i) (hi : i < unitCount cmd false) :
    x.Admits cmd.hdr := by
  by_cases h0 : i = 0
  · exact .inl (by rw [hx.state, if_pos h0])
  · exact .inr ⟨by rw [hx.state, if_neg h0, decide_eq_true hi]; rfl, hx.hdr h0⟩

/-- Folding the next unit in (R165 to R168). -/
theorem Acc.HoldsUnits.append {x : Acc} (hx : x.HoldsUnits cmd n i) (h : Chains cmd) (hi : i < unitCount cmd false)
    (b : Nat) :
    (x.append cmd.hdr ((unitContext cmd false i).unitView b) (unitContext cmd false i).chunk).HoldsUnits cmd n (i + 1) := by
  have hlen := hx.len
  have hchunk : (unitContext cmd false i).chunkLen = min 255 (cmd.data.length - 255 * i) := h.chunkLen_eq
  have hcount := h.unitCount_eq
  have hchained : ((unitContext cmd false i).unitView b).chained = decide (i + 1 < unitCount cmd false) :=
    unitContext_not_isFinal cmd i
  rw [Acc.append_of_admits _ _ (hx.admits hi)]
  refine ⟨hx.cap, ?_, fun _ => rfl, ?_, fun _ => ?_, fun j hj => ?_⟩
  · rw [hchained, if_neg (Nat.succ_ne_zero i)]
  · change x.len + (unitContext cmd false i).chunkLen = _
    omega
  · change some (if (unitContext cmd false i).isFinal = true then (unitContext cmd false i).leEff else 0) = _
    rw [h.leEff_eq]
    simp only [unitContext_isFinal]
    split
    · rw [if_neg (by omega)]
    · rw [if_pos (by omega)]
  · change j < x.len + (unitContext cmd false i).chunkLen at hj
    rw [Memory.read_writeRun, (h.legal hi).chunk_length]
    split
    · rename_i hin
      change ((cmd.data.drop (255 * i)).take (unitContext cmd false i).chunkLen)[j - x.len]? = _
      rw [List.getElem?_take_of_lt (by omega), List.getElem?_drop]
      congr 1
      omega
    · exact hx.data j (by omega)

/-- The first `m` units of a chain, folded in order into a new accumulator that has room for them, are held by it (R127). -/
theorem foldUnits_take (h : Chains cmd) (a v b m : Nat) (s : State) (hm : m ≤ unitCount cmd false)
    (hfit : min (255 * m) cmd.data.length ≤ n) :
    ∃ t, foldUnits a v b ((unitsOf cmd false).take m) (s.setAcc a (Acc.fresh n)) = .next t ∧
      (t.acc a).HoldsUnits cmd n m ∧ (m ≠ 0 → t.outcome = some (outcomeAfterFold (decide (m < unitCount cmd false)))) := by
  induction m with
  | zero =>
    exact ⟨_, rfl, by rw [State.setAcc_acc_self]; exact Acc.fresh_holdsUnits cmd n, fun h0 => absurd rfl h0⟩
  | succ m ih =>
    obtain ⟨t, hfold, hholds, -⟩ := ih (by omega) (by omega)
    have hlen := hholds.len
    have hchunk : (unitContext cmd false m).chunkLen = min 255 (cmd.data.length - 255 * m) := h.chunkLen_eq
    have hcount := h.unitCount_eq
    obtain ⟨t', hunit, hacc, hout⟩ := foldUnit_of_fits v b (h.legal hm) h.rejectsClass_eq
      (by rw [h.unchained_eq]; exact hholds.admits hm) (by rw [hholds.cap]; omega)
    have htake : (unitsOf cmd false).take (m + 1)
        = (unitsOf cmd false).take m ++ [(unitContext cmd false m).unitBytes] := by
      rw [List.take_add, unitsOf_drop hm]
      rfl
    rw [h.unchained_eq] at hacc
    refine ⟨t', ?_, by rw [hacc]; exact hholds.append h hm b, fun _ => by rw [hout, unitContext_not_isFinal]⟩
    rw [htake, foldUnits_append _ _ hfold]
    exact foldUnits_singleton hunit

end Chain

/-! ### The obligations -/

/-- Settles O32: one write takes the unit, which is final, and PARSE gives its view (O31), whose fields are the command's
(R125, R126). -/
theorem singleUnitRoundTrip : Obligations.SingleUnitRoundTrip := by
  intro c cmd ext j cap s hwf hcla hone hroom
  obtain ⟨hrange, hclear⟩ := (wfCmd_eq_true cmd).mp hwf
  have hmode : (startContext cmd ext).mode ≠ .chained := chooseMode_ne_chained cmd.le hone
  have hfinal := Context.isFinal_of_ne_chained hmode
  have hlegal := startContext_legal ext hrange hcla
  refine ⟨_, (startContext cmd ext).unitBytes, (exec_serStart _ _ _ _ _).trans
    ((execSerStart_of_inRange ext _ s hrange hcla).trans
      (serStep_buf_of_room c j cap _ s hlegal.inUnit hroom)), ?_, ?_, fun v b r hr => ?_⟩
  · rw [SerEnd.apply_outcome, Context.unitEnd, if_pos hfinal]; rfl
  · rw [SerEnd.apply_writer_self]; rfl
  · have hparse : parseBytes b (r.buf b) = .ok ((startContext cmd ext).unitView b) := by
      rw [hr]; exact hlegal.parseBytes_unitBytes b (Context.rejectsClass_unitCla hclear hcla)
    refine ⟨_, _, execParse_of_ok hparse, State.setView_view_self _ _ _, ?_, ?_, ?_, ?_, ?_⟩
    · exact Context.unitHeader_of_final hfinal hclear
    · rw [hlegal.recvSlice_unitBytes, hlegal.chunk_of_ne_chained hmode]; rfl
    · rw [← startContext_leEff]; exact if_pos hfinal
    · exact decide_eq_true_iff.trans (chooseMode_eq_extended _ _ _)
    · exact congrArg not hfinal

/-- Settles O45, by induction on the units of the chain (R127). -/
theorem chainReassemblesTheCommand : Obligations.ChainReassemblesTheCommand := by
  intro cmd a v b n s hwf hcla hlong hroom
  have h : Chains cmd := ⟨hwf, hcla, hlong⟩
  have hcount := h.unitCount_eq
  obtain ⟨t, hfold, hholds, hout⟩ := foldUnits_take h a v b (unitCount cmd false) s (Nat.le_refl _) (by omega : _ ≤ n)
  have hne : unitCount cmd false ≠ 0 := by omega
  have hlen : (t.acc a).len = cmd.data.length := by rw [hholds.len]; omega
  rw [← unitsOf_length, List.take_length] at hfold
  refine ⟨t, hfold, ?_, ?_, hholds.hdr hne, hlen, ?_, (Memory.readRun_eq_some _ _ _ _).mpr ⟨hlen.symm, fun j hj => ?_⟩⟩
  · rw [hout hne, decide_eq_false (Nat.lt_irrefl _)]; rfl
  · rw [hholds.state, if_neg hne, decide_eq_false (Nat.lt_irrefl _)]; rfl
  · rw [hholds.le hne, if_neg (Nat.lt_irrefl _)]
  · rw [Nat.zero_add]; exact hholds.data j hj

/-- Settles O46: the first `n / 255` units fit, and the next one does not (R172). -/
theorem overlongChainFailsAtTheFirstExcess : Obligations.OverlongChainFailsAtTheFirstExcess := by
  intro cmd a v b n s hwf hcla hlong hover
  have h : Chains cmd := ⟨hwf, hcla, hlong⟩
  have hcount := h.unitCount_eq
  have hi : n / 255 < unitCount cmd false := by omega
  obtain ⟨t, hfold, hholds, -⟩ := foldUnits_take (n := n) h a v b (n / 255) s (Nat.le_of_lt hi) (by omega)
  have hlen : (t.acc a).len = 255 * (n / 255) := by rw [hholds.len]; omega
  have hchunk : (unitContext cmd false (n / 255)).chunkLen = min 255 (cmd.data.length - 255 * (n / 255)) :=
    h.chunkLen_eq
  obtain ⟨t', hunit, hacc, hout⟩ := foldUnit_of_exceeds v b (h.legal hi) h.rejectsClass_eq
    (by rw [h.unchained_eq]; exact hholds.admits hi) (by rw [hholds.cap]; omega)
  exact ⟨t, t', hfold, hlen, hunit, hout, hacc⟩

end Sys2Proof.Machine
